-- ==== Sys2Proof/Word.lean ====
section
/-! DEFINITION. The word types of PRE and the values its registers hold. -/

namespace Sys2Proof

/-- A 32-bit command word or control register (30_encoding.md R90, 10_state.md R28). -/
abbrev Word := BitVec 32

/-- One byte lane of the host bus (20_memory.md R62). -/
abbrev Byte := BitVec 8

/-- A polynomial value (00_scope.md R7): the coefficient list, constant term first. -/
abbrev Poly := List Nat

end Sys2Proof
end

