-- ==== Sys2Proof/Syntax.lean ====
section
/-! DEFINITION. The commands of PRE: one constructor per row of spec/opcode_table.json. -/

namespace Sys2Proof

/-- A polynomial register `P0` to `P15` (10_state.md R21); its tag has the same index (R24). -/
abbrev PReg := Fin 16

/-- A scalar register `S0` to `S15` (10_state.md R23). -/
abbrev SReg := Fin 16

/-- The `strat` field of PMUL and YMUL (30_encoding.md R95): 0 DEFAULT, 1 NAIVE, 2 RKARA,
3 FKARA. -/
inductive Strat where
  | dflt
  | naive
  | rkara
  | fkara
  deriving DecidableEq, Repr

/-- The commands (30_encoding.md R96). A register field is typed, since every index of a single
field exists (R94); an immediate is a number whose width WellFormed checks (R95). Operands
stand in the order rd, ra, rb, immediates. -/
inductive Instr where
  | nop
  | fadd (rd ra rb : SReg)
  | fsub (rd ra rb : SReg)
  | fmul (rd ra rb : SReg)
  | fneg (rd ra : SReg)
  | finv (rd ra : SReg)
  | fdiv (rd ra rb : SReg)
  | fldi (rd : SReg) (imm20 : Nat)
  | fmov (rd ra : SReg)
  | feq (ra rb : SReg)
  | pzero (rd : PReg)
  | pone (rd : PReg)
  | pmono (rd : PReg) (imm20 : Nat)
  | pcopy (rd ra : PReg)
  | pgetc (rd : SReg) (ra : PReg) (idx16 : Nat)
  | psetc (rd : PReg) (ra : SReg) (idx16 : Nat)
  | peq (ra rb : PReg)
  | padd (rd ra rb : PReg)
  | psub (rd ra rb : PReg)
  | pneg (rd ra : PReg)
  | pscale (rd ra : PReg) (rb : SReg)
  | preduce (rd ra : PReg)
  | psplit (rd ra : PReg) (clog : Nat)
  | psplitk (rd ra : PReg) (clog klog : Nat)
  | pmul (rd ra rb : PReg) (strat : Strat)
  | pmulf (rd ra rb : PReg)
  | pinv (rd ra : PReg)
  | sampu (rd : PReg)
  | sampt (rd : PReg)
  | sampg (rd : PReg)
  | sampb (rd : PReg)
  | ykeygen (rd : PReg)
  | yenc (rd ra rb : PReg)
  | ydec (rd ra rb : PReg)
  | ydecm (rd ra rb : PReg)
  | yadd (rd ra rb : PReg)
  | ymul (rd ra rb : PReg) (strat : Strat)
  deriving DecidableEq, Repr

end Sys2Proof
end

