-- ==== Sys2Proof/WellFormed.lean ====
section
/-! DEFINITION. Which terms of `Instr` a command word can hold: each immediate fits its field
(30_encoding.md R95). Whether a value is in a command's own range is not checked here: that is
part of the command's meaning (R95, R100). -/

namespace Sys2Proof

/-- Every immediate fits the field of 30_encoding.md R95 that holds it. -/
def Instr.wellFormed : Instr → Bool
  | .fldi _ imm => imm < 2 ^ 20
  | .pmono _ imm => imm < 2 ^ 20
  | .pgetc _ _ idx => idx < 2 ^ 16
  | .psetc _ _ idx => idx < 2 ^ 16
  | .psplit _ _ clog => clog < 2 ^ 6
  | .psplitk _ _ clog klog => clog < 2 ^ 6 && klog < 2 ^ 6
  | .nop | .fadd .. | .fsub .. | .fmul .. | .fneg .. | .finv .. | .fdiv .. | .fmov .. | .feq ..
  | .pzero .. | .pone .. | .pcopy .. | .peq .. | .padd .. | .psub .. | .pneg .. | .pscale ..
  | .preduce .. | .pmul .. | .pmulf .. | .pinv .. | .sampu .. | .sampt .. | .sampg ..
  | .sampb .. | .ykeygen .. | .yenc .. | .ydec .. | .ydecm .. | .yadd .. | .ymul .. => true

end Sys2Proof
end

