-- ==== Sys2Proof/Decode.lean ====
section
/-! DEFINITION. Command words: fields, the decoder (30_encoding.md R90 to R100 steps 1 and 2),
the encoder, the assembly text (R101) and the pseudo-commands (R102). -/

namespace Sys2Proof

/-- `w[hi:lo]`, the bits `hi` down to `lo` as a number (00_scope.md R5). -/
def bits (w : Word) (hi lo : Nat) : Nat := w.toNat / 2 ^ lo % 2 ^ (hi - lo + 1)

/-- Why a word is no command: the two word errors of 30_encoding.md R100, steps 1 and 2. -/
inductive DecodeError where
  /-- R98: bits 31:24 are no assigned opcode -/
  | illegalOpcode
  /-- R97: a reserved field of an assigned opcode is nonzero -/
  | illegalField
  deriving DecidableEq, Repr

/-- A 4-bit register field (R94). -/
def regField (w : Word) (hi lo : Nat) : Fin 16 := Fin.ofNat 16 (bits w hi lo)

/-- The fields of formats R, I and X (R91, R92, R93). -/
def fieldRd (w : Word) : Fin 16 := regField w 23 20
def fieldRa (w : Word) : Fin 16 := regField w 19 16
def fieldRb (w : Word) : Fin 16 := regField w 15 12

/-- `strat = word[1:0]` (R95). -/
def fieldStrat (w : Word) : Strat :=
  match bits w 1 0 with
  | 0 => .dflt
  | 1 => .naive
  | 2 => .rkara
  | _ => .fkara

/-- R97: the command stands only if its reserved fields are all 0. -/
def ifReserved (zero : Bool) (i : Instr) : Except DecodeError Instr :=
  if zero then .ok i else .error .illegalField

/-- The decoder: opcode first, then the reserved fields of that opcode (R96, R97, R98, R100). -/
def decode (w : Word) : Except DecodeError Instr :=
  match bits w 31 24 with
  | 0x00 => ifReserved (bits w 23 0 == 0) .nop
  | 0x10 => ifReserved (bits w 11 0 == 0) (.fadd (fieldRd w) (fieldRa w) (fieldRb w))
  | 0x11 => ifReserved (bits w 11 0 == 0) (.fsub (fieldRd w) (fieldRa w) (fieldRb w))
  | 0x12 => ifReserved (bits w 11 0 == 0) (.fmul (fieldRd w) (fieldRa w) (fieldRb w))
  | 0x13 => ifReserved (bits w 15 0 == 0) (.fneg (fieldRd w) (fieldRa w))
  | 0x14 => ifReserved (bits w 15 0 == 0) (.finv (fieldRd w) (fieldRa w))
  | 0x15 => ifReserved (bits w 11 0 == 0) (.fdiv (fieldRd w) (fieldRa w) (fieldRb w))
  | 0x16 => .ok (.fldi (fieldRd w) (bits w 19 0))
  | 0x17 => ifReserved (bits w 15 0 == 0) (.fmov (fieldRd w) (fieldRa w))
  | 0x18 => ifReserved (bits w 23 20 == 0 && bits w 11 0 == 0) (.feq (fieldRa w) (fieldRb w))
  | 0x20 => ifReserved (bits w 19 0 == 0) (.pzero (fieldRd w))
  | 0x21 => ifReserved (bits w 19 0 == 0) (.pone (fieldRd w))
  | 0x22 => .ok (.pmono (fieldRd w) (bits w 19 0))
  | 0x23 => ifReserved (bits w 15 0 == 0) (.pcopy (fieldRd w) (fieldRa w))
  | 0x24 => .ok (.pgetc (fieldRd w) (fieldRa w) (bits w 15 0))
  | 0x25 => .ok (.psetc (fieldRd w) (fieldRa w) (bits w 15 0))
  | 0x26 => ifReserved (bits w 23 20 == 0 && bits w 11 0 == 0) (.peq (fieldRa w) (fieldRb w))
  | 0x30 => ifReserved (bits w 11 0 == 0) (.padd (fieldRd w) (fieldRa w) (fieldRb w))
  | 0x31 => ifReserved (bits w 11 0 == 0) (.psub (fieldRd w) (fieldRa w) (fieldRb w))
  | 0x32 => ifReserved (bits w 15 0 == 0) (.pneg (fieldRd w) (fieldRa w))
  | 0x33 => ifReserved (bits w 11 0 == 0) (.pscale (fieldRd w) (fieldRa w) (fieldRb w))
  | 0x34 => ifReserved (bits w 15 0 == 0) (.preduce (fieldRd w) (fieldRa w))
  | 0x35 => ifReserved (bits w 15 12 == 0 && bits w 5 0 == 0)
      (.psplit (fieldRd w) (fieldRa w) (bits w 11 6))
  | 0x36 => ifReserved (bits w 15 12 == 0)
      (.psplitk (fieldRd w) (fieldRa w) (bits w 11 6) (bits w 5 0))
  | 0x40 => ifReserved (bits w 11 2 == 0)
      (.pmul (fieldRd w) (fieldRa w) (fieldRb w) (fieldStrat w))
  | 0x41 => ifReserved (bits w 11 0 == 0) (.pmulf (fieldRd w) (fieldRa w) (fieldRb w))
  | 0x50 => ifReserved (bits w 15 0 == 0) (.pinv (fieldRd w) (fieldRa w))
  | 0x60 => ifReserved (bits w 19 0 == 0) (.sampu (fieldRd w))
  | 0x61 => ifReserved (bits w 19 0 == 0) (.sampt (fieldRd w))
  | 0x62 => ifReserved (bits w 19 0 == 0) (.sampg (fieldRd w))
  | 0x63 => ifReserved (bits w 19 0 == 0) (.sampb (fieldRd w))
  | 0x70 => ifReserved (bits w 19 0 == 0) (.ykeygen (fieldRd w))
  | 0x71 => ifReserved (bits w 11 0 == 0) (.yenc (fieldRd w) (fieldRa w) (fieldRb w))
  | 0x72 => ifReserved (bits w 11 0 == 0) (.ydec (fieldRd w) (fieldRa w) (fieldRb w))
  | 0x73 => ifReserved (bits w 11 0 == 0) (.ydecm (fieldRd w) (fieldRa w) (fieldRb w))
  | 0x74 => ifReserved (bits w 11 0 == 0) (.yadd (fieldRd w) (fieldRa w) (fieldRb w))
  | 0x75 => ifReserved (bits w 11 2 == 0)
      (.ymul (fieldRd w) (fieldRa w) (fieldRb w) (fieldStrat w))
  | _ => .error .illegalOpcode

/-- A word of format R (R91): the fields rd, ra, rb and fn below the opcode. -/
def formatR (opc rd ra rb fn : Nat) : Word :=
  BitVec.ofNat 32 (opc * 2 ^ 24 + rd * 2 ^ 20 + ra * 2 ^ 16 + rb * 2 ^ 12 + fn)

/-- A word of format I (R92). -/
def formatI (opc rd imm20 : Nat) : Word := BitVec.ofNat 32 (opc * 2 ^ 24 + rd * 2 ^ 20 + imm20)

/-- A word of format X (R93). -/
def formatX (opc rd ra idx16 : Nat) : Word :=
  BitVec.ofNat 32 (opc * 2 ^ 24 + rd * 2 ^ 20 + ra * 2 ^ 16 + idx16)

/-- The value of a `strat` field (R95). -/
def Strat.code : Strat → Nat
  | .dflt => 0
  | .naive => 1
  | .rkara => 2
  | .fkara => 3

/-- The encoder: the word of a well-formed command (R91 to R96); fields that are not written
are 0 (R101). -/
def encode : Instr → Word
  | .nop => formatR 0x00 0 0 0 0
  | .fadd rd ra rb => formatR 0x10 rd ra rb 0
  | .fsub rd ra rb => formatR 0x11 rd ra rb 0
  | .fmul rd ra rb => formatR 0x12 rd ra rb 0
  | .fneg rd ra => formatR 0x13 rd ra 0 0
  | .finv rd ra => formatR 0x14 rd ra 0 0
  | .fdiv rd ra rb => formatR 0x15 rd ra rb 0
  | .fldi rd imm20 => formatI 0x16 rd imm20
  | .fmov rd ra => formatR 0x17 rd ra 0 0
  | .feq ra rb => formatR 0x18 0 ra rb 0
  | .pzero rd => formatR 0x20 rd 0 0 0
  | .pone rd => formatR 0x21 rd 0 0 0
  | .pmono rd imm20 => formatI 0x22 rd imm20
  | .pcopy rd ra => formatR 0x23 rd ra 0 0
  | .pgetc rd ra idx16 => formatX 0x24 rd ra idx16
  | .psetc rd ra idx16 => formatX 0x25 rd ra idx16
  | .peq ra rb => formatR 0x26 0 ra rb 0
  | .padd rd ra rb => formatR 0x30 rd ra rb 0
  | .psub rd ra rb => formatR 0x31 rd ra rb 0
  | .pneg rd ra => formatR 0x32 rd ra 0 0
  | .pscale rd ra rb => formatR 0x33 rd ra rb 0
  | .preduce rd ra => formatR 0x34 rd ra 0 0
  | .psplit rd ra clog => formatR 0x35 rd ra 0 (clog * 2 ^ 6)
  | .psplitk rd ra clog klog => formatR 0x36 rd ra 0 (clog * 2 ^ 6 + klog)
  | .pmul rd ra rb strat => formatR 0x40 rd ra rb strat.code
  | .pmulf rd ra rb => formatR 0x41 rd ra rb 0
  | .pinv rd ra => formatR 0x50 rd ra 0 0
  | .sampu rd => formatR 0x60 rd 0 0 0
  | .sampt rd => formatR 0x61 rd 0 0 0
  | .sampg rd => formatR 0x62 rd 0 0 0
  | .sampb rd => formatR 0x63 rd 0 0 0
  | .ykeygen rd => formatR 0x70 rd 0 0 0
  | .yenc rd ra rb => formatR 0x71 rd ra rb 0
  | .ydec rd ra rb => formatR 0x72 rd ra rb 0
  | .ydecm rd ra rb => formatR 0x73 rd ra rb 0
  | .yadd rd ra rb => formatR 0x74 rd ra rb 0
  | .ymul rd ra rb strat => formatR 0x75 rd ra rb strat.code

/-- R97's reserved bits of an assigned opcode, `none` for an unassigned one (R98). -/
def reservedMask (opc : Nat) : Option Nat :=
  if opc = 0x00 then some 0x00FFFFFF
  else if opc = 0x18 ∨ opc = 0x26 then some 0x00F00FFF
  else if opc ∈ [0x13, 0x14, 0x17, 0x23, 0x32, 0x34, 0x50] then some 0x0000FFFF
  else if opc ∈ [0x20, 0x21, 0x60, 0x61, 0x62, 0x63, 0x70] then some 0x000FFFFF
  else if opc ∈ [0x10, 0x11, 0x12, 0x15, 0x30, 0x31, 0x33, 0x41, 0x71, 0x72, 0x73, 0x74] then
    some 0x00000FFF
  else if opc = 0x35 then some 0x0000F03F
  else if opc = 0x36 then some 0x0000F000
  else if opc = 0x40 ∨ opc = 0x75 then some 0x00000FFC
  else if opc ∈ [0x16, 0x22, 0x24, 0x25] then some 0
  else none

/-- The instruction the decoder reads from a table row's word: every command is one 32-bit word
(R90), whose bits above `nbits` are 0. -/
def decodeTableWord (nbits w : Nat) : Option Instr :=
  match decode (BitVec.ofNat 32 (w % 2 ^ nbits)) with
  | .ok i => some i
  | .error _ => none

/-- Assembly operands (R101): `s0` to `s15`, `p0` to `p15`, decimal immediates. -/
def asmOperands (ops : List String) : String := String.intercalate ", " ops

def asmS (r : SReg) : String := "s" ++ toString r.val

def asmP (r : PReg) : String := "p" ++ toString r.val

/-- R101: the strategy's name, left out for the default. -/
def asmStrat : Strat → List String
  | .dflt => []
  | .naive => ["naive"]
  | .rkara => ["rkara"]
  | .fkara => ["fkara"]

/-- The assembly text of a command (R101): mnemonic, then rd, ra, rb and immediates. -/
def Instr.assembly : Instr → String
  | .nop => "NOP"
  | .fadd rd ra rb => "FADD " ++ asmOperands [asmS rd, asmS ra, asmS rb]
  | .fsub rd ra rb => "FSUB " ++ asmOperands [asmS rd, asmS ra, asmS rb]
  | .fmul rd ra rb => "FMUL " ++ asmOperands [asmS rd, asmS ra, asmS rb]
  | .fneg rd ra => "FNEG " ++ asmOperands [asmS rd, asmS ra]
  | .finv rd ra => "FINV " ++ asmOperands [asmS rd, asmS ra]
  | .fdiv rd ra rb => "FDIV " ++ asmOperands [asmS rd, asmS ra, asmS rb]
  | .fldi rd imm20 => "FLDI " ++ asmOperands [asmS rd, toString imm20]
  | .fmov rd ra => "FMOV " ++ asmOperands [asmS rd, asmS ra]
  | .feq ra rb => "FEQ " ++ asmOperands [asmS ra, asmS rb]
  | .pzero rd => "PZERO " ++ asmP rd
  | .pone rd => "PONE " ++ asmP rd
  | .pmono rd imm20 => "PMONO " ++ asmOperands [asmP rd, toString imm20]
  | .pcopy rd ra => "PCOPY " ++ asmOperands [asmP rd, asmP ra]
  | .pgetc rd ra idx16 => "PGETC " ++ asmOperands [asmS rd, asmP ra, toString idx16]
  | .psetc rd ra idx16 => "PSETC " ++ asmOperands [asmP rd, asmS ra, toString idx16]
  | .peq ra rb => "PEQ " ++ asmOperands [asmP ra, asmP rb]
  | .padd rd ra rb => "PADD " ++ asmOperands [asmP rd, asmP ra, asmP rb]
  | .psub rd ra rb => "PSUB " ++ asmOperands [asmP rd, asmP ra, asmP rb]
  | .pneg rd ra => "PNEG " ++ asmOperands [asmP rd, asmP ra]
  | .pscale rd ra rb => "PSCALE " ++ asmOperands [asmP rd, asmP ra, asmS rb]
  | .preduce rd ra => "PREDUCE " ++ asmOperands [asmP rd, asmP ra]
  | .psplit rd ra clog => "PSPLIT " ++ asmOperands [asmP rd, asmP ra, toString clog]
  | .psplitk rd ra clog klog =>
      "PSPLITK " ++ asmOperands [asmP rd, asmP ra, toString clog, toString klog]
  | .pmul rd ra rb strat =>
      "PMUL " ++ asmOperands ([asmP rd, asmP ra, asmP rb] ++ asmStrat strat)
  | .pmulf rd ra rb => "PMULF " ++ asmOperands [asmP rd, asmP ra, asmP rb]
  | .pinv rd ra => "PINV " ++ asmOperands [asmP rd, asmP ra]
  | .sampu rd => "SAMPU " ++ asmP rd
  | .sampt rd => "SAMPT " ++ asmP rd
  | .sampg rd => "SAMPG " ++ asmP rd
  | .sampb rd => "SAMPB " ++ asmP rd
  | .ykeygen rd => "YKEYGEN " ++ asmP rd
  | .yenc rd ra rb => "YENC " ++ asmOperands [asmP rd, asmP ra, asmP rb]
  | .ydec rd ra rb => "YDEC " ++ asmOperands [asmP rd, asmP ra, asmP rb]
  | .ydecm rd ra rb => "YDECM " ++ asmOperands [asmP rd, asmP ra, asmP rb]
  | .yadd rd ra rb => "YADD " ++ asmOperands [asmP rd, asmP ra, asmP rb]
  | .ymul rd ra rb strat =>
      "YMUL " ++ asmOperands ([asmP rd, asmP ra, asmP rb] ++ asmStrat strat)

/-- The pseudo-commands of R102: each one assembles to exactly one command. -/
def pseudoFclr (sd : SReg) : Instr := .fldi sd 0
def pseudoFone (sd : SReg) : Instr := .fldi sd 1
def pseudoPmuln (pd pa pb : PReg) : Instr := .pmul pd pa pb .naive
def pseudoPmulrk (pd pa pb : PReg) : Instr := .pmul pd pa pb .rkara
def pseudoPmulfk (pd pa pb : PReg) : Instr := .pmul pd pa pb .fkara
def pseudoPsqr (pd pa : PReg) : Instr := .pmul pd pa pa .dflt
def pseudoPmov (pd pa : PReg) : Instr := .pcopy pd pa
def pseudoCadd (pd pa pb : PReg) : Instr := .yadd pd pa pb
def pseudoCmul (pd pa pb : PReg) : Instr := .ymul pd pa pb .dflt

end Sys2Proof
end

