-- ==== Sys2Proof/Config.lean ====
section
/-! DEFINITION. The parameters PRE is built with (00_scope.md R2), the two example
configurations (R4), and the values the spec leaves free. -/

namespace Sys2Proof

/-- The configuration parameters of 00_scope.md R2. A PRE instance has one configuration and
no step changes it (R3); the model carries it in the state, so that a claim about every state
is a claim about every configuration (log entry 1). `N` is given by its exponent: R2 makes it
a power of two. `CAP`, `QBITS`, `NPREG` and `NSREG` are derived in Machine/Params.lean. -/
structure Config where
  /-- the exponent of the ring degree: `N = 2^logN` -/
  logN : Nat
  /-- the coefficient modulus -/
  q : Nat
  /-- the plaintext modulus -/
  t : Nat
  /-- DELTA, the standard deviation of the Gaussian sampler; no result depends on it -/
  delta : Rat
  /-- GAUSS_TAIL, the largest magnitude of a Gaussian draw -/
  gaussTail : Nat
  /-- KMIN, the Karatsuba minimum-degree threshold -/
  kmin : Nat
  /-- FLATK, the depth of the flat Karatsuba strategy -/
  flatk : Nat
  /-- COEF_BYTES, the bytes of a coefficient slot on the host bus -/
  coefBytes : Nat
  /-- PRE_BASE, the platform's base address; every address of the rules is an offset from it -/
  preBase : Nat
  deriving DecidableEq, Repr

/-- EX17 of 00_scope.md R4. DELTA and PRE_BASE are not fixed by R4: 1 and 0 here
(DESIGN CHOICE, log entry 1). -/
def Config.ex17 : Config :=
  { logN := 3, q := 17, t := 2, delta := 1, gaussTail := 1, kmin := 2, flatk := 2,
    coefBytes := 4, preBase := 0 }

/-- EXY of 00_scope.md R4: EX17 with `q = 12289`. -/
def Config.exy : Config := { Config.ex17 with q := 12289 }

/-- FREE VALUE (log entry 3): the entropy oracle's answer to draw number `n`, where the
oracle's pending answers give none (44_sampling.md R250). -/
opaque Config.freeDraw : Nat → Int

/-- FREE VALUE (log entry 2): what the 32-bit CFG register at offset `off` reads when its
parameter has a value `v` that needs more than 32 bits (10_state.md R31 is silent). -/
opaque Config.freeCfgWord : (off v : Nat) → Word

end Sys2Proof
end

