-- ==== Sys2Proof/Machine/State.lean ====
section
/-! DEFINITION. PRE's state (10_state.md), the reasons a step of the model can stop, and reset
(70_reset_and_hazards.md R341). -/

namespace Sys2Proof.Machine

/-- The noise tags (10_state.md R24). -/
inductive Tag where
  | plain
  | ct1
  | ct2
  | over
  deriving DecidableEq, Repr

/-- The multiplication strategies, as CTRL.MULSTRAT holds them (10_state.md R29). -/
inductive MulStrat where
  | naive
  | rkara
  | fkara
  deriving DecidableEq, Repr

/-- The error codes of 60_exceptions.md R301; the codes 10 to 15 are never produced. -/
inductive ErrCode where
  /-- 0 NONE -/
  | noError
  /-- 1 ILLEGAL_OPCODE -/
  | illegalOpcode
  /-- 2 ILLEGAL_FIELD -/
  | illegalField
  /-- 3 REG_RANGE -/
  | regRange
  /-- 4 OPERAND_RANGE -/
  | operandRange
  /-- 5 CAPACITY -/
  | capacity
  /-- 6 ZERO_DIVISOR -/
  | zeroDivisor
  /-- 7 ZERO_POLYNOMIAL -/
  | zeroPolynomial
  /-- 8 NON_INVERTIBLE -/
  | nonInvertible
  /-- 9 ABORTED -/
  | aborted
  deriving DecidableEq, Repr

/-- What can happen next (60_exceptions.md R313): a host access (20_memory.md R60), the reset
input (70_reset_and_hazards.md R340), or a unit step. Bus data is a list of bytes, the byte at
the lowest address first (R62), so the access size is its length. -/
inductive Event where
  /-- `MemRead(addr, n)` -/
  | read (addr : BitVec 32) (n : Nat)
  /-- `MemWrite(addr, n, v)`, `v` given by its `n` bytes -/
  | write (addr : BitVec 32) (data : List Byte)
  /-- the reset input is asserted -/
  | reset
  /-- one unit step, if BUSY = 1 -/
  | unitStep
  deriving DecidableEq, Repr

/-- The bus response of one host access (20_memory.md R64): an error mark and the read data
(none for a write). -/
structure Response where
  error : Bool
  data : List Byte
  deriving DecidableEq, Repr

/-- The entropy oracle (10_state.md R39): the answers it is about to give, oldest first, and how
many draws have been made. Beyond the pending answers each draw is the free value
`Config.freeDraw` of its number (log entry 3). -/
structure Oracle where
  pending : List Int
  count : Nat
  deriving DecidableEq, Repr

/-- The state of PRE. The last three fields and `cfg` are the model's own: the instance's
parameters, the oracle, the host's coming actions, the last bus response. -/
@[ext]
structure State where
  /-- the parameters PRE is built with (00_scope.md R2); no step changes them -/
  cfg : Config
  /-- `P[0..15]` (10_state.md R21) -/
  p : Vector Poly 16
  /-- `S[0..15]` (R23) -/
  sc : Vector Nat 16
  /-- `TAG[0..15]` (R24) -/
  tag : Vector Tag 16
  /-- CTRL.IE (R29) -/
  ie : Bool
  /-- CTRL.MULSTRAT (R29) -/
  mulstrat : MulStrat
  /-- STATUS.BUSY (R32) -/
  busy : Bool
  /-- STATUS.DONE (R32) -/
  done : Bool
  /-- STATUS.ERR (R32) -/
  err : ErrCode
  /-- STATUS.EQ (R26) -/
  eq : Bool
  /-- STATUS.NOISEW (R32) -/
  noisew : Bool
  /-- STATUS.DEPTHX (R32) -/
  depthx : Bool
  /-- STATUS.CMDOVR (R32) -/
  cmdovr : Bool
  /-- STATUS.HOSTERR (R32) -/
  hosterr : Bool
  /-- CMDREG, the last accepted word (R33, R38) -/
  cmdreg : Word
  /-- ERRCMD (R34) -/
  errcmd : Word
  /-- KGTRIES (R35) -/
  kgtries : Word
  /-- CURCMD, hidden (R38) -/
  curcmd : Word
  /-- CURSTRAT, hidden (R38) -/
  curstrat : MulStrat
  /-- ABREQ, hidden (R38) -/
  abreq : Bool
  /-- KGCOUNT, hidden (R38) -/
  kgcount : Word
  /-- the model's own: the entropy oracle, which is not state of PRE (R39) -/
  oracle : Oracle
  /-- the model's own: what the host does and when unit steps happen, next first -/
  inputs : List Event
  /-- the model's own: the response to the last host access -/
  response : Option Response
  deriving DecidableEq, Repr

/-- Why a step could stop with a fault: no reason. Every command ends in a completion
(60_exceptions.md R300) and every bad host access in an error response (20_memory.md R64), both
next states; so this closed type has no constructor. -/
inductive Fault where
  deriving DecidableEq, Repr

/-- Why a step could be refused. -/
inductive Refusal where
  /-- an instruction without a meaning, raised by `exec` alone; safe. No arm of `exec` raises
  it: every command has its meaning -/
  | notModelled (mnemonic : String)
  deriving DecidableEq, Repr

/-- The reset values of 70_reset_and_hazards.md R341, in a PRE instance with configuration `c`.
The model's own fields hold nothing: no pending draw, no coming input, no response. -/
def State.resetWith (c : Config) : State :=
  { cfg := c
    p := Vector.replicate 16 []
    sc := Vector.replicate 16 0
    tag := Vector.replicate 16 .plain
    ie := false
    mulstrat := .naive
    busy := false
    done := false
    err := .noError
    eq := false
    noisew := false
    depthx := false
    cmdovr := false
    hosterr := false
    cmdreg := 0
    errcmd := 0
    kgtries := 0
    curcmd := 0
    curstrat := .naive
    abreq := false
    kgcount := 0
    oracle := ⟨[], 0⟩
    inputs := []
    response := none }

/-- The machine right after reset, in the example configuration EX17 (log entry 1). -/
def State.reset : State := State.resetWith Config.ex17

end Sys2Proof.Machine
end

