-- ==== Sys2Proof/Machine/Flags.lean ====
section
/-! DEFINITION. Flags, tags and the words CTRL and STATUS show (10_state.md R24, R29, R32;
45_yashe.md R280 to R283; 60_exceptions.md R301, R309). -/

namespace Sys2Proof.Machine

/-- The number of an error code (60_exceptions.md R301). -/
def ErrCode.code : ErrCode → Nat
  | .noError => 0
  | .illegalOpcode => 1
  | .illegalField => 2
  | .regRange => 3
  | .operandRange => 4
  | .capacity => 5
  | .zeroDivisor => 6
  | .zeroPolynomial => 7
  | .nonInvertible => 8
  | .aborted => 9

/-- The value of a tag (10_state.md R24). -/
def Tag.code : Tag → Nat
  | .plain => 0
  | .ct1 => 1
  | .ct2 => 2
  | .over => 3

/-- The tag of a 2-bit value (R37). -/
def Tag.ofCode (v : Nat) : Tag :=
  match v % 4 with
  | 0 => .plain
  | 1 => .ct1
  | 2 => .ct2
  | _ => .over

/-- `tagadd` (45_yashe.md R281). -/
def tagAdd : Tag → Tag → Tag
  | .plain, b => b
  | a, .plain => a
  | .ct1, .ct1 => .ct1
  | .ct2, .ct2 => .ct2
  | _, _ => .over

/-- `tagmul` (45_yashe.md R282). -/
def tagMul : Tag → Tag → Tag
  | .plain, b => b
  | a, .plain => a
  | .ct1, .ct1 => .ct2
  | _, _ => .over

/-- The value of MULSTRAT (10_state.md R29). -/
def MulStrat.code : MulStrat → Nat
  | .naive => 0
  | .rkara => 1
  | .fkara => 2

/-- A write of `v` to MULSTRAT, WARL: 3 leaves the field as it was (R29). -/
def MulStrat.write (old : MulStrat) (v : Nat) : MulStrat :=
  match v with
  | 0 => .naive
  | 1 => .rkara
  | 2 => .fkara
  | _ => old

/-- What a read of CTRL shows: ABORT and the reserved bits read 0 (R29). -/
def State.ctrlWord (s : State) : Word :=
  BitVec.ofNat 32 (s.ie.toNat + s.mulstrat.code * 2)

/-- What a read of STATUS shows (R32). -/
def State.statusWord (s : State) : Word :=
  BitVec.ofNat 32 (s.busy.toNat + s.done.toNat * 2 + s.err.code * 2 ^ 4 + s.eq.toNat * 2 ^ 8 +
    s.noisew.toNat * 2 ^ 9 + s.depthx.toNat * 2 ^ 10 + s.cmdovr.toNat * 2 ^ 11 +
    s.hosterr.toNat * 2 ^ 12)

/-- The IRQ output (60_exceptions.md R309). -/
def State.irq (s : State) : Bool := s.ie && s.done

/-- FEQ and PEQ write the condition flag (10_state.md R26). -/
def State.setEq (s : State) (b : Bool) : State := { s with eq := b }

/-- NOISEW is sticky: set when `b`, else kept (45_yashe.md R283). -/
def State.raiseNoisew (s : State) (b : Bool) : State := { s with noisew := s.noisew || b }

/-- DEPTHX is sticky: set when a result's tag is OVER (45_yashe.md R283). -/
def State.raiseDepthx (s : State) (g : Tag) : State := { s with depthx := s.depthx || g == .over }

end Sys2Proof.Machine
end

