-- ==== Sys2Proof/Machine/Ops.lean ====
section
/-! DEFINITION. The named operations over the registers, and the life of a command: acceptance
(10_state.md R33), completion with or without an error (60_exceptions.md R304), and the order in
which a unit step checks (R313). PRE takes no trap and returns from none (R311): completing with
a nonzero code is what an exception is here. -/

namespace Sys2Proof.Machine

/-- `P[r]` (00_scope.md R8). -/
def State.getP (s : State) (r : PReg) : Poly := s.p[r]

/-- `TAG[r]`. -/
def State.getTag (s : State) (r : PReg) : Tag := s.tag[r]

/-- `S[r]`. -/
def State.getS (s : State) (r : SReg) : Nat := s.sc[r]

/-- `P[r] <- v`. -/
def State.setP (s : State) (r : PReg) (v : Poly) : State := { s with p := s.p.set r v }

/-- `TAG[r] <- g`. -/
def State.setTag (s : State) (r : PReg) (g : Tag) : State := { s with tag := s.tag.set r g }

/-- `S[r] <- v`. -/
def State.setS (s : State) (r : SReg) (v : Nat) : State := { s with sc := s.sc.set r v }

/-- `P[r] <- v; TAG[r] <- g`. -/
def State.setPT (s : State) (r : PReg) (v : Poly) (g : Tag) : State := (s.setP r v).setTag r g

/-- `P[base], P[base+1], ... <- vs`, each with tag PLAIN (41_poly_ring.md R162, R163,
45_yashe.md R271). -/
def State.setGroup (s : State) (base : Nat) : List Poly → State
  | [] => s
  | v :: vs => (s.setPT (Fin.ofNat 16 base) v .plain).setGroup (base + 1) vs

/-- The oracle after a command's draws. -/
def State.withOracle (s : State) (o : Oracle) : State := { s with oracle := o }

/-- Acceptance of a command word (10_state.md R33). -/
def State.accept (s : State) (w : Word) : State :=
  { s with
    cmdreg := w
    curcmd := w
    curstrat := s.mulstrat
    abreq := false
    kgcount := 0
    err := .noError
    done := false
    busy := true }

/-- The completion record `complete(e)` (60_exceptions.md R304): this is how PRE takes an
error. -/
def State.complete (s : State) (e : ErrCode) : State :=
  { s with
    err := e
    errcmd := if e = .noError then s.errcmd else s.curcmd
    busy := false
    done := true }

/-- The unit step of every command but YKEYGEN after its word is decoded (60_exceptions.md R313,
30_encoding.md R100): `check` is the outcome of the range checks (steps 3 and 4), `result` what
the command's rule does (step 5): an error, or the state with every destination written. -/
def State.runCommand (s : State) (check : Option ErrCode) (result : Except ErrCode State) : State :=
  match check with
  | some e => s.complete e
  | none =>
    if s.abreq then s.complete .aborted
    else
      match result with
      | .error e => s.complete e
      | .ok t => t.complete .noError

/-- `min(v + 1, 0xFFFFFFFF)`, KGCOUNT's saturating count (45_yashe.md R271). -/
def satInc (v : Word) : Word := if v = 0xFFFFFFFF then v else v + 1

end Sys2Proof.Machine
end

