-- ==== Sys2Proof/Machine/Params.lean ====
section
/-! DEFINITION. The derived parameters of 00_scope.md R2 and the constraints on the others. -/

namespace Sys2Proof

/-- `N`, the ring degree. -/
def Config.n (c : Config) : Nat := 2 ^ c.logN

/-- `CAP = 2N`, the capacity of a polynomial register. -/
def Config.cap (c : Config) : Nat := 2 * c.n

/-- `QBITS`, the bit length of `q`. -/
def Config.qbits (c : Config) : Nat := Nat.log2 c.q + 1

/-- `NPREG`. -/
def Config.npreg : Nat := 16

/-- `NSREG`. -/
def Config.nsreg : Nat := 16

/-- The constraints of 00_scope.md R2 (and, for PRE_BASE, of 92_eei_decisions.md). -/
abbrev Config.Valid (c : Config) : Prop :=
  (1 ≤ c.logN ∧ c.logN ≤ 15) ∧
  (Nat.Prime c.q ∧ c.q % 2 = 1) ∧
  (2 ≤ c.t ∧ c.t < c.q ∧ c.t < 2 ^ 32) ∧
  0 < c.delta ∧
  (1 ≤ c.gaussTail ∧ c.gaussTail ≤ (c.q - 1) / 2) ∧
  1 ≤ c.kmin ∧
  c.flatk ≤ c.logN ∧
  (c.coefBytes = 4 ∨ c.coefBytes = 8 ∨ c.coefBytes = 16) ∧
  c.qbits + 1 ≤ 8 * c.coefBytes ∧
  c.preBase % 2 ^ 26 = 0

end Sys2Proof
end

