-- ==== Sys2Proof/Machine/Field.lean ====
section
/-! DEFINITION. The arithmetic of `Z_q` (40_field.md, 00_scope.md R5, R6, R9) on residues in
`[0, q)`. -/

namespace Sys2Proof.Machine

/-- Field addition (R120). -/
def fieldAdd (q a b : Nat) : Nat := (a + b) % q

/-- Field subtraction with the Euclidean remainder of R5 (R121). -/
def fieldSub (q a b : Nat) : Nat := (((a : Int) - (b : Int)) % (q : Int)).toNat

/-- Field multiplication, reduced after the exact product (R122). -/
def fieldMul (q a b : Nat) : Nat := a * b % q

/-- Field negation (R123). -/
def fieldNeg (q a : Nat) : Nat := ((-(a : Int)) % (q : Int)).toNat

/-- `acc * b ^ e mod q` by squaring, for `e < 2 ^ fuel`. -/
def powModLoop (q : Nat) : (fuel b e acc : Nat) → Nat
  | 0, _, _, acc => acc
  | fuel + 1, b, e, acc =>
    powModLoop q fuel (b * b % q) (e / 2) (if e % 2 = 1 then acc * b % q else acc)

/-- The inverse of a nonzero residue modulo the prime `q` (R124: by any method; here
`a ^ (q - 2)`). -/
def fieldInv (q a : Nat) : Nat := powModLoop q (Nat.log2 q + 1) (a % q) (q - 2) 1

/-- Field division by a nonzero residue (R125). -/
def fieldDiv (q a b : Nat) : Nat := fieldMul q a (fieldInv q b)

/-- The signed representative of a residue (00_scope.md R8, R9). -/
def center (q x : Nat) : Int := if 2 * x ≤ q then (x : Int) else (x : Int) - (q : Int)

/-- The residue of a signed number (R9: the inverse of `center` on its range). -/
def residue (q : Nat) (v : Int) : Nat := (v % (q : Int)).toNat

end Sys2Proof.Machine
end

