-- ==== Sys2Proof/Machine/Ring.lean ====
section
/-! DEFINITION. The polynomial primitives of 00_scope.md R8, over the modulus `q` and the ring
degree `n`. -/

namespace Sys2Proof.Machine

/-- `a[i]`, which reads as 0 past the stored length (R7). -/
def coef (a : Poly) (i : Nat) : Nat := a.getD i 0

/-- `deg(a)`, with `deg(0) = -1` (R7). -/
def deg (a : Poly) : Int := (a.length : Int) - 1

/-- `canon(v)`: drop trailing zero coefficients. -/
def canon : List Nat → Poly
  | [] => []
  | x :: xs =>
    match canon xs with
    | [] => if x = 0 then [] else [x]
    | y :: ys => x :: y :: ys

/-- A register's value is in canonical form (R7). -/
def isCanon (a : Poly) : Bool := a.getLast? != some 0

/-- `[f(0), ..., f(len-1)]` in canonical form. -/
def build (len : Nat) (f : Nat → Nat) : Poly := canon ((List.range len).map f)

/-- `padd(a, b)`. -/
def padd (q : Nat) (a b : Poly) : Poly :=
  build (max a.length b.length) fun i => fieldAdd q (coef a i) (coef b i)

/-- `psub(a, b)`. -/
def psub (q : Nat) (a b : Poly) : Poly :=
  build (max a.length b.length) fun i => fieldSub q (coef a i) (coef b i)

/-- `pneg(a)`. -/
def pneg (q : Nat) (a : Poly) : Poly := build a.length fun i => fieldNeg q (coef a i)

/-- `pscale(a, c)`. -/
def pscale (q : Nat) (a : Poly) (c : Nat) : Poly :=
  build a.length fun i => fieldMul q (coef a i) c

/-- `shift(a, k)`: multiply by `X^k`, no reduction. -/
def shift (a : Poly) (k : Nat) : Poly := canon (List.replicate k 0 ++ a)

/-- `mono(k)`: the monomial `X^k`. -/
def mono (k : Nat) : Poly := canon (List.replicate k 0 ++ [1])

/-- `full(a, b)`: the exact product. -/
def full (q : Nat) (a b : Poly) : Poly :=
  if a.length = 0 ∨ b.length = 0 then []
  else build (a.length + b.length - 1) fun k =>
    ((List.range (k + 1)).map fun i => coef a i * coef b (k - i)).sum % q

/-- The term of `reduce` that the coefficient at index `i` folds to: negated where `i div n` is
odd. -/
def foldTerm (n : Nat) (a : Poly) (i : Nat) : Int :=
  if i / n % 2 = 0 then (coef a i : Int) else -(coef a i : Int)

/-- `reduce(a)`: the fold modulo `X^n + 1`. -/
def reduce (q n : Nat) (a : Poly) : Poly :=
  build n fun j =>
    residue q (((List.range a.length).filter fun i => i % n = j).map (foldTerm n a)).sum

/-- `ringmul(a, b)`. -/
def ringmul (q n : Nat) (a b : Poly) : Poly := reduce q n (full q (reduce q n a) (reduce q n b))

/-- The coefficients `start` to `start + len - 1` as a polynomial of their own
(41_poly_ring.md R162, R163). -/
def piece (a : Poly) (start len : Nat) : Poly := build len fun i => coef a (start + i)

/-- `a` padded with zeros to `cap` entries with entry `i` replaced, in canonical form
(20_memory.md R66, 41_poly_ring.md R155). -/
def setCoef (cap : Nat) (a : Poly) (i v : Nat) : Poly :=
  canon ((a ++ List.replicate (cap - a.length) 0).set i v)

end Sys2Proof.Machine
end

