-- ==== Sys2Proof/Machine/Operands.lean ====
section
/-! DEFINITION. The range checks of the operands (30_encoding.md R100 steps 3 and 4) and the
values of the host's views (20_memory.md R62, R65 to R70). -/

namespace Sys2Proof.Machine

/-- PMONO, PGETC and PSETC: an exponent or index below CAP, else OPERAND_RANGE
(41_poly_ring.md R152, R154, R155). -/
def checkIndex (c : Config) (i : Nat) : Option ErrCode :=
  if c.cap ≤ i then some .operandRange else none

/-- PSPLIT's checks, in the order of its pseudocode (41_poly_ring.md R162). -/
def checkSplit (c : Config) (rd : PReg) (clog : Nat) (a : Poly) : Option ErrCode :=
  if 14 < rd.val then some .regRange
  else if clog = 0 ∨ c.cap < 2 ^ clog then some .operandRange
  else if (2 ^ clog : Int) ≤ deg a then some .operandRange
  else none

/-- PSPLITK's checks, in the order of its pseudocode (41_poly_ring.md R163). -/
def checkSplitK (c : Config) (rd : PReg) (clog klog : Nat) (a : Poly) : Option ErrCode :=
  if 15 < rd.val + 2 ^ klog - 1 then some .regRange
  else if c.cap < 2 ^ clog ∨ clog < klog then some .operandRange
  else if (2 ^ clog : Int) ≤ deg a then some .operandRange
  else none

/-- YKEYGEN's group of five (45_yashe.md R271). -/
def checkKeyGroup (rd : PReg) : Option ErrCode := if 11 < rd.val then some .regRange else none

/-- The `n` little-endian bytes of a value (20_memory.md R62). -/
def leBytes : (n v : Nat) → List Byte
  | 0, _ => []
  | n + 1, v => BitVec.ofNat 8 v :: leBytes n (v / 256)

/-- The unsigned value of little-endian bytes (R62). -/
def leValue : List Byte → Nat
  | [] => 0
  | b :: bs => b.toNat + 256 * leValue bs

/-- The two's-complement value of little-endian bytes (R68). -/
def leSigned (bs : List Byte) : Int :=
  let v := leValue bs
  if 2 * v < 256 ^ bs.length then (v : Int) else (v : Int) - (256 ^ bs.length : Nat)

/-- The bytes a view shows for a residue: zero-extended in the unsigned view (R65, R69), the
two's complement of `center` in the signed one (R67, R70). -/
def viewBytes (c : Config) (signed : Bool) (x : Nat) : List Byte :=
  if signed then leBytes c.coefBytes (center c.q x % (256 ^ c.coefBytes : Nat)).toNat
  else leBytes c.coefBytes x

/-- The residue a host write stores, or `none` where the view refuses the value (R66, R68, R69,
R70). -/
def viewValue (c : Config) (signed : Bool) (bs : List Byte) : Option Nat :=
  if signed then
    let v := leSigned bs
    if v < -(((c.q : Int) - 1) / 2) ∨ ((c.q : Int) - 1) / 2 < v then none else some (residue c.q v)
  else
    let v := leValue bs
    if c.q ≤ v then none else some v

end Sys2Proof.Machine
end

