-- ==== Sys2Proof/Machine/Bus.lean ====
section
/-! DEFINITION. The host bus (20_memory.md R60 to R79, 10_state.md R28 to R37): which register an
access names, what a read answers and what a write does. -/

namespace Sys2Proof.Machine

/-- The control, status and configuration registers (10_state.md R28). -/
inductive Csr where
  | id
  | version
  | ctrl
  | status
  | cmd
  | errcmd
  | kgtries
  | cfgN
  | cfgT
  | cfgQbits
  | cfgCoefBytes
  | cfgKmin
  | cfgFlatk
  | cfgGaussTail
  | cfgNpreg
  | cfgNsreg
  | plen (p : PReg)
  | ptag (p : PReg)
  deriving DecidableEq, Repr

/-- What a mapped access names (20_memory.md R61). The Bool says whether it is the signed
view. -/
inductive Target where
  | csr (r : Csr)
  | cfgQ
  | scalar (signed : Bool) (r : SReg)
  | coeff (signed : Bool) (p : PReg) (i : Nat)
  deriving DecidableEq, Repr

/-- The register at an offset below 0x800 (10_state.md R28). -/
def csrAt (off : Nat) : Option Csr :=
  if 0x100 ≤ off ∧ off < 0x140 then some (.plen (Fin.ofNat 16 ((off - 0x100) / 4)))
  else if 0x140 ≤ off ∧ off < 0x180 then some (.ptag (Fin.ofNat 16 ((off - 0x140) / 4)))
  else
    match off with
    | 0x000 => some .id
    | 0x004 => some .version
    | 0x008 => some .ctrl
    | 0x00C => some .status
    | 0x010 => some .cmd
    | 0x014 => some .errcmd
    | 0x018 => some .kgtries
    | 0x040 => some .cfgN
    | 0x044 => some .cfgT
    | 0x048 => some .cfgQbits
    | 0x04C => some .cfgCoefBytes
    | 0x050 => some .cfgKmin
    | 0x054 => some .cfgFlatk
    | 0x058 => some .cfgGaussTail
    | 0x05C => some .cfgNpreg
    | 0x060 => some .cfgNsreg
    | _ => none

/-- The coefficient an offset from a coefficient window's start names, if its index is below
CAP (R61). -/
def coeffAt (c : Config) (signed : Bool) (off : Nat) : Option Target :=
  let i := off % 2 ^ 20 / c.coefBytes
  if i < c.cap then some (.coeff signed (Fin.ofNat 16 (off / 2 ^ 20)) i) else none

/-- The register or coefficient that an access of `n` bytes at `addr` names; `none` for an
unmapped address, a wrong size or a misaligned access (R61, R63). -/
def targetOf (c : Config) (addr n : Nat) : Option Target :=
  if addr < 0x800 then
    if n = 4 ∧ addr % 4 = 0 then (csrAt addr).map .csr else none
  else if n ≠ c.coefBytes ∨ addr % c.coefBytes ≠ 0 then none
  else if addr = 0x800 then some .cfgQ
  else if 0x1000 ≤ addr ∧ addr < 0x1000 + 16 * c.coefBytes then
    some (.scalar false (Fin.ofNat 16 ((addr - 0x1000) / c.coefBytes)))
  else if 0x1800 ≤ addr ∧ addr < 0x1800 + 16 * c.coefBytes then
    some (.scalar true (Fin.ofNat 16 ((addr - 0x1800) / c.coefBytes)))
  else if 0x01000000 ≤ addr ∧ addr < 0x02000000 then coeffAt c false (addr - 0x01000000)
  else if 0x02000000 ≤ addr ∧ addr < 0x03000000 then coeffAt c true (addr - 0x02000000)
  else none

/-- The registers that are refused while BUSY = 1 (R71). -/
def Target.isData : Target → Bool
  | .csr (.plen _) => true
  | .csr (.ptag _) => true
  | .csr _ => false
  | .cfgQ => false
  | .scalar _ _ => true
  | .coeff _ _ _ => true

/-- A parameter as a 32-bit CFG register shows it (10_state.md R31). What a parameter of more
than 32 bits shows is free (log entry 2). -/
def cfgWord (off v : Nat) : Word :=
  if v < 2 ^ 32 then BitVec.ofNat 32 v else Config.freeCfgWord off v

/-- What a read of a 32-bit register shows (10_state.md R28 to R37). -/
def State.csrWord (s : State) : Csr → Word
  | .id => 0x45594C44
  | .version => 1
  | .ctrl => s.ctrlWord
  | .status => s.statusWord
  | .cmd => s.cmdreg
  | .errcmd => s.errcmd
  | .kgtries => s.kgtries
  | .cfgN => cfgWord 0x040 s.cfg.n
  | .cfgT => cfgWord 0x044 s.cfg.t
  | .cfgQbits => cfgWord 0x048 s.cfg.qbits
  | .cfgCoefBytes => cfgWord 0x04C s.cfg.coefBytes
  | .cfgKmin => cfgWord 0x050 s.cfg.kmin
  | .cfgFlatk => cfgWord 0x054 s.cfg.flatk
  | .cfgGaussTail => cfgWord 0x058 s.cfg.gaussTail
  | .cfgNpreg => cfgWord 0x05C Config.npreg
  | .cfgNsreg => cfgWord 0x060 Config.nsreg
  | .plen p => BitVec.ofNat 32 (s.getP p).length
  | .ptag p => BitVec.ofNat 32 (s.getTag p).code

/-- The bytes a read of a mapped register answers (20_memory.md R62, R65, R67, R69, R70). -/
def State.targetBytes (s : State) : Target → List Byte
  | .csr r => leBytes 4 (s.csrWord r).toNat
  | .cfgQ => leBytes s.cfg.coefBytes s.cfg.q
  | .scalar signed r => viewBytes s.cfg signed (s.getS r)
  | .coeff signed p i => viewBytes s.cfg signed (coef (s.getP p) i)

/-- A write to CTRL (10_state.md R29, 60_exceptions.md R312). -/
def State.writeCtrl (s : State) (v : Word) : State :=
  { s with
    ie := bits v 0 0 == 1
    mulstrat := s.mulstrat.write (bits v 2 1)
    abreq := s.abreq || (s.busy && bits v 3 3 == 1) }

/-- A write to STATUS clears the W1C bits written as 1 (10_state.md R32). -/
def State.writeStatus (s : State) (v : Word) : State :=
  { s with
    done := s.done && bits v 1 1 == 0
    noisew := s.noisew && bits v 9 9 == 0
    depthx := s.depthx && bits v 10 10 == 0
    cmdovr := s.cmdovr && bits v 11 11 == 0
    hosterr := s.hosterr && bits v 12 12 == 0 }

/-- A write to CMD: accepted while idle, an overrun while busy (10_state.md R33,
60_exceptions.md R307). -/
def State.writeCmd (s : State) (w : Word) : State :=
  if s.busy then { s with cmdovr := true } else s.accept w

/-- A write to a 32-bit register; read-only ones ignore it (20_memory.md R72). -/
def State.writeCsr (s : State) (r : Csr) (v : Word) : State :=
  match r with
  | .ctrl => s.writeCtrl v
  | .status => s.writeStatus v
  | .cmd => s.writeCmd v
  | .ptag p => s.setTag p (Tag.ofCode (bits v 1 0))
  | .id | .version | .errcmd | .kgtries | .cfgN | .cfgT | .cfgQbits | .cfgCoefBytes | .cfgKmin
  | .cfgFlatk | .cfgGaussTail | .cfgNpreg | .cfgNsreg | .plen _ => s

/-- What a write to a mapped register does, or `none` where its value is refused (20_memory.md
R66, R68, R69, R70, R72). -/
def State.writeTarget (s : State) (tgt : Target) (bs : List Byte) : Option State :=
  match tgt with
  | .csr r => some (s.writeCsr r (BitVec.ofNat 32 (leValue bs)))
  | .cfgQ => some s
  | .scalar signed r => (viewValue s.cfg signed bs).map (s.setS r)
  | .coeff signed p i =>
    (viewValue s.cfg signed bs).map fun v => s.setP p (setCoef s.cfg.cap (s.getP p) i v)

/-- The target of an access that is not refused for its address, size or BUSY (R64, R71). -/
def State.reach (s : State) (addr : BitVec 32) (n : Nat) : Option Target :=
  match targetOf s.cfg addr.toNat n with
  | none => none
  | some tgt => if s.busy && tgt.isData then none else some tgt

/-- An error response (R64): HOSTERR, and zero data for a read. -/
def State.busError (s : State) (data : List Byte) : State :=
  { s with hosterr := true, response := some ⟨true, data⟩ }

/-- `MemRead(addr, n)`. -/
def State.busRead (s : State) (addr : BitVec 32) (n : Nat) : State :=
  match s.reach addr n with
  | none => s.busError (List.replicate n 0)
  | some tgt => { s with response := some ⟨false, s.targetBytes tgt⟩ }

/-- `MemWrite(addr, n, v)`, `v` as its bytes. -/
def State.busWrite (s : State) (addr : BitVec 32) (bs : List Byte) : State :=
  match s.reach addr bs.length with
  | none => s.busError []
  | some tgt =>
    match s.writeTarget tgt bs with
    | none => s.busError []
    | some t => { t with response := some ⟨false, []⟩ }

/-- The reset input (70_reset_and_hazards.md R340): every state element takes its reset value;
the configuration, the oracle and the host's coming actions are not state of PRE. -/
def State.resetInput (s : State) : State :=
  { State.resetWith s.cfg with oracle := s.oracle, inputs := s.inputs }

end Sys2Proof.Machine
end

