-- ==== Sys2Proof/Machine/Control.lean ====
section
/-! DEFINITION. The control command (46_control.md R290). -/

namespace Sys2Proof.Machine

/-- NOP (R290): only the completion. -/
def execNop (s : State) : Host.Outcome State Fault Refusal :=
  .next (s.runCommand none (.ok s))

end Sys2Proof.Machine
end

