-- ==== Sys2Proof/Machine/FieldUnit.lean ====
section
/-! DEFINITION. The field unit commands (40_field.md R120 to R128). -/

namespace Sys2Proof.Machine

/-- A field command whose result is one scalar: `S[rd] <- v`. -/
def State.scalarResult (s : State) (rd : SReg) (v : Nat) :
    Host.Outcome State Fault Refusal :=
  .next (s.runCommand none (.ok (s.setS rd v)))

/-- FADD (R120). -/
def execFadd (rd ra rb : SReg) (s : State) : Host.Outcome State Fault Refusal :=
  s.scalarResult rd (fieldAdd s.cfg.q (s.getS ra) (s.getS rb))

/-- FSUB (R121). -/
def execFsub (rd ra rb : SReg) (s : State) : Host.Outcome State Fault Refusal :=
  s.scalarResult rd (fieldSub s.cfg.q (s.getS ra) (s.getS rb))

/-- FMUL (R122). -/
def execFmul (rd ra rb : SReg) (s : State) : Host.Outcome State Fault Refusal :=
  s.scalarResult rd (fieldMul s.cfg.q (s.getS ra) (s.getS rb))

/-- FNEG (R123). -/
def execFneg (rd ra : SReg) (s : State) : Host.Outcome State Fault Refusal :=
  s.scalarResult rd (fieldNeg s.cfg.q (s.getS ra))

/-- FINV (R124). -/
def execFinv (rd ra : SReg) (s : State) : Host.Outcome State Fault Refusal :=
  .next (s.runCommand none
    (if s.getS ra = 0 then .error .zeroDivisor
     else .ok (s.setS rd (fieldInv s.cfg.q (s.getS ra)))))

/-- FDIV (R125). -/
def execFdiv (rd ra rb : SReg) (s : State) : Host.Outcome State Fault Refusal :=
  .next (s.runCommand none
    (if s.getS rb = 0 then .error .zeroDivisor
     else .ok (s.setS rd (fieldDiv s.cfg.q (s.getS ra) (s.getS rb)))))

/-- FLDI (R126). -/
def execFldi (rd : SReg) (imm20 : Nat) (s : State) : Host.Outcome State Fault Refusal :=
  s.scalarResult rd (imm20 % s.cfg.q)

/-- FMOV (R127). -/
def execFmov (rd ra : SReg) (s : State) : Host.Outcome State Fault Refusal :=
  s.scalarResult rd (s.getS ra)

/-- FEQ (R128). -/
def execFeq (ra rb : SReg) (s : State) : Host.Outcome State Fault Refusal :=
  .next (s.runCommand none (.ok (s.setEq (s.getS ra == s.getS rb))))

end Sys2Proof.Machine
end

