-- ==== Sys2Proof/Machine/Inverse.lean ====
section
/-! DEFINITION. The extended Euclidean algorithm of 43_inversion.md (R230 to R232). -/

namespace Sys2Proof.Machine

/-- The loop of `pdivmod` (R232), which ends within as many passes as the dividend has
coefficients: each pass removes the top one. `c` is the inverse of the top coefficient of `v`. -/
def divLoop (q : Nat) (v : Poly) (c : Nat) : (fuel : Nat) → (quo rem : Poly) → Poly × Poly
  | 0, quo, rem => (quo, rem)
  | fuel + 1, quo, rem =>
    if rem ≠ [] ∧ deg v ≤ deg rem then
      let k := rem.length - v.length
      let m := fieldMul q (coef rem (rem.length - 1)) c
      divLoop q v c fuel (padd q quo (pscale q (mono k) m)) (psub q rem (pscale q (shift v k) m))
    else (quo, rem)

/-- `pdivmod(u, v)` for `v ≠ []` (R232). -/
def pdivmod (q : Nat) (u v : Poly) : Poly × Poly :=
  divLoop q v (fieldInv q (coef v (v.length - 1))) u.length [] u

/-- `M = X^n + 1`, the modulus as R231 writes it (10_state.md R27: hardwired). -/
def cycloModulus (n : Nat) : Poly := 1 :: (List.replicate (n - 1) 0 ++ [1])

/-- The two triples of R231: remainders and Bezout coefficients. -/
structure EeaState where
  rPrev : Poly
  rCur : Poly
  xPrev : Poly
  xCur : Poly
  yPrev : Poly
  yCur : Poly
  deriving DecidableEq, Repr

/-- One pass of the loop of R231. -/
def eeaPass (q : Nat) (e : EeaState) : EeaState :=
  let qr := pdivmod q e.rPrev e.rCur
  { rPrev := e.rCur
    rCur := qr.2
    xPrev := e.xCur
    xCur := psub q e.xPrev (full q qr.1 e.xCur)
    yPrev := e.yCur
    yCur := psub q e.yPrev (full q qr.1 e.yCur) }

/-- The loop of R231: the degree of `rCur` falls at every pass. -/
def eeaLoop (q : Nat) : (fuel : Nat) → EeaState → EeaState
  | 0, e => e
  | fuel + 1, e => if e.rCur = [] then e else eeaLoop q fuel (eeaPass q e)

/-- The starting triples of R231. -/
def eeaStart (n : Nat) (a : Poly) : EeaState :=
  { rPrev := cycloModulus n, rCur := a, xPrev := [1], xCur := [], yPrev := [], yCur := [1] }

/-- `eea(a)` for a nonzero reduced `a`: at most `deg(a) + 1` passes (R231). -/
def eea (q n : Nat) (a : Poly) : Poly × Poly :=
  let e := eeaLoop q a.length (eeaStart n a)
  (e.rPrev, e.yPrev)

/-- PINV's computation (R230, R233): the inverse in the ring, or which failure it is. -/
def ringInverse (q n : Nat) (x : Poly) : Except ErrCode Poly :=
  let a := reduce q n x
  if a = [] then .error .zeroPolynomial
  else
    let dy := eea q n a
    if deg dy.1 > 0 then .error .nonInvertible
    else .ok (pscale q dy.2 (fieldInv q (coef dy.1 0)))

end Sys2Proof.Machine
end

