-- ==== Sys2Proof/Machine/Inversion.lean ====
section
/-! DEFINITION. The inversion engine command (43_inversion.md R230). -/

namespace Sys2Proof.Machine

/-- PINV (R230, R233). -/
def execPinv (rd ra : PReg) (s : State) : Host.Outcome State Fault Refusal :=
  .next (s.runCommand none
    (match ringInverse s.cfg.q s.cfg.n (s.getP ra) with
     | .error e => .error e
     | .ok b => .ok (s.setPT rd b .plain)))

end Sys2Proof.Machine
end

