-- ==== Sys2Proof/Machine/Multiply.lean ====
section
/-! DEFINITION. The three multiplication strategies of 42_multiply.md (R204, R205, R206) and
their selection (R202). -/

namespace Sys2Proof.Machine

/-- NAIVE on reduced operands (R204). -/
def naiveMul (q n : Nat) (a b : Poly) : Poly := reduce q n (full q a b)

/-- `kara(x, y, m)` of R205 with `m = 2 ^ k`. -/
def kara (q kmin : Nat) : (k : Nat) → (x y : Poly) → Poly
  | 0, x, y => full q x y
  | k + 1, x, y =>
    if max (deg x) (deg y) < (kmin : Int) then full q x y
    else
      let h := 2 ^ k
      let x0 := piece x 0 h
      let x1 := piece x h h
      let y0 := piece y 0 h
      let y1 := piece y h h
      let z0 := kara q kmin k x0 y0
      let z2 := kara q kmin k x1 y1
      let z1 := psub q (psub q (kara q kmin k (padd q x0 x1) (padd q y0 y1)) z0) z2
      padd q (padd q z0 (shift z1 h)) (shift z2 (2 * h))

/-- RKARA on reduced operands (R205). -/
def rkaraMul (q logn kmin : Nat) (a b : Poly) : Poly :=
  reduce q (2 ^ logn) (kara q kmin logn a b)

/-- One splitting layer of R206, for operand pairs of size `2 * h`. -/
def splitLayer (q h : Nat) : List (Poly × Poly) → List (Poly × Poly)
  | [] => []
  | (x, y) :: rest =>
    (piece x 0 h, piece y 0 h) :: (piece x h h, piece y h h) ::
      (padd q (piece x 0 h) (piece x h h), padd q (piece y 0 h) (piece y h h)) ::
      splitLayer q h rest

/-- Splitting down `layers` layers from operands of size `2 ^ k`. -/
def splitDown (q : Nat) : (layers k : Nat) → List (Poly × Poly) → List (Poly × Poly)
  | 0, _, ops => ops
  | layers + 1, k, ops => splitDown q layers (k - 1) (splitLayer q (2 ^ (k - 1)) ops)

/-- `combine(z0, z2, zs, m)` of R206 with `m = 2 * h`. -/
def combine (q h : Nat) (z0 z2 zs : Poly) : Poly :=
  padd q (padd q z0 (shift (psub q (psub q zs z0) z2) h)) (shift z2 (2 * h))

/-- One combining layer of R206: results in groups of three. -/
def combineLayer (q h : Nat) : List Poly → List Poly
  | z0 :: z2 :: zs :: rest => combine q h z0 z2 zs :: combineLayer q h rest
  | _ => []

/-- Combining up: the layers `l = layers - 1` down to 0, where layer `l` has operand size
`2 ^ (k - l)`. -/
def combineUp (q : Nat) : (layers k : Nat) → List Poly → List Poly
  | 0, _, z => z
  | layers + 1, k, z => combineUp q layers k (combineLayer q (2 ^ (k - layers - 1)) z)

/-- FKARA on reduced operands (R206), with `flatk` layers. -/
def fkaraMul (q logn flatk : Nat) (a b : Poly) : Poly :=
  let leaves := (splitDown q flatk logn [(a, b)]).map fun xy => full q xy.1 xy.2
  reduce q (2 ^ logn) ((combineUp q flatk logn leaves).headD [])

/-- The strategy a `strat` field selects (R202): 0 takes CURSTRAT. -/
def selectStrat : (field : Strat) → (cur : MulStrat) → MulStrat
  | .dflt, cur => cur
  | .naive, _ => .naive
  | .rkara, _ => .rkara
  | .fkara, _ => .fkara

/-- The ring product as a strategy computes it: operands are reduced first (R200). -/
def ringProduct (st : MulStrat) (c : Config) (a b : Poly) : Poly :=
  let x := reduce c.q c.n a
  let y := reduce c.q c.n b
  match st with
  | .naive => naiveMul c.q c.n x y
  | .rkara => rkaraMul c.q c.logN c.kmin x y
  | .fkara => fkaraMul c.q c.logN c.flatk x y

end Sys2Proof.Machine
end

