-- ==== Sys2Proof/Machine/Multiplier.lean ====
section
/-! DEFINITION. The multiplier commands (42_multiply.md R200, R201). -/

namespace Sys2Proof.Machine

/-- PMUL (R200): the ring product, by the strategy of R202. -/
def execPmul (rd ra rb : PReg) (strat : Strat) (s : State) : Host.Outcome State Fault Refusal :=
  .next (s.runCommand none
    (.ok (s.setPT rd
      (ringProduct (selectStrat strat s.curstrat) s.cfg (s.getP ra) (s.getP rb)) .plain)))

/-- PMULF (R201): the full product, if it fits. -/
def execPmulf (rd ra rb : PReg) (s : State) : Host.Outcome State Fault Refusal :=
  let a := s.getP ra
  let b := s.getP rb
  .next (s.runCommand none
    (if 0 < a.length ∧ 0 < b.length ∧ (s.cfg.cap : Int) ≤ deg a + deg b then .error .capacity
     else .ok (s.setPT rd (full s.cfg.q a b) .plain)))

end Sys2Proof.Machine
end

