-- ==== Sys2Proof/Machine/RingUnit.lean ====
section
/-! DEFINITION. The ring unit commands (41_poly_ring.md R150 to R163). -/

namespace Sys2Proof.Machine

/-- A command whose result is one polynomial with its tag: `P[rd] <- v; TAG[rd] <- g`. -/
def State.polyResult (s : State) (rd : PReg) (v : Poly) (g : Tag) :
    Host.Outcome State Fault Refusal :=
  .next (s.runCommand none (.ok (s.setPT rd v g)))

/-- PZERO (R150). -/
def execPzero (rd : PReg) (s : State) : Host.Outcome State Fault Refusal :=
  s.polyResult rd [] .plain

/-- PONE (R151). -/
def execPone (rd : PReg) (s : State) : Host.Outcome State Fault Refusal :=
  s.polyResult rd [1] .plain

/-- PMONO (R152). -/
def execPmono (rd : PReg) (imm20 : Nat) (s : State) : Host.Outcome State Fault Refusal :=
  .next (s.runCommand (checkIndex s.cfg imm20) (.ok (s.setPT rd (mono imm20) .plain)))

/-- PCOPY (R153). -/
def execPcopy (rd ra : PReg) (s : State) : Host.Outcome State Fault Refusal :=
  s.polyResult rd (s.getP ra) (s.getTag ra)

/-- PGETC (R154). -/
def execPgetc (rd : SReg) (ra : PReg) (idx16 : Nat) (s : State) :
    Host.Outcome State Fault Refusal :=
  .next (s.runCommand (checkIndex s.cfg idx16) (.ok (s.setS rd (coef (s.getP ra) idx16))))

/-- PSETC (R155): the destination's tag is kept. -/
def execPsetc (rd : PReg) (ra : SReg) (idx16 : Nat) (s : State) :
    Host.Outcome State Fault Refusal :=
  .next (s.runCommand (checkIndex s.cfg idx16)
    (.ok (s.setP rd (setCoef s.cfg.cap (s.getP rd) idx16 (s.getS ra)))))

/-- PEQ (R156): the stored values are compared, unreduced. -/
def execPeq (ra rb : PReg) (s : State) : Host.Outcome State Fault Refusal :=
  .next (s.runCommand none (.ok (s.setEq (s.getP ra == s.getP rb))))

/-- PADD (R157). -/
def execPadd (rd ra rb : PReg) (s : State) : Host.Outcome State Fault Refusal :=
  s.polyResult rd (padd s.cfg.q (s.getP ra) (s.getP rb)) .plain

/-- PSUB (R158). -/
def execPsub (rd ra rb : PReg) (s : State) : Host.Outcome State Fault Refusal :=
  s.polyResult rd (psub s.cfg.q (s.getP ra) (s.getP rb)) .plain

/-- PNEG (R159). -/
def execPneg (rd ra : PReg) (s : State) : Host.Outcome State Fault Refusal :=
  s.polyResult rd (pneg s.cfg.q (s.getP ra)) .plain

/-- PSCALE (R160). -/
def execPscale (rd ra : PReg) (rb : SReg) (s : State) : Host.Outcome State Fault Refusal :=
  s.polyResult rd (pscale s.cfg.q (s.getP ra) (s.getS rb)) .plain

/-- PREDUCE (R161): the tag is copied. -/
def execPreduce (rd ra : PReg) (s : State) : Host.Outcome State Fault Refusal :=
  s.polyResult rd (reduce s.cfg.q s.cfg.n (s.getP ra)) (s.getTag ra)

/-- PSPLIT (R162): the two halves of `P[ra]` go to `P[rd]` and `P[rd+1]`. -/
def execPsplit (rd ra : PReg) (clog : Nat) (s : State) : Host.Outcome State Fault Refusal :=
  let a := s.getP ra
  let h := 2 ^ clog / 2
  .next (s.runCommand (checkSplit s.cfg rd clog a)
    (.ok (s.setGroup rd [piece a 0 h, piece a h h])))

/-- PSPLITK (R163): `2 ^ klog` pieces of `P[ra]` go to `P[rd]` and the registers after it. -/
def execPsplitk (rd ra : PReg) (clog klog : Nat) (s : State) :
    Host.Outcome State Fault Refusal :=
  let a := s.getP ra
  let len := 2 ^ clog / 2 ^ klog
  .next (s.runCommand (checkSplitK s.cfg rd clog klog a)
    (.ok (s.setGroup rd ((List.range (2 ^ klog)).map fun j => piece a (j * len) len))))

end Sys2Proof.Machine
end

