-- ==== Sys2Proof/Machine/Sample.lean ====
section
/-! DEFINITION. Draws and samples (44_sampling.md R250 to R256). -/

namespace Sys2Proof.Machine

/-- One raw answer of the oracle: the next pending one, else the free value of this draw
(R250, log entry 3). -/
def Oracle.next (o : Oracle) : Int × Oracle :=
  match o.pending with
  | [] => (Config.freeDraw o.count, { o with count := o.count + 1 })
  | d :: ds => (d, ⟨ds, o.count + 1⟩)

/-- The answers of the next `k` draws, in draw order. -/
def Oracle.take : (k : Nat) → Oracle → List Int × Oracle
  | 0, o => ([], o)
  | k + 1, o =>
    let r := o.next
    let rest := Oracle.take k r.2
    (r.1 :: rest.1, rest.2)

/-- A raw answer brought into `[0, m)`; an answer already there is itself. -/
def drawBelow (m : Nat) (d : Int) : Nat := (d % (m : Int)).toNat

/-- `DrawU()`: `[0, q)` (R250). -/
def drawU (c : Config) (d : Int) : Nat := drawBelow c.q d

/-- `DrawT()`: `[0, t)` (R250). -/
def drawT (c : Config) (d : Int) : Nat := drawBelow c.t d

/-- `DrawB()`: 0 or 1 (R250). -/
def drawB (d : Int) : Nat := drawBelow 2 d

/-- `DrawG()`: `[-GAUSS_TAIL, GAUSS_TAIL]` (R250); an answer already there is itself. -/
def drawG (c : Config) (d : Int) : Int :=
  (d + (c.gaussTail : Int)) % (2 * (c.gaussTail : Int) + 1) - (c.gaussTail : Int)

/-- The coefficient a Gaussian draw is stored as (R253). -/
def gaussCoef (c : Config) (d : Int) : Nat := residue c.q (drawG c d)

/-- N draws, index 0 first, put in canonical form (R255). -/
def sample (c : Config) (f : Int → Nat) (o : Oracle) : Poly × Oracle :=
  let r := Oracle.take c.n o
  (canon (r.1.map f), r.2)

/-- `sampleG()`: a Gaussian ring element (R253, R256). -/
def sampleG (c : Config) (o : Oracle) : Poly × Oracle := sample c (gaussCoef c) o

end Sys2Proof.Machine
end

