-- ==== Sys2Proof/Machine/Sampler.lean ====
section
/-! DEFINITION. The sampler commands (44_sampling.md R251 to R254). -/

namespace Sys2Proof.Machine

/-- `P[rd] <-` a sample whose coefficients are `f` of the draws; `TAG[rd] <- PLAIN`. A command
that ends before its execution makes no draw (R251). -/
def State.sampleResult (s : State) (rd : PReg) (f : Int → Nat) :
    Host.Outcome State Fault Refusal :=
  let r := sample s.cfg f s.oracle
  .next (s.runCommand none (.ok ((s.setPT rd r.1 .plain).withOracle r.2)))

/-- SAMPU (R251). -/
def execSampu (rd : PReg) (s : State) : Host.Outcome State Fault Refusal :=
  s.sampleResult rd (drawU s.cfg)

/-- SAMPT (R252). -/
def execSampt (rd : PReg) (s : State) : Host.Outcome State Fault Refusal :=
  s.sampleResult rd (drawT s.cfg)

/-- SAMPG (R253). -/
def execSampg (rd : PReg) (s : State) : Host.Outcome State Fault Refusal :=
  s.sampleResult rd (gaussCoef s.cfg)

/-- SAMPB (R254). -/
def execSampb (rd : PReg) (s : State) : Host.Outcome State Fault Refusal :=
  s.sampleResult rd drawB

end Sys2Proof.Machine
end

