-- ==== Sys2Proof/Machine/Yashe.lean ====
section
/-! DEFINITION. The YASHE ciphertext operator commands (45_yashe.md R270 to R283). -/

namespace Sys2Proof.Machine

/-- The scaled key `t·f + 1` (R270, R271). -/
def scaledKey (c : Config) (f : Poly) : Poly := padd c.q (pscale c.q f c.t) [1]

/-- Whether a candidate `f` is a key: its inverse, the scaled key and that one's inverse, or
`none` where an inversion fails (R271). -/
def keyCandidate (c : Config) (f : Poly) : Option (Poly × Poly × Poly) :=
  match ringInverse c.q c.n f with
  | .error _ => none
  | .ok fi =>
    match ringInverse c.q c.n (scaledKey c f) with
    | .error _ => none
    | .ok ski => some (fi, scaledKey c f, ski)

/-- The public key `t·g·sk⁻¹` (R271). -/
def publicKey (st : MulStrat) (c : Config) (g ski : Poly) : Poly :=
  pscale c.q (ringProduct st c g ski) c.t

/-- One pass of YKEYGEN's retry loop, which is one unit step (R271, 60_exceptions.md R313). The
candidate's and the public key's draws come from the oracle in that order (R256). -/
def State.keygenPass (s : State) (rd : PReg) : State :=
  let f := sampleG s.cfg s.oracle
  let tries := satInc s.kgcount
  match keyCandidate s.cfg f.1 with
  | none => { s with kgcount := tries, oracle := f.2 }
  | some (fi, sk, ski) =>
    let g := sampleG s.cfg f.2
    let h := publicKey s.curstrat s.cfg g.1 ski
    let done := { s with kgcount := tries, kgtries := tries, oracle := g.2 }
    (done.setGroup rd [f.1, fi, sk, ski, h]).complete .noError

/-- YKEYGEN (R271): the group check, then at every unit step the abort check and one pass. The
rule's check stands before the first pass; the model makes it at every step, where it can give
no other answer (log entry 7). -/
def execYkeygen (rd : PReg) (s : State) : Host.Outcome State Fault Refusal :=
  .next
    (match checkKeyGroup rd with
     | some e => s.complete e
     | none =>
       if s.abreq then { s with kgtries := s.kgcount }.complete .aborted
       else s.keygenPass rd)

/-- The ciphertext `h·s + t·e + m` (R273). -/
def encryptPoly (st : MulStrat) (c : Config) (m h s e : Poly) : Poly :=
  padd c.q (padd c.q (ringProduct st c (reduce c.q c.n h) s) (pscale c.q e c.t))
    (reduce c.q c.n m)

/-- YENC (R273): draws `s` first, then `e`. -/
def execYenc (rd ra rb : PReg) (s : State) : Host.Outcome State Fault Refusal :=
  let sm := sampleG s.cfg s.oracle
  let em := sampleG s.cfg sm.2
  .next (s.runCommand none
    (.ok ((s.setPT rd (encryptPoly s.curstrat s.cfg (s.getP ra) (s.getP rb) sm.1 em.1) .ct1)
      |>.withOracle em.2)))

/-- `canon([center(w[i]) mod t for i in 0 .. N-1])`, the last step of both decryptions (R274). -/
def decodeMessage (c : Config) (w : Poly) : Poly :=
  build c.n fun i => residue c.t (center c.q (coef w i))

/-- YDEC (R274). -/
def execYdec (rd ra rb : PReg) (s : State) : Host.Outcome State Fault Refusal :=
  let w := ringmul s.cfg.q s.cfg.n (s.getP rb) (s.getP ra)
  .next (s.runCommand none
    (.ok ((s.setPT rd (decodeMessage s.cfg w) .plain).raiseNoisew (s.getTag ra != .ct1))))

/-- YDECM (R275). -/
def execYdecm (rd ra rb : PReg) (s : State) : Host.Outcome State Fault Refusal :=
  let sk := s.getP rb
  let w := ringmul s.cfg.q s.cfg.n (ringmul s.cfg.q s.cfg.n sk sk) (s.getP ra)
  .next (s.runCommand none
    (.ok ((s.setPT rd (decodeMessage s.cfg w) .plain).raiseNoisew (s.getTag ra != .ct2))))

/-- YADD (R276). -/
def execYadd (rd ra rb : PReg) (s : State) : Host.Outcome State Fault Refusal :=
  let g := tagAdd (s.getTag ra) (s.getTag rb)
  let v := reduce s.cfg.q s.cfg.n (padd s.cfg.q (s.getP ra) (s.getP rb))
  .next (s.runCommand none (.ok ((s.setPT rd v g).raiseDepthx g)))

/-- YMUL (R277). -/
def execYmul (rd ra rb : PReg) (strat : Strat) (s : State) : Host.Outcome State Fault Refusal :=
  let g := tagMul (s.getTag ra) (s.getTag rb)
  let v := ringProduct (selectStrat strat s.curstrat) s.cfg (s.getP ra) (s.getP rb)
  .next (s.runCommand none (.ok ((s.setPT rd v g).raiseDepthx g)))

end Sys2Proof.Machine
end

