-- ==== Sys2Proof/Machine/Dispatch.lean ====
section
/-! DEFINITION. The dispatch from a command to its meaning: one arm per command. -/

namespace Sys2Proof.Machine

def exec (i : Instr) (s : State) : Host.Outcome State Fault Refusal :=
  match i with
  | .nop => Sys2Proof.Machine.execNop s
  | .fadd rd ra rb => Sys2Proof.Machine.execFadd rd ra rb s
  | .fsub rd ra rb => Sys2Proof.Machine.execFsub rd ra rb s
  | .fmul rd ra rb => Sys2Proof.Machine.execFmul rd ra rb s
  | .fneg rd ra => Sys2Proof.Machine.execFneg rd ra s
  | .finv rd ra => Sys2Proof.Machine.execFinv rd ra s
  | .fdiv rd ra rb => Sys2Proof.Machine.execFdiv rd ra rb s
  | .fldi rd imm20 => Sys2Proof.Machine.execFldi rd imm20 s
  | .fmov rd ra => Sys2Proof.Machine.execFmov rd ra s
  | .feq ra rb => Sys2Proof.Machine.execFeq ra rb s
  | .pzero rd => Sys2Proof.Machine.execPzero rd s
  | .pone rd => Sys2Proof.Machine.execPone rd s
  | .pmono rd imm20 => Sys2Proof.Machine.execPmono rd imm20 s
  | .pcopy rd ra => Sys2Proof.Machine.execPcopy rd ra s
  | .pgetc rd ra idx16 => Sys2Proof.Machine.execPgetc rd ra idx16 s
  | .psetc rd ra idx16 => Sys2Proof.Machine.execPsetc rd ra idx16 s
  | .peq ra rb => Sys2Proof.Machine.execPeq ra rb s
  | .padd rd ra rb => Sys2Proof.Machine.execPadd rd ra rb s
  | .psub rd ra rb => Sys2Proof.Machine.execPsub rd ra rb s
  | .pneg rd ra => Sys2Proof.Machine.execPneg rd ra s
  | .pscale rd ra rb => Sys2Proof.Machine.execPscale rd ra rb s
  | .preduce rd ra => Sys2Proof.Machine.execPreduce rd ra s
  | .psplit rd ra clog => Sys2Proof.Machine.execPsplit rd ra clog s
  | .psplitk rd ra clog klog => Sys2Proof.Machine.execPsplitk rd ra clog klog s
  | .pmul rd ra rb strat => Sys2Proof.Machine.execPmul rd ra rb strat s
  | .pmulf rd ra rb => Sys2Proof.Machine.execPmulf rd ra rb s
  | .pinv rd ra => Sys2Proof.Machine.execPinv rd ra s
  | .sampu rd => Sys2Proof.Machine.execSampu rd s
  | .sampt rd => Sys2Proof.Machine.execSampt rd s
  | .sampg rd => Sys2Proof.Machine.execSampg rd s
  | .sampb rd => Sys2Proof.Machine.execSampb rd s
  | .ykeygen rd => Sys2Proof.Machine.execYkeygen rd s
  | .yenc rd ra rb => Sys2Proof.Machine.execYenc rd ra rb s
  | .ydec rd ra rb => Sys2Proof.Machine.execYdec rd ra rb s
  | .ydecm rd ra rb => Sys2Proof.Machine.execYdecm rd ra rb s
  | .yadd rd ra rb => Sys2Proof.Machine.execYadd rd ra rb s
  | .ymul rd ra rb strat => Sys2Proof.Machine.execYmul rd ra rb strat s

end Sys2Proof.Machine
end

