-- ==== Sys2Proof/Machine/Lifecycle.lean ====
section
/-! DEFINITION. The unit step (60_exceptions.md R313) and the next thing that happens
(20_memory.md R75). -/

namespace Sys2Proof.Machine

/-- The code a word that is no command completes with (30_encoding.md R97, R98). -/
def decodeErrorCode : DecodeError → ErrCode
  | .illegalOpcode => .illegalOpcode
  | .illegalField => .illegalField

/-- The unit's step on the word it holds: decode it, then run the command or complete with the
word's error. PRE fetches nothing: the word is CURCMD (20_memory.md R77). -/
def State.runWord (s : State) (w : Word) : Host.Outcome State Fault Refusal :=
  match decode w with
  | .ok i => exec i s
  | .error e => .next (s.complete (decodeErrorCode e))

/-- A unit step, which can happen only while BUSY = 1; an idle PRE keeps its state
(60_exceptions.md R313, R319). -/
def State.unitStep (s : State) : Host.Outcome State Fault Refusal :=
  if s.busy then s.runWord s.curcmd else .next s

/-- What one event does. -/
def State.perform (s : State) : Event → Host.Outcome State Fault Refusal
  | .read addr n => .next (s.busRead addr n)
  | .write addr bs => .next (s.busWrite addr bs)
  | .reset => .next s.resetInput
  | .unitStep => s.unitStep

/-- One step of PRE and its environment: the next coming event happens; when none is coming, the
unit steps, so that a busy unit goes on (60_exceptions.md R313). -/
def State.advance (s : State) : Host.Outcome State Fault Refusal :=
  match s.inputs with
  | [] => s.unitStep
  | e :: rest => { s with inputs := rest }.perform e

/-- The state just after the host's CMD write of `w` was accepted, with a unit step next. -/
def State.issued (s : State) (w : Word) : State :=
  let t := s.accept w
  match t.inputs with
  | [] => t
  | e :: rest => { t with inputs := .unitStep :: e :: rest }

end Sys2Proof.Machine
end

