-- ==== Sys2Proof/Machine/Step.lean ====
section
/-! DEFINITION. One step of the machine, and the state in which a given word runs next. -/

namespace Sys2Proof.Machine

/-- One step: the next host access, reset or unit step (60_exceptions.md R313). -/
def step (s : State) : Host.Outcome State Fault Refusal := s.advance

/-- `s` with the command word `w` accepted, so that the very next step runs it (log entry 5). -/
def State.withFetchWord (s : State) (nbits w : Nat) : State :=
  s.issued (BitVec.ofNat 32 (w % 2 ^ nbits))

end Sys2Proof.Machine
end

