-- ==== Sys2Proof/Safety.lean ====
section
/-! DEFINITION. What claims about PRE speak of: well-kept registers, the range checks of the
command words, and the states a command leaves. -/

namespace Sys2Proof.Machine

/-- A polynomial register's value is canonical, fits its register and has every coefficient in
`[0, q)` (00_scope.md R6, 10_state.md R21, R22). -/
def PolyOk (c : Config) (a : Poly) : Prop :=
  isCanon a = true ∧ a.length ≤ c.cap ∧ ∀ i, coef a i < c.q

/-- A value of the ring in reduced form: canonical, `deg < N`, coefficients in `[0, q)`. -/
def RingOk (c : Config) (a : Poly) : Prop :=
  isCanon a = true ∧ a.length ≤ c.n ∧ ∀ i, coef a i < c.q

/-- The invariant of every PRE instance: its parameters meet 00_scope.md R2 and its register
files hold what 10_state.md R21 to R23 say they hold. -/
def Inv (s : State) : Prop :=
  s.cfg.Valid ∧ (∀ r, PolyOk s.cfg (s.getP r)) ∧ ∀ r, s.getS r < s.cfg.q

/-- KGCOUNT is nonzero only after a pass of a YKEYGEN whose word passed its checks (10_state.md
R33, R38; 60_exceptions.md R313). -/
def KeygenOk (s : State) : Prop :=
  s.kgcount ≠ 0 → ∃ rd : PReg, rd.val ≤ 11 ∧ decode s.curcmd = .ok (.ykeygen rd)

/-- Steps 3 and 4 of 30_encoding.md R100 for each command that has them (60_exceptions.md R301,
codes 3 and 4): the error, if any, found before an abort is seen. -/
def rangeError (s : State) : Instr → Option ErrCode
  | .pmono _ k => if s.cfg.cap ≤ k then some .operandRange else none
  | .pgetc _ _ idx => if s.cfg.cap ≤ idx then some .operandRange else none
  | .psetc _ _ idx => if s.cfg.cap ≤ idx then some .operandRange else none
  | .psplit rd ra clog =>
    if rd.val = 15 then some .regRange
    else if clog = 0 ∨ s.cfg.cap < 2 ^ clog ∨ 2 ^ clog < (s.getP ra).length then
      some .operandRange
    else none
  | .psplitk rd ra clog klog =>
    if 16 < rd.val + 2 ^ klog then some .regRange
    else if s.cfg.cap < 2 ^ clog ∨ clog < klog ∨ 2 ^ clog < (s.getP ra).length then
      some .operandRange
    else none
  | .ykeygen rd => if 12 ≤ rd.val then some .regRange else none
  | _ => none

/-- A unit step comes next, and the events `es` after it: no event is coming, or the first one is a
unit step (60_exceptions.md R313, log entry 4). -/
def State.UnitStepNext (s : State) (es : List Event) : Prop :=
  (s.inputs = [] ∧ es = []) ∨ s.inputs = .unitStep :: es

/-- The command is YKEYGEN, the one that may take more than one unit step. -/
def isKeygen : Instr → Bool
  | .ykeygen _ => true
  | _ => false

/-- `s` after a command completed with error `e`: the completion record (60_exceptions.md R304)
and nothing else. -/
def State.failed (s : State) (e : ErrCode) : State :=
  { s with err := e, errcmd := s.curcmd, busy := false, done := true }

/-- `s` after a command completed without error and wrote nothing. -/
def State.finished (s : State) : State :=
  { s with err := .noError, busy := false, done := true }

/-- `s` after a command completed without error and wrote `S[rd] <- v` only. -/
def State.finishedS (s : State) (rd : SReg) (v : Nat) : State :=
  { s with sc := s.sc.set rd v, err := .noError, busy := false, done := true }

/-- `s` after a command completed without error and wrote `P[rd] <- v; TAG[rd] <- g` only. -/
def State.finishedP (s : State) (rd : PReg) (v : Poly) (g : Tag) : State :=
  { s with p := s.p.set rd v, tag := s.tag.set rd g, err := .noError, busy := false, done := true }

/-- The address of coefficient `i` of `P[p]` in the unsigned (`base = 0x01000000`) or signed
(`0x02000000`) window (20_memory.md R61). -/
def coefAddr (c : Config) (signed : Bool) (p : PReg) (i : Nat) : BitVec 32 :=
  BitVec.ofNat 32 ((if signed then 0x02000000 else 0x01000000) + p.val * 0x00100000 +
    i * c.coefBytes)

/-- The address of `S[r]` in the unsigned or signed scalar window (20_memory.md R61). -/
def scalarAddr (c : Config) (signed : Bool) (r : SReg) : BitVec 32 :=
  BitVec.ofNat 32 ((if signed then 0x1800 else 0x1000) + r.val * c.coefBytes)

/-- The integer polynomial product modulo `X^n + 1`, on coefficient functions: coefficient `j`
(45_yashe.md R278, R279 work in `Z[X]/(X^N+1)`). -/
def intMul (n : Nat) (a b : Nat → Int) (j : Nat) : Int :=
  ((List.range n).map fun i =>
    if i ≤ j then a i * b (j - i) else -(a i * b (n + j - i))).sum

/-- The signed coefficients of a register's value (00_scope.md R9). -/
def lift (c : Config) (a : Poly) (i : Nat) : Int := center c.q (coef a i)

/-- A Gaussian ring element: every coefficient stands for an integer in
`[-GAUSS_TAIL, GAUSS_TAIL]` (44_sampling.md R250, R253). -/
def GaussOk (c : Config) (a : Poly) : Prop :=
  RingOk c a ∧ ∀ i, |lift c a i| ≤ c.gaussTail

/-- `a` has no inverse in the ring (43_inversion.md R230). -/
def NoInverse (c : Config) (a : Poly) : Prop :=
  ∀ b, RingOk c b → ringmul c.q c.n a b ≠ [1]

/-- `b` is an inverse of `a` in reduced form (43_inversion.md R230). -/
def IsInverse (c : Config) (a b : Poly) : Prop :=
  RingOk c b ∧ ringmul c.q c.n a b = [1]

/-- KGCOUNT after one more pass of YKEYGEN's loop: it saturates (45_yashe.md R271). -/
def State.passCount (s : State) : Word :=
  if s.kgcount = 0xFFFFFFFF then s.kgcount else s.kgcount + 1

/-- `s` after a pass of YKEYGEN that found no key and left the oracle at `o`: KGCOUNT and the draws
made, and nothing else (45_yashe.md R271, R272). -/
def State.keygenRetried (s : State) (o : Oracle) : State :=
  { s with kgcount := s.passCount, oracle := o }

/-- `s` after a pass of YKEYGEN that completed on the candidate `f` with inverse `fi`, the scaled
key `sk` with inverse `ski` and the sample `g`: the five key registers, tags PLAIN, and the number
of passes (45_yashe.md R271). -/
def State.keygenFinished (s : State) (rd r1 r2 r3 r4 : PReg) (f fi sk ski g : Poly) (o : Oracle) :
    State :=
  let h := pscale s.cfg.q (ringmul s.cfg.q s.cfg.n g ski) s.cfg.t
  { s.finished with
    p := ((((s.p.set rd f).set r1 fi).set r2 sk).set r3 ski).set r4 h
    tag := ((((s.tag.set rd .plain).set r1 .plain).set r2 .plain).set r3 .plain).set r4 .plain
    kgcount := s.passCount
    kgtries := s.passCount
    oracle := o }

end Sys2Proof.Machine
end

