-- ==== Sys2Proof/Certificates/Slice0/Obligations.lean ====
section
/-! DEFINITION. The statements about PRE, for the provers. -/

open Sys2Proof Sys2Proof.Machine

/-! ### Reset, the step, the words -/

/-- R341, R342: the reset input, whatever PRE was doing, leaves every state element at its reset
value, no completion, and the constant registers as they were. -/
def Obligations.ResetInputClearsEveryElement : Prop :=
  ∀ (s : State) (es : List Event), s.inputs = .reset :: es →
    ∃ t, step s = .next t ∧
      (∀ r, t.getP r = [] ∧ t.getTag r = .plain) ∧ (∀ r, t.getS r = 0) ∧
      t.ctrlWord = 0 ∧ t.ie = false ∧ t.mulstrat = .naive ∧ t.statusWord = 0 ∧
      t.busy = false ∧ t.done = false ∧ t.err = .noError ∧ t.eq = false ∧ t.noisew = false ∧
      t.depthx = false ∧ t.cmdovr = false ∧ t.hosterr = false ∧
      t.cmdreg = 0 ∧ t.errcmd = 0 ∧ t.kgtries = 0 ∧ t.curcmd = 0 ∧ t.curstrat = .naive ∧
      t.abreq = false ∧ t.kgcount = 0 ∧ t.irq = false ∧
      t.csrWord .id = 0x45594C44 ∧ t.csrWord .version = 1 ∧ t.cfg = s.cfg ∧ t.inputs = es

/-- The reset state of every valid configuration meets both invariants (R341 gives the values;
the configuration and the other fields of the model's own are log entries 1, 3, 4, 6). -/
def Obligations.ResetMeetsInvariants : Prop :=
  ∀ c : Config, c.Valid → Inv (State.resetWith c) ∧ KeygenOk (State.resetWith c)

/-- R313 (log entry 4 for the schedule): a unit step on a word that decodes to a well-formed
command is `exec` of that command, on the state whose coming events no longer list that step. -/
def Obligations.StepRunsTheDecodedCommand : Prop :=
  ∀ (s : State) (i : Instr), s.busy = true → decode s.curcmd = .ok i → i.wellFormed = true →
    (s.inputs = [] → step s = exec i s) ∧
    (∀ es, s.inputs = .unitStep :: es → step s = exec i { s with inputs := es })

/-- R101's example words, from the spec's own table, decode to their commands. -/
def Obligations.ExampleWordsDecode : Prop :=
  decode 0x10123000 = .ok (.fadd 1 2 3) ∧ decode 0x16400005 = .ok (.fldi 4 5) ∧
  decode 0x18012000 = .ok (.feq 1 2) ∧ decode 0x22300008 = .ok (.pmono 3 8) ∧
  decode 0x24010007 = .ok (.pgetc 0 1 7) ∧ decode 0x25250003 = .ok (.psetc 2 5 3) ∧
  decode 0x354000C0 = .ok (.psplit 4 0 3) ∧ decode 0x364000C2 = .ok (.psplitk 4 0 3 2) ∧
  decode 0x40012002 = .ok (.pmul 0 1 2 .rkara) ∧ decode 0x70000000 = .ok (.ykeygen 0) ∧
  decode 0x71564000 = .ok (.yenc 5 6 4) ∧ decode 0x00000000 = .ok .nop

/-- R91 to R97: no operand bit of a well-formed command is lost between encoder and decoder. -/
def Obligations.DecodeOfEncode : Prop :=
  ∀ i : Instr, i.wellFormed = true → decode (encode i) = .ok i

/-- R90, R97: a word that decodes is the one encoding of its command. -/
def Obligations.EncodeOfDecode : Prop :=
  ∀ (w : Word) (i : Instr), decode w = .ok i → i.wellFormed = true ∧ encode i = w

/-- R97, R98: a word with an unassigned opcode completes with ILLEGAL_OPCODE and writes nothing;
a word whose assigned opcode has a nonzero bit in a reserved field (the masks of R97's table are
`reservedMask`) completes with ILLEGAL_FIELD and writes nothing; every other word decodes. -/
def Obligations.WordErrorsComplete : Prop :=
  ∀ (s : State) (es : List Event), s.busy = true → s.UnitStepNext es →
    let opc := bits s.curcmd 31 24
    let assigned := opc = 0x00 ∨ (0x10 ≤ opc ∧ opc ≤ 0x18) ∨ (0x20 ≤ opc ∧ opc ≤ 0x26) ∨
      (0x30 ≤ opc ∧ opc ≤ 0x36) ∨ (0x40 ≤ opc ∧ opc ≤ 0x41) ∨ opc = 0x50 ∨
      (0x60 ≤ opc ∧ opc ≤ 0x63) ∨ (0x70 ≤ opc ∧ opc ≤ 0x75)
    let rest := { s with inputs := es }
    (¬ assigned → step s = .next (rest.failed .illegalOpcode)) ∧
    (assigned → ∃ m, reservedMask opc = some m ∧
      (s.curcmd &&& BitVec.ofNat 32 m ≠ 0 → step s = .next (rest.failed .illegalField)) ∧
      (s.curcmd &&& BitVec.ofNat 32 m = 0 → ∃ i, decode s.curcmd = .ok i))

/-! ### The life of a command -/

/-- R100 steps 3 and 4, R303: a range error completes the command with that error and writes
nothing, also when an abort was requested. That the degree test of PSPLIT and PSPLITK is one of
these checks, so that it comes before an abort, is the model's reading (log entry 8); that
YKEYGEN's group check is made at every pass is the model's form (log entry 7). -/
def Obligations.RangeErrorsComeBeforeAbort : Prop :=
  ∀ (s : State) (i : Instr) (e : ErrCode), rangeError s i = some e →
    exec i s = .next (s.failed e)

/-- R312, R313: a command that passes its range checks and sees an abort request completes with
ABORTED and writes nothing, but that a YKEYGEN writes KGTRIES. -/
def Obligations.AbortRequestEndsCommand : Prop :=
  ∀ (s : State) (i : Instr), rangeError s i = none → s.abreq = true →
    exec i s = .next
      { s.failed .aborted with kgtries := if isKeygen i then s.kgcount else s.kgtries }

/-- R313: every command except YKEYGEN, and every word that is no command, completes in one unit
step. -/
def Obligations.OneStepCommandsComplete : Prop :=
  ∀ (s : State) (es : List Event), s.busy = true → s.UnitStepNext es →
    (∀ i, decode s.curcmd = .ok i → isKeygen i = false) →
    ∃ t, step s = .next t ∧ t.busy = false ∧ t.done = true

/-- R304, R308, R309: at a completion the record is written, and IRQ is CTRL.IE; a command that
fails has changed nothing else but KGTRIES, which only an aborted YKEYGEN writes. -/
def Obligations.CompletionRecord : Prop :=
  ∀ (s t : State) (i : Instr), s.busy = true → exec i s = .next t → t.busy = false →
    t.done = true ∧ t.irq = s.ie ∧
    (t.err = .noError → t.errcmd = s.errcmd) ∧
    (t.err ≠ .noError →
      t = { s.failed t.err with kgtries := t.kgtries } ∧
      (t.kgtries ≠ s.kgtries → t.err = .aborted ∧ isKeygen i = true))

/-- R302: the listed commands complete without error on every operand value unless an abort was
requested (ILLEGAL_FIELD is settled by decoding). -/
def Obligations.InfallibleCommands : Prop :=
  ∀ (s : State) (i : Instr), s.abreq = false →
    (match i with
      | .finv .. | .fdiv .. | .pmono .. | .pgetc .. | .psetc .. | .psplit .. | .psplitk ..
      | .pmulf .. | .pinv .. | .ykeygen .. => False
      | _ => True) →
    ∃ t, exec i s = .next t ∧ t.err = .noError ∧ t.busy = false

/-- R75, R76, R77, R313, R354: nothing of a running command is visible before its completion, no
step that leaves it running raises DONE, NOISEW or DEPTHX (a host write may clear them), nothing
can change its word, its strategy or its operands, and a unit step that leaves it running changes
only KGCOUNT and the draws made. -/
def Obligations.RunningCommandShowsNothing : Prop :=
  ∀ (s t : State), s.busy = true → step s = .next t → t.busy = true →
    (t.p = s.p ∧ t.sc = s.sc ∧ t.tag = s.tag ∧ t.eq = s.eq ∧ t.err = s.err ∧
      t.errcmd = s.errcmd ∧ t.kgtries = s.kgtries ∧ t.cmdreg = s.cmdreg ∧ t.curcmd = s.curcmd ∧
      t.curstrat = s.curstrat) ∧
    (t.done = true → s.done = true) ∧ (t.noisew = true → s.noisew = true) ∧
    (t.depthx = true → s.depthx = true) ∧
    ∀ es, s.UnitStepNext es → t = { s with inputs := es, kgcount := t.kgcount, oracle := t.oracle }

/-- R26: only FEQ and PEQ write EQ; it keeps its value through every other command, whether or
not that one ends in an error. -/
def Obligations.OnlyComparesWriteEq : Prop :=
  ∀ (s t : State) (i : Instr), exec i s = .next t →
    (match i with | .feq .. | .peq .. => t.err ≠ .noError | _ => True) → t.eq = s.eq

/-- R24: no command's data result depends on a tag. -/
def Obligations.DataIgnoresTags : Prop :=
  ∀ (s t u : State) (g : Vector Tag 16) (i : Instr),
    exec i s = .next t → exec i { s with tag := g } = .next u →
    u.p = t.p ∧ u.sc = t.sc ∧ u.eq = t.eq ∧ u.err = t.err ∧ u.busy = t.busy ∧
    u.kgtries = t.kgtries ∧ u.kgcount = t.kgcount ∧ u.oracle = t.oracle

/-- R203: no register, flag, tag or error depends on the strategy latched for a command. -/
def Obligations.NothingDependsOnStrategy : Prop :=
  ∀ (s t u : State) (st : MulStrat) (i : Instr), s.cfg.Valid →
    exec i s = .next t → exec i { s with curstrat := st } = .next u →
    { u with curstrat := t.curstrat } = t

/-- R2, R64, R300: every step goes on, with no fault and no refusal, and the configuration cannot
be changed while PRE runs. -/
def Obligations.EveryStepGoesOn : Prop := ∀ s : State, ∃ t, step s = .next t ∧ t.cfg = s.cfg

/-- R319: while idle, PRE keeps all its state until the next host access or reset. -/
def Obligations.IdleKeepsState : Prop :=
  ∀ s : State, s.busy = false →
    (s.inputs = [] → step s = .next s) ∧
    (∀ es, s.inputs = .unitStep :: es → step s = .next { s with inputs := es })

/-! ### Invariants -/

/-- R22, R21, R6: from a state with well-kept registers every step, a command or a host access,
gives a state with well-kept registers. -/
def Obligations.StepKeepsRegisters : Prop :=
  ∀ s t : State, Inv s → step s = .next t → Inv t

/-- R33, R38, R313: every step keeps that a nonzero KGCOUNT belongs to a YKEYGEN in CURCMD whose
word passed its checks. -/
def Obligations.StepKeepsKeygenCount : Prop :=
  ∀ s t : State, KeygenOk s → step s = .next t → KeygenOk t

/-! ### The field unit and NOP -/

/-- R120 to R123, R126, R127, R290: sum, difference, product, negation, small constant and copy
write `S[rd]` and change nothing else; NOP writes nothing. -/
def Obligations.NopAndFieldResults : Prop :=
  ∀ (s : State) (rd ra rb : SReg) (imm : Nat), s.abreq = false → 0 < s.cfg.q →
    exec .nop s = .next s.finished ∧
    exec (.fadd rd ra rb) s = .next (s.finishedS rd ((s.getS ra + s.getS rb) % s.cfg.q)) ∧
    (∃ d, d < s.cfg.q ∧ (d : Int) = ((s.getS ra : Int) - s.getS rb) % s.cfg.q ∧
      exec (.fsub rd ra rb) s = .next (s.finishedS rd d)) ∧
    exec (.fmul rd ra rb) s = .next (s.finishedS rd (s.getS ra * s.getS rb % s.cfg.q)) ∧
    (∃ d, d < s.cfg.q ∧ (d : Int) = (-(s.getS ra : Int)) % s.cfg.q ∧
      exec (.fneg rd ra) s = .next (s.finishedS rd d)) ∧
    exec (.fldi rd imm) s = .next (s.finishedS rd (imm % s.cfg.q)) ∧
    exec (.fmov rd ra) s = .next (s.finishedS rd (s.getS ra))

/-- R124: FINV writes the unique inverse in `[1, q)`, and ends with ZERO_DIVISOR on 0. -/
def Obligations.FinvResult : Prop :=
  ∀ (s : State) (rd ra : SReg), Inv s → s.abreq = false →
    (s.getS ra = 0 → exec (.finv rd ra) s = .next (s.failed .zeroDivisor)) ∧
    (s.getS ra ≠ 0 →
      ∃ x, (1 ≤ x ∧ x < s.cfg.q ∧ s.getS ra * x % s.cfg.q = 1) ∧
        (∀ y, 1 ≤ y → y < s.cfg.q → s.getS ra * y % s.cfg.q = 1 → y = x) ∧
        exec (.finv rd ra) s = .next (s.finishedS rd x))

/-- R125: FDIV multiplies by that inverse of the divisor, and ends with ZERO_DIVISOR when the
divisor is 0, whatever the dividend. -/
def Obligations.FdivResult : Prop :=
  ∀ (s : State) (rd ra rb : SReg), Inv s → s.abreq = false →
    (s.getS rb = 0 → exec (.fdiv rd ra rb) s = .next (s.failed .zeroDivisor)) ∧
    (s.getS rb ≠ 0 →
      ∃ x, (1 ≤ x ∧ x < s.cfg.q ∧ s.getS rb * x % s.cfg.q = 1) ∧
        exec (.fdiv rd ra rb) s = .next (s.finishedS rd (s.getS ra * x % s.cfg.q)))

/-- R128, R156: the compares write EQ and nothing else; PEQ compares the stored values. -/
def Obligations.CompareResults : Prop :=
  ∀ (s : State) (a b : SReg) (x y : PReg), s.abreq = false →
    exec (.feq a b) s = .next { s.finished with eq := decide (s.getS a = s.getS b) } ∧
    exec (.peq x y) s = .next { s.finished with
      eq := decide ((s.getP x).length = (s.getP y).length ∧
        ∀ i < (s.getP x).length, coef (s.getP x) i = coef (s.getP y) i) }

/-! ### The ring unit -/

/-- R150 to R153: the constructors and the copy. -/
def Obligations.ConstructorResults : Prop :=
  ∀ (s : State) (rd ra : PReg) (k : Nat), s.abreq = false →
    exec (.pzero rd) s = .next (s.finishedP rd [] .plain) ∧
    exec (.pone rd) s = .next (s.finishedP rd [1] .plain) ∧
    (k < s.cfg.cap →
      exec (.pmono rd k) s = .next (s.finishedP rd (List.replicate k 0 ++ [1]) .plain)) ∧
    exec (.pcopy rd ra) s = .next (s.finishedP rd (s.getP ra) (s.getTag ra))

/-- R154, R155: reading and writing one coefficient; PSETC keeps the tag. -/
def Obligations.CoefficientMoves : Prop :=
  ∀ (s : State) (p : PReg) (r : SReg) (idx : Nat), s.abreq = false → idx < s.cfg.cap →
    exec (.pgetc r p idx) s = .next (s.finishedS r (coef (s.getP p) idx)) ∧
    ∃ v, isCanon v = true ∧
      (∀ j, coef v j = if j = idx then s.getS r else coef (s.getP p) j) ∧
      exec (.psetc p r idx) s = .next (s.finishedP p v (s.getTag p))

/-- R157 to R160: the coefficient-wise operations, in canonical form, tag PLAIN. -/
def Obligations.CoefficientwiseResults : Prop :=
  ∀ (s : State) (rd ra rb : PReg) (rc : SReg), s.abreq = false → 0 < s.cfg.q →
    (∃ v, isCanon v = true ∧
      (∀ i, coef v i = (coef (s.getP ra) i + coef (s.getP rb) i) % s.cfg.q) ∧
      exec (.padd rd ra rb) s = .next (s.finishedP rd v .plain)) ∧
    (∃ v, isCanon v = true ∧
      (∀ i, (coef v i : Int) = ((coef (s.getP ra) i : Int) - coef (s.getP rb) i) % s.cfg.q) ∧
      exec (.psub rd ra rb) s = .next (s.finishedP rd v .plain)) ∧
    (∃ v, isCanon v = true ∧
      (∀ i, (coef v i : Int) = (-(coef (s.getP ra) i : Int)) % s.cfg.q) ∧
      exec (.pneg rd ra) s = .next (s.finishedP rd v .plain)) ∧
    (∃ v, isCanon v = true ∧
      (∀ i, coef v i = coef (s.getP ra) i * s.getS rc % s.cfg.q) ∧
      exec (.pscale rd ra rc) s = .next (s.finishedP rd v .plain))

/-- R161: PREDUCE folds index `i + N` into `i`, negated, copies the tag, and leaves a value of
degree below `N` as it is. -/
def Obligations.PreduceResult : Prop :=
  ∀ (s : State) (rd ra : PReg), Inv s → s.abreq = false →
    ∃ v, RingOk s.cfg v ∧
      (∀ j < s.cfg.n, (coef v j : Int) =
        ((coef (s.getP ra) j : Int) - coef (s.getP ra) (j + s.cfg.n)) % s.cfg.q) ∧
      ((s.getP ra).length ≤ s.cfg.n → v = s.getP ra) ∧
      exec (.preduce rd ra) s = .next (s.finishedP rd v (s.getTag ra))

/-- R162: PSPLIT writes the two halves, of which the source is put together again. -/
def Obligations.PsplitResult : Prop :=
  ∀ (s : State) (rd rd' ra : PReg) (clog : Nat), s.abreq = false → rd'.val = rd.val + 1 →
    1 ≤ clog → 2 ^ clog ≤ s.cfg.cap → (s.getP ra).length ≤ 2 ^ clog →
    ∃ low high, isCanon low = true ∧ isCanon high = true ∧
      low.length ≤ 2 ^ (clog - 1) ∧ high.length ≤ 2 ^ (clog - 1) ∧
      (∀ i, coef (s.getP ra) i =
        if i < 2 ^ (clog - 1) then coef low i else coef high (i - 2 ^ (clog - 1))) ∧
      exec (.psplit rd ra clog) s = .next { s.finished with
        p := (s.p.set rd low).set rd' high, tag := (s.tag.set rd .plain).set rd' .plain }

/-- R163: PSPLITK writes `2^klog` pieces to consecutive registers, tag PLAIN, and changes no
other register. -/
def Obligations.PsplitkResult : Prop :=
  ∀ (s : State) (rd ra : PReg) (clog klog : Nat), s.abreq = false → rd.val + 2 ^ klog ≤ 16 →
    klog ≤ clog → 2 ^ clog ≤ s.cfg.cap → (s.getP ra).length ≤ 2 ^ clog →
    ∃ t, exec (.psplitk rd ra clog klog) s = .next t ∧
      t = { s.finished with p := t.p, tag := t.tag } ∧
      (∀ r : PReg, (rd.val ≤ r.val ∧ r.val < rd.val + 2 ^ klog) →
        isCanon (t.getP r) = true ∧ t.getTag r = .plain ∧
        ∀ i, coef (t.getP r) i = if i < 2 ^ (clog - klog) then
          coef (s.getP ra) ((r.val - rd.val) * 2 ^ (clog - klog) + i) else 0) ∧
      (∀ r : PReg, ¬ (rd.val ≤ r.val ∧ r.val < rd.val + 2 ^ klog) →
        t.getP r = s.getP r ∧ t.getTag r = s.getTag r)

/-- R164: addition, subtraction, negation and scaling commute with reduction. -/
def Obligations.ReductionCommutes : Prop :=
  ∀ (c : Config) (a b : Poly) (k : Nat), c.Valid →
    reduce c.q c.n (padd c.q a b) = padd c.q (reduce c.q c.n a) (reduce c.q c.n b) ∧
    reduce c.q c.n (psub c.q a b) = psub c.q (reduce c.q c.n a) (reduce c.q c.n b) ∧
    reduce c.q c.n (pneg c.q a) = pneg c.q (reduce c.q c.n a) ∧
    reduce c.q c.n (pscale c.q a k) = pscale c.q (reduce c.q c.n a) k

/-! ### The multiplier -/

/-- R202: the values 0 to 3 of a `strat` field name DEFAULT, NAIVE, RKARA and FKARA; DEFAULT selects
the strategy latched at acceptance and the others themselves; and PMUL completes with the product
as the selected strategy computes it (its value is the same for each: StrategiesAgree). -/
def Obligations.StrategySelection : Prop :=
  (decode 0x40012000 = .ok (.pmul 0 1 2 .dflt) ∧ decode 0x40012001 = .ok (.pmul 0 1 2 .naive) ∧
    decode 0x40012002 = .ok (.pmul 0 1 2 .rkara) ∧ decode 0x40012003 = .ok (.pmul 0 1 2 .fkara)) ∧
  (decode 0x75012000 = .ok (.ymul 0 1 2 .dflt) ∧ decode 0x75012001 = .ok (.ymul 0 1 2 .naive) ∧
    decode 0x75012002 = .ok (.ymul 0 1 2 .rkara) ∧ decode 0x75012003 = .ok (.ymul 0 1 2 .fkara)) ∧
  (∀ cur : MulStrat, selectStrat .dflt cur = cur ∧ selectStrat .naive cur = .naive ∧
    selectStrat .rkara cur = .rkara ∧ selectStrat .fkara cur = .fkara) ∧
  ∀ (s : State) (rd ra rb : PReg) (strat : Strat), Inv s → s.abreq = false →
    exec (.pmul rd ra rb strat) s = .next (s.finishedP rd
      (ringProduct (selectStrat strat s.curstrat) s.cfg (s.getP ra) (s.getP rb)) .plain)

/-- R203 to R206: the naive, the recursive and the flat Karatsuba strategy give the same
value, the ring product, for every pair of operands. -/
def Obligations.StrategiesAgree : Prop :=
  ∀ (c : Config) (st : MulStrat) (a b : Poly), c.Valid →
    ringProduct st c a b = ringmul c.q c.n a b

/-- R200: PMUL writes the ring product, tag PLAIN, whatever the strategy: coefficient `j` is the
negacyclic convolution of the reduced operands. -/
def Obligations.PmulIsRingProduct : Prop :=
  ∀ (s : State) (rd ra rb : PReg) (strat : Strat), Inv s → s.abreq = false →
    ∃ v, RingOk s.cfg v ∧
      v = reduce s.cfg.q s.cfg.n (full s.cfg.q (reduce s.cfg.q s.cfg.n (s.getP ra))
        (reduce s.cfg.q s.cfg.n (s.getP rb))) ∧
      (∀ j < s.cfg.n, (coef v j : Int) = intMul s.cfg.n
        (fun i => (coef (reduce s.cfg.q s.cfg.n (s.getP ra)) i : Int))
        (fun i => (coef (reduce s.cfg.q s.cfg.n (s.getP rb)) i : Int)) j % s.cfg.q) ∧
      exec (.pmul rd ra rb strat) s = .next (s.finishedP rd v .plain)

/-- R201: PMULF writes the full product, of length LEN a + LEN b - 1, or ends with CAPACITY when
its degree would reach CAP. -/
def Obligations.PmulfResult : Prop :=
  ∀ (s : State) (rd ra rb : PReg), Inv s → s.abreq = false →
    (s.getP ra ≠ [] ∧ s.getP rb ≠ [] ∧
        s.cfg.cap + 2 ≤ (s.getP ra).length + (s.getP rb).length →
      exec (.pmulf rd ra rb) s = .next (s.failed .capacity)) ∧
    (s.getP ra = [] ∨ s.getP rb = [] ∨
        (s.getP ra).length + (s.getP rb).length ≤ s.cfg.cap + 1 →
      ∃ v, PolyOk s.cfg v ∧
        (∀ k, coef v k = (∑ i ∈ Finset.range (k + 1),
          coef (s.getP ra) i * coef (s.getP rb) (k - i)) % s.cfg.q) ∧
        (s.getP ra ≠ [] → s.getP rb ≠ [] →
          v.length = (s.getP ra).length + (s.getP rb).length - 1) ∧
        exec (.pmulf rd ra rb) s = .next (s.finishedP rd v .plain))

/-- R208, R209: multiplying by `X^(N-1)` shifts down by one with a sign flip, and
`X^i · X^(N-i)` is `-1` for every `i` up to and including `N`. -/
def Obligations.CyclotomicWraparound : Prop :=
  ∀ (c : Config) (p : Poly), c.Valid → RingOk c p →
    (∀ i < c.n - 1, (coef (ringmul c.q c.n p (mono (c.n - 1))) i : Int) =
      (-(coef p (i + 1) : Int)) % c.q) ∧
    coef (ringmul c.q c.n p (mono (c.n - 1))) (c.n - 1) = coef p 0 ∧
    ∀ i ≤ c.n, ringmul c.q c.n (mono i) (mono (c.n - i)) = [c.q - 1]

/-! ### The inversion engine -/

/-- R232: division with remainder. -/
def Obligations.DivisionWithRemainder : Prop :=
  ∀ (c : Config) (u v : Poly), c.Valid → isCanon u = true → isCanon v = true →
    (∀ i, coef u i < c.q) → (∀ i, coef v i < c.q) → v ≠ [] →
    padd c.q (full c.q (pdivmod c.q u v).1 v) (pdivmod c.q u v).2 = u ∧
    deg (pdivmod c.q u v).2 < deg v

/-- R231: both triples of the Euclidean loop keep `M·x + a·y = r` at every pass. -/
def Obligations.BezoutInvariant : Prop :=
  ∀ (c : Config) (a : Poly) (k : Nat), c.Valid → RingOk c a →
    let e := eeaLoop c.q k (eeaStart c.n a)
    padd c.q (full c.q (cycloModulus c.n) e.xPrev) (full c.q a e.yPrev) = e.rPrev ∧
    padd c.q (full c.q (cycloModulus c.n) e.xCur) (full c.q a e.yCur) = e.rCur

/-- R230, R234: when the ring element of `P[ra]` has an inverse `b` with `deg b < N`, PINV
writes that `b`, tag PLAIN; and `b` is the only one. -/
def Obligations.PinvWritesTheInverse : Prop :=
  ∀ (s : State) (rd ra : PReg) (b : Poly), Inv s → s.abreq = false → RingOk s.cfg b →
    ringmul s.cfg.q s.cfg.n (s.getP ra) b = [1] →
    exec (.pinv rd ra) s = .next (s.finishedP rd b .plain) ∧
    ∀ b', RingOk s.cfg b' → ringmul s.cfg.q s.cfg.n (s.getP ra) b' = [1] → b' = b

/-- R234, R230, R301 codes 7 and 8: PINV fails with ZERO_POLYNOMIAL on the zero element and with
NON_INVERTIBLE exactly on the elements that share a factor of positive degree with the modulus;
on every other element it succeeds, with the one `b` of degree below `N` that is the inverse. -/
def Obligations.PinvFailures : Prop :=
  ∀ (s : State) (rd ra : PReg), Inv s → s.abreq = false →
    let a := reduce s.cfg.q s.cfg.n (s.getP ra)
    let shared := ∃ d u v : Poly, PolyOk s.cfg d ∧ PolyOk s.cfg u ∧ PolyOk s.cfg v ∧
      0 < deg d ∧ full s.cfg.q d u = a ∧ full s.cfg.q d v = cycloModulus s.cfg.n
    (a = [] → exec (.pinv rd ra) s = .next (s.failed .zeroPolynomial)) ∧
    (a ≠ [] → shared → exec (.pinv rd ra) s = .next (s.failed .nonInvertible)) ∧
    (a ≠ [] → ¬ shared → ∃ b, RingOk s.cfg b ∧ ringmul s.cfg.q s.cfg.n (s.getP ra) b = [1] ∧
      (∀ b', RingOk s.cfg b' → ringmul s.cfg.q s.cfg.n (s.getP ra) b' = [1] → b' = b) ∧
      exec (.pinv rd ra) s = .next (s.finishedP rd b .plain))

/-! ### The samplers -/

/-- R251 to R255: with `N` answers in the draw's set pending, each sampler writes them in index
order and consumes them. -/
def Obligations.SamplersUseTheirDraws : Prop :=
  ∀ (s : State) (rd : PReg) (ds rest : List Int), s.abreq = false → 0 < s.cfg.q →
    s.oracle.pending = ds ++ rest → ds.length = s.cfg.n →
    let o : Oracle := ⟨rest, s.oracle.count + s.cfg.n⟩
    ((∀ d ∈ ds, 0 ≤ d ∧ d < s.cfg.q) → exec (.sampu rd) s =
      .next { s.finishedP rd (canon (ds.map Int.toNat)) .plain with oracle := o }) ∧
    ((∀ d ∈ ds, 0 ≤ d ∧ d < s.cfg.t) → exec (.sampt rd) s =
      .next { s.finishedP rd (canon (ds.map Int.toNat)) .plain with oracle := o }) ∧
    ((∀ d ∈ ds, -(s.cfg.gaussTail : Int) ≤ d ∧ d ≤ s.cfg.gaussTail) → exec (.sampg rd) s =
      .next { s.finishedP rd (canon (ds.map fun d : Int => (d % (s.cfg.q : Int)).toNat)) .plain with
        oracle := o }) ∧
    ((∀ d ∈ ds, d = 0 ∨ d = 1) → exec (.sampb rd) s =
      .next { s.finishedP rd (canon (ds.map Int.toNat)) .plain with oracle := o })

/-- R250, R252, R253, R255: whatever the oracle answers, each sampler completes, and the sample
is a ring element whose coefficients lie in the draw's set. -/
def Obligations.SamplesStayInTheirSets : Prop :=
  ∀ (s : State) (rd : PReg), s.cfg.Valid → s.abreq = false →
    (∃ v o, RingOk s.cfg v ∧
      exec (.sampu rd) s = .next { s.finishedP rd v .plain with oracle := o }) ∧
    (∃ v o, RingOk s.cfg v ∧ (∀ i, coef v i < s.cfg.t) ∧
      exec (.sampt rd) s = .next { s.finishedP rd v .plain with oracle := o }) ∧
    (∃ v o, RingOk s.cfg v ∧ (∀ i, |lift s.cfg v i| ≤ s.cfg.gaussTail) ∧
      exec (.sampg rd) s = .next { s.finishedP rd v .plain with oracle := o }) ∧
    (∃ v o, RingOk s.cfg v ∧ (∀ i, coef v i ≤ 1) ∧
      exec (.sampb rd) s = .next { s.finishedP rd v .plain with oracle := o })

/-! ### YASHE -/

/-- R270, R271, R313: a pass of YKEYGEN whose candidate `f` has an inverse, and whose scaled key
has one, completes with the five key registers, KGTRIES the number of passes, tags PLAIN. The
draws are `f`'s, then `g`'s. -/
def Obligations.KeygenAcceptsCandidate : Prop :=
  ∀ (s : State) (rd r1 r2 r3 r4 : PReg) (df dg rest : List Int) (fi ski : Poly), Inv s →
    s.abreq = false → rd.val ≤ 11 → r1.val = rd.val + 1 → r2.val = rd.val + 2 →
    r3.val = rd.val + 3 → r4.val = rd.val + 4 →
    s.oracle.pending = df ++ (dg ++ rest) → df.length = s.cfg.n → dg.length = s.cfg.n →
    (∀ d ∈ df ++ dg, -(s.cfg.gaussTail : Int) ≤ d ∧ d ≤ s.cfg.gaussTail) →
    let q := s.cfg.q
    let f := canon (df.map fun d : Int => (d % (q : Int)).toNat)
    let g := canon (dg.map fun d : Int => (d % (q : Int)).toNat)
    let sk := padd q (pscale q f s.cfg.t) [1]
    IsInverse s.cfg f fi → IsInverse s.cfg sk ski →
    exec (.ykeygen rd) s = .next
      (s.keygenFinished rd r1 r2 r3 r4 f fi sk ski g ⟨rest, s.oracle.count + 2 * s.cfg.n⟩)

/-- R271, R272, R313: a pass whose candidate has no inverse, or whose scaled key has none, leaves
the command running and changes only KGCOUNT and the draws made. Whatever the oracle answers, every
pass is that one or the one that completes with the candidate's keys. -/
def Obligations.KeygenRetriesCandidate : Prop :=
  (∀ (s : State) (rd : PReg) (df rest : List Int), Inv s → s.abreq = false → rd.val ≤ 11 →
    s.oracle.pending = df ++ rest → df.length = s.cfg.n →
    (∀ d ∈ df, -(s.cfg.gaussTail : Int) ≤ d ∧ d ≤ s.cfg.gaussTail) →
    let q := s.cfg.q
    let f := canon (df.map fun d : Int => (d % (q : Int)).toNat)
    let sk := padd q (pscale q f s.cfg.t) [1]
    NoInverse s.cfg f ∨ NoInverse s.cfg sk →
    exec (.ykeygen rd) s = .next (s.keygenRetried ⟨rest, s.oracle.count + s.cfg.n⟩)) ∧
  ∀ (s : State) (rd r1 r2 r3 r4 : PReg), s.cfg.Valid → s.abreq = false → rd.val ≤ 11 →
    r1.val = rd.val + 1 → r2.val = rd.val + 2 → r3.val = rd.val + 3 → r4.val = rd.val + 4 →
    ∃ f o, GaussOk s.cfg f ∧
      let sk := padd s.cfg.q (pscale s.cfg.q f s.cfg.t) [1]
      ((NoInverse s.cfg f ∨ NoInverse s.cfg sk) ∧ o.count = s.oracle.count + s.cfg.n ∧
        exec (.ykeygen rd) s = .next (s.keygenRetried o)) ∨
      ∃ fi ski g, IsInverse s.cfg f fi ∧ IsInverse s.cfg sk ski ∧ GaussOk s.cfg g ∧
        o.count = s.oracle.count + 2 * s.cfg.n ∧
        exec (.ykeygen rd) s = .next (s.keygenFinished rd r1 r2 r3 r4 f fi sk ski g o)

/-- R273: YENC writes `h·s + t·e + m`, tag CT1; the draws are `s`'s, then `e`'s. Whatever the
oracle answers, YENC completes so for Gaussian elements `s` and `e`, and the ciphertext is a ring
element. -/
def Obligations.YencResult : Prop :=
  (∀ (s : State) (rd ra rb : PReg) (ds de rest : List Int), Inv s → s.abreq = false →
    s.oracle.pending = ds ++ (de ++ rest) → ds.length = s.cfg.n → de.length = s.cfg.n →
    (∀ d ∈ ds ++ de, -(s.cfg.gaussTail : Int) ≤ d ∧ d ≤ s.cfg.gaussTail) →
    let q := s.cfg.q
    let n := s.cfg.n
    let sm := canon (ds.map fun d : Int => (d % (q : Int)).toNat)
    let em := canon (de.map fun d : Int => (d % (q : Int)).toNat)
    exec (.yenc rd ra rb) s = .next { s.finishedP rd
      (padd q (padd q (ringmul q n (reduce q n (s.getP rb)) sm) (pscale q em s.cfg.t))
        (reduce q n (s.getP ra))) .ct1 with
      oracle := ⟨rest, s.oracle.count + 2 * n⟩ }) ∧
  ∀ (s : State) (rd ra rb : PReg), s.cfg.Valid → s.abreq = false →
    ∃ sm em v o, GaussOk s.cfg sm ∧ GaussOk s.cfg em ∧ RingOk s.cfg v ∧
      v = padd s.cfg.q
        (padd s.cfg.q (ringmul s.cfg.q s.cfg.n (reduce s.cfg.q s.cfg.n (s.getP rb)) sm)
          (pscale s.cfg.q em s.cfg.t))
        (reduce s.cfg.q s.cfg.n (s.getP ra)) ∧
      o.count = s.oracle.count + 2 * s.cfg.n ∧
      exec (.yenc rd ra rb) s = .next { s.finishedP rd v .ct1 with oracle := o }

/-- R274, R275, R283: the decryptions write the centred product reduced modulo `t`, tag PLAIN,
and set NOISEW exactly when the ciphertext's tag is not theirs. -/
def Obligations.DecryptResults : Prop :=
  ∀ (s : State) (rd ra rb : PReg), Inv s → s.abreq = false →
    let q := s.cfg.q
    let n := s.cfg.n
    let w1 := ringmul q n (s.getP rb) (s.getP ra)
    let w2 := ringmul q n (ringmul q n (s.getP rb) (s.getP rb)) (s.getP ra)
    (∃ v, isCanon v = true ∧ v.length ≤ n ∧
      (∀ i < n, (coef v i : Int) = center q (coef w1 i) % s.cfg.t) ∧
      exec (.ydec rd ra rb) s = .next { s.finishedP rd v .plain with
        noisew := s.noisew || decide (s.getTag ra ≠ .ct1) }) ∧
    (∃ v, isCanon v = true ∧ v.length ≤ n ∧
      (∀ i < n, (coef v i : Int) = center q (coef w2 i) % s.cfg.t) ∧
      exec (.ydecm rd ra rb) s = .next { s.finishedP rd v .plain with
        noisew := s.noisew || decide (s.getTag ra ≠ .ct2) })

/-- R276, R277, R281 to R283: the homomorphic operations write the reduced sum and the ring
product, the tag of the rule's table, and set DEPTHX exactly when that tag is OVER. -/
def Obligations.HomomorphicResults : Prop :=
  ∀ (s : State) (rd ra rb : PReg) (strat : Strat), Inv s → s.abreq = false →
    let q := s.cfg.q
    let n := s.cfg.n
    let ta := (s.getTag ra).code
    let tb := (s.getTag rb).code
    let addTable := [[0, 1, 2, 3], [1, 1, 3, 3], [2, 3, 2, 3], [3, 3, 3, 3]]
    let mulTable := [[0, 1, 2, 3], [1, 2, 3, 3], [2, 3, 3, 3], [3, 3, 3, 3]]
    (∃ g, g.code = (addTable.getD ta []).getD tb 0 ∧
      exec (.yadd rd ra rb) s = .next { s.finishedP rd
        (reduce q n (padd q (s.getP ra) (s.getP rb))) g with
        depthx := s.depthx || decide (g = .over) }) ∧
    (∃ g, g.code = (mulTable.getD ta []).getD tb 0 ∧
      exec (.ymul rd ra rb strat) s = .next { s.finishedP rd
        (ringmul q n (s.getP ra) (s.getP rb)) g with
        depthx := s.depthx || decide (g = .over) })

/-- R278 (the direction that holds for every `t`): while every coefficient of the integer
polynomial `t·E + m`, `E = g·s + sk·e + f·m`, stays within `(q-1)/2`, YDEC of YENC gives the
message modulo `t`. -/
def Obligations.DecryptionUndoesEncryption : Prop :=
  ∀ (s : State) (rc rm rh rk ro : PReg) (f g ski : Poly) (ds de rest : List Int), Inv s →
    s.abreq = false → rk ≠ rc →
    s.oracle.pending = ds ++ (de ++ rest) → ds.length = s.cfg.n → de.length = s.cfg.n →
    (∀ d ∈ ds ++ de, -(s.cfg.gaussTail : Int) ≤ d ∧ d ≤ s.cfg.gaussTail) →
    RingOk s.cfg f → RingOk s.cfg g → RingOk s.cfg ski → RingOk s.cfg (s.getP rm) →
    let q := s.cfg.q
    let n := s.cfg.n
    let t : Int := s.cfg.t
    s.getP rk = padd q (pscale q f s.cfg.t) [1] →
    ringmul q n (s.getP rk) ski = [1] →
    s.getP rh = pscale q (ringmul q n g ski) s.cfg.t →
    let m := fun i => (coef (s.getP rm) i : Int)
    let sk := fun i => t * lift s.cfg f i + if i = 0 then 1 else 0
    let noise := fun j => intMul n (lift s.cfg g) (fun i => ds.getD i 0) j +
      intMul n sk (fun i => de.getD i 0) j + intMul n (lift s.cfg f) m j
    (∀ j < n, |t * noise j + m j| ≤ ((q : Int) - 1) / 2) →
    ∃ u v, exec (.yenc rc rm rh) s = .next u ∧ exec (.ydec ro rc rk) u = .next v ∧
      v.getP ro = build n fun j => coef (s.getP rm) j % s.cfg.t

/-- R279: when `sk·ci` is the integer polynomial `vi` modulo `q`, `vi` is `mi` modulo `t`, and
every coefficient of `v1·v2` stays within `(q-1)/2`, YDECM of YMUL gives `m1·m2` modulo `t`. -/
def Obligations.ProductDecryption : Prop :=
  ∀ (s : State) (rd ra rb rk ro : PReg) (strat : Strat) (v1 v2 m1 m2 : Nat → Int), Inv s →
    s.abreq = false → rk ≠ rd →
    let q := s.cfg.q
    let n := s.cfg.n
    let t : Int := s.cfg.t
    (∀ j < n, coef (ringmul q n (s.getP rk) (s.getP ra)) j = residue q (v1 j)) →
    (∀ j < n, coef (ringmul q n (s.getP rk) (s.getP rb)) j = residue q (v2 j)) →
    (∀ j < n, v1 j % t = m1 j % t ∧ v2 j % t = m2 j % t) →
    (∀ j < n, |intMul n v1 v2 j| ≤ ((q : Int) - 1) / 2) →
    ∃ u v, exec (.ymul rd ra rb strat) s = .next u ∧ exec (.ydecm ro rd rk) u = .next v ∧
      v.getP ro = build n fun j => (intMul n m1 m2 j % t).toNat

/-! ### The host bus -/

/-- R33, R307, R309: a CMD write while idle accepts the word, all of it one effect, and nothing else
changes; while busy the word is discarded and CMDOVR set, with a normal response. Acceptance
clears DONE and so drops IRQ; a discarded word leaves IRQ as it was. -/
def Obligations.CmdWrite : Prop :=
  ∀ (s : State) (w : Word) (es : List Event),
    s.inputs = .write 0x010 (leBytes 4 w.toNat) :: es →
    (s.busy = false → ∃ t, step s = .next t ∧ t.irq = false ∧ t = { s with
      inputs := es, response := some ⟨false, []⟩
      cmdreg := w, curcmd := w, curstrat := s.mulstrat, abreq := false, kgcount := 0
      err := .noError, done := false, busy := true }) ∧
    (s.busy = true → ∃ t, step s = .next t ∧ t.irq = s.irq ∧ t = { s with
      inputs := es, response := some ⟨false, []⟩, cmdovr := true })

/-- R29, R312, R32, R309: CTRL takes IE and a legal MULSTRAT, and requests an abort while busy; a
STATUS write clears the W1C bits written as 1 and nothing else. IRQ follows: it is IE and DONE
after a CTRL write, 0 once DONE is cleared, and as it was where DONE is not. -/
def Obligations.CtrlAndStatusWrites : Prop :=
  ∀ (s : State) (v : Word) (es : List Event),
    (s.inputs = .write 0x008 (leBytes 4 v.toNat) :: es →
      ∃ t, step s = .next t ∧ t.irq = (v.getLsbD 0 && s.done) ∧ t = { s with
        inputs := es, response := some ⟨false, []⟩
        ie := v.getLsbD 0
        mulstrat := match v.getLsbD 2, v.getLsbD 1 with
          | false, false => .naive
          | false, true => .rkara
          | true, false => .fkara
          | true, true => s.mulstrat
        abreq := s.abreq || (s.busy && v.getLsbD 3) }) ∧
    (s.inputs = .write 0x00C (leBytes 4 v.toNat) :: es →
      ∃ t, step s = .next t ∧ t.irq = (if v.getLsbD 1 then false else s.irq) ∧ t = { s with
        inputs := es, response := some ⟨false, []⟩
        done := s.done && !v.getLsbD 1
        noisew := s.noisew && !v.getLsbD 9
        depthx := s.depthx && !v.getLsbD 10
        cmdovr := s.cmdovr && !v.getLsbD 11
        hosterr := s.hosterr && !v.getLsbD 12 })

/-- R32, R301, R309: the places of the STATUS bits, the reserved ones reading 0; the numbers of the
error codes; and IRQ is the IE bit of CTRL and the DONE bit of STATUS. -/
def Obligations.StatusBits : Prop :=
  ∀ s : State,
    s.statusWord.getLsbD 0 = s.busy ∧ s.statusWord.getLsbD 1 = s.done ∧
    s.statusWord.extractLsb' 2 2 = 0 ∧
    (s.statusWord.extractLsb' 4 4).toNat = (match s.err with
      | .noError => 0
      | .illegalOpcode => 1
      | .illegalField => 2
      | .regRange => 3
      | .operandRange => 4
      | .capacity => 5
      | .zeroDivisor => 6
      | .zeroPolynomial => 7
      | .nonInvertible => 8
      | .aborted => 9) ∧
    s.statusWord.getLsbD 8 = s.eq ∧ s.statusWord.getLsbD 9 = s.noisew ∧
    s.statusWord.getLsbD 10 = s.depthx ∧ s.statusWord.getLsbD 11 = s.cmdovr ∧
    s.statusWord.getLsbD 12 = s.hosterr ∧ s.statusWord.extractLsb' 13 19 = 0 ∧
    s.irq = (s.ctrlWord.getLsbD 0 && s.statusWord.getLsbD 1)

/-- R64, R73: a read changes nothing but its response, except that a read that gets an error
response sets HOSTERR and returns all-zero data. -/
def Obligations.ReadsHaveNoSideEffects : Prop :=
  ∀ (s : State) (addr : BitVec 32) (n : Nat) (es : List Event), s.inputs = .read addr n :: es →
    (∃ data, data.length = n ∧
      step s = .next { s with inputs := es, response := some ⟨false, data⟩ }) ∨
    step s = .next { s with
      inputs := es, response := some ⟨true, List.replicate n 0⟩, hosterr := true }

/-- R61, R63, R64: an access of the wrong size, a misaligned one and one to an unmapped address get
an error response; a write has no other effect than HOSTERR, a read returns zeros. -/
def Obligations.BadAccessesAreRefused : Prop :=
  ∀ (s : State) (addr : BitVec 32) (n : Nat) (es : List Event), s.cfg.Valid →
    let a := addr.toNat
    let cb := s.cfg.coefBytes
    let wrongSize := n ≠ if a < 0x800 then 4 else cb
    let misaligned := a % (if a < 0x800 then 4 else cb) ≠ 0
    let unmapped := (0x01C ≤ a ∧ a < 0x040) ∨ (0x064 ≤ a ∧ a < 0x100) ∨
      (0x180 ≤ a ∧ a < 0x800) ∨ (0x800 < a ∧ a < 0x1000) ∨
      (0x1000 + 16 * cb ≤ a ∧ a < 0x1800) ∨ (0x1800 + 16 * cb ≤ a ∧ a < 0x01000000) ∨
      (0x01000000 ≤ a ∧ s.cfg.cap * cb ≤ a % 0x00100000) ∨ 0x03000000 ≤ a
    wrongSize ∨ misaligned ∨ unmapped →
      (s.inputs = .read addr n :: es → step s = .next { s with
        inputs := es, response := some ⟨true, List.replicate n 0⟩, hosterr := true }) ∧
      (∀ data, data.length = n → s.inputs = .write addr data :: es → step s = .next { s with
        inputs := es, response := some ⟨true, []⟩, hosterr := true })

/-- R28 to R35, R72: what the identification, configuration, CTRL, STATUS, CMD, ERRCMD and KGTRIES
registers read, busy or idle, and that a write to a read-only one is ignored. What CFG_KMIN and
CFG_GAUSS_TAIL read is said only where that parameter fits 32 bits (the spec does not say what
such a register reads where it does not; log entry 2). -/
def Obligations.ControlRegisterReads : Prop :=
  ∀ (s : State) (es : List Event), s.cfg.Valid →
    let mulstrat := match s.mulstrat with
      | .naive => 0
      | .rkara => 1
      | .fkara => 2
    let readOnly := [(0x000, 0x45594C44), (0x004, 1), (0x014, s.errcmd.toNat),
      (0x018, s.kgtries.toNat), (0x040, s.cfg.n), (0x044, s.cfg.t), (0x048, s.cfg.qbits),
      (0x04C, s.cfg.coefBytes), (0x050, s.cfg.kmin), (0x054, s.cfg.flatk),
      (0x058, s.cfg.gaussTail), (0x05C, 16), (0x060, 16)]
    let others := [(0x008, s.ie.toNat + 2 * mulstrat), (0x00C, s.statusWord.toNat),
      (0x010, s.cmdreg.toNat)]
    (∀ a v, (a, v) ∈ readOnly ++ others → (a = 0x050 ∨ a = 0x058 → v < 2 ^ 32) →
      s.inputs = .read (BitVec.ofNat 32 a) 4 :: es →
      step s = .next { s with inputs := es, response := some ⟨false, leBytes 4 v⟩ }) ∧
    (∀ a v data, (a, v) ∈ readOnly → data.length = 4 →
      s.inputs = .write (BitVec.ofNat 32 a) data :: es →
      step s = .next { s with inputs := es, response := some ⟨false, []⟩ }) ∧
    (s.inputs = .read 0x800 s.cfg.coefBytes :: es → step s = .next { s with
      inputs := es, response := some ⟨false, leBytes s.cfg.coefBytes s.cfg.q⟩ }) ∧
    (∀ data, data.length = s.cfg.coefBytes → s.inputs = .write 0x800 data :: es →
      step s = .next { s with inputs := es, response := some ⟨false, []⟩ })

/-- R71: while busy, every access to the coefficient views, the scalar views, PLEN and PTAG is
refused: a read returns 0, a write has no effect, HOSTERR is set. -/
def Obligations.BusyRefusesDataAccess : Prop :=
  ∀ (s : State) (addr : BitVec 32) (es : List Event), s.busy = true →
    ((0x100 ≤ addr.toNat ∧ addr.toNat < 0x180) ∨ 0x1000 ≤ addr.toNat) →
    (∀ n, s.inputs = .read addr n :: es → step s = .next { s with
      inputs := es, response := some ⟨true, List.replicate n 0⟩, hosterr := true }) ∧
    (∀ data, s.inputs = .write addr data :: es → step s = .next { s with
      inputs := es, response := some ⟨true, []⟩, hosterr := true })

/-- R65, R66: through the unsigned window an idle PRE takes a coefficient below `q` and shows
each coefficient little-endian; a value of `q` or more is refused. -/
def Obligations.UnsignedCoefficientWindow : Prop :=
  ∀ (s : State) (p : PReg) (i v : Nat) (es : List Event), s.cfg.Valid → s.busy = false →
    i < s.cfg.cap → v < 256 ^ s.cfg.coefBytes →
    (s.inputs = .read (coefAddr s.cfg false p i) s.cfg.coefBytes :: es →
      step s = .next { s with
        inputs := es
        response := some ⟨false, leBytes s.cfg.coefBytes (coef (s.getP p) i)⟩ }) ∧
    (s.inputs = .write (coefAddr s.cfg false p i) (leBytes s.cfg.coefBytes v) :: es →
      (s.cfg.q ≤ v → step s = .next { s with
        inputs := es, response := some ⟨true, []⟩, hosterr := true }) ∧
      (v < s.cfg.q → ∃ w, isCanon w = true ∧
        (∀ j, coef w j = if j = i then v else coef (s.getP p) j) ∧
        step s = .next { s with
          inputs := es, response := some ⟨false, []⟩, p := s.p.set p w }))

/-- R67, R68: the signed window shows and takes the signed representative, in two's
complement. -/
def Obligations.SignedCoefficientWindow : Prop :=
  ∀ (s : State) (p : PReg) (i : Nat) (v : Int) (es : List Event), s.cfg.Valid →
    s.busy = false → i < s.cfg.cap →
    let top : Int := 256 ^ s.cfg.coefBytes
    let twos := fun x : Int => leBytes s.cfg.coefBytes (x % top).toNat
    2 * v ≥ -top → 2 * v < top →
    (s.inputs = .read (coefAddr s.cfg true p i) s.cfg.coefBytes :: es →
      step s = .next { s with
        inputs := es
        response := some ⟨false, twos (center s.cfg.q (coef (s.getP p) i))⟩ }) ∧
    (s.inputs = .write (coefAddr s.cfg true p i) (twos v) :: es →
      (v < -(((s.cfg.q : Int) - 1) / 2) ∨ ((s.cfg.q : Int) - 1) / 2 < v →
        step s = .next { s with
          inputs := es, response := some ⟨true, []⟩, hosterr := true }) ∧
      (-(((s.cfg.q : Int) - 1) / 2) ≤ v → v ≤ ((s.cfg.q : Int) - 1) / 2 →
        ∃ w, isCanon w = true ∧
          (∀ j, coef w j = if j = i then (v % s.cfg.q).toNat else coef (s.getP p) j) ∧
          step s = .next { s with
            inputs := es, response := some ⟨false, []⟩, p := s.p.set p w }))

/-- R69, R70: the two scalar windows. -/
def Obligations.ScalarWindows : Prop :=
  ∀ (s : State) (r : SReg) (x : Nat) (v : Int) (es : List Event), s.cfg.Valid →
    s.busy = false → x < 256 ^ s.cfg.coefBytes →
    let top : Int := 256 ^ s.cfg.coefBytes
    let twos := fun x : Int => leBytes s.cfg.coefBytes (x % top).toNat
    2 * v ≥ -top → 2 * v < top →
    (s.inputs = .read (scalarAddr s.cfg false r) s.cfg.coefBytes :: es →
      step s = .next { s with
        inputs := es, response := some ⟨false, leBytes s.cfg.coefBytes (s.getS r)⟩ }) ∧
    (s.inputs = .write (scalarAddr s.cfg false r) (leBytes s.cfg.coefBytes x) :: es →
      step s = .next (if x < s.cfg.q then { s with
          inputs := es, response := some ⟨false, []⟩, sc := s.sc.set r x }
        else { s with inputs := es, response := some ⟨true, []⟩, hosterr := true })) ∧
    (s.inputs = .read (scalarAddr s.cfg true r) s.cfg.coefBytes :: es →
      step s = .next { s with
        inputs := es, response := some ⟨false, twos (center s.cfg.q (s.getS r))⟩ }) ∧
    (s.inputs = .write (scalarAddr s.cfg true r) (twos v) :: es →
      step s = .next (if |v| ≤ ((s.cfg.q : Int) - 1) / 2 then { s with
          inputs := es, response := some ⟨false, []⟩
          sc := s.sc.set r (v % s.cfg.q).toNat }
        else { s with inputs := es, response := some ⟨true, []⟩, hosterr := true }))

/-- R36, R37, R72: an idle PRE shows each register's LEN and tag, takes a tag, and ignores a write to
a PLEN register with a normal response. -/
def Obligations.LengthAndTagRegisters : Prop :=
  ∀ (s : State) (p : PReg) (v : Word) (es : List Event), s.busy = false →
    (s.inputs = .read (BitVec.ofNat 32 (0x100 + 4 * p.val)) 4 :: es →
      step s = .next { s with
        inputs := es, response := some ⟨false, leBytes 4 ((s.getP p).length % 2 ^ 32)⟩ }) ∧
    (∀ data, data.length = 4 →
      s.inputs = .write (BitVec.ofNat 32 (0x100 + 4 * p.val)) data :: es →
      step s = .next { s with inputs := es, response := some ⟨false, []⟩ }) ∧
    (s.inputs = .read (BitVec.ofNat 32 (0x140 + 4 * p.val)) 4 :: es →
      step s = .next { s with
        inputs := es, response := some ⟨false, leBytes 4 (s.getTag p).code⟩ }) ∧
    (s.inputs = .write (BitVec.ofNat 32 (0x140 + 4 * p.val)) (leBytes 4 v.toNat) :: es →
      ∃ g : Tag, g.code = v.toNat % 4 ∧ step s = .next { s with
        inputs := es, response := some ⟨false, []⟩, tag := s.tag.set p g })
end

