-- ==== Sys2Proof/Laws/State.lean ====
section
/-! SUPPORT. What each update of the state does to each field, one lemma each, and what the
register reads see after an update. -/

namespace Sys2Proof.Machine

variable (s : State)

@[simp] theorem State.setP_cfg (r : PReg) (v : Poly) : (s.setP r v).cfg = s.cfg := rfl
@[simp] theorem State.setP_p (r : PReg) (v : Poly) : (s.setP r v).p = s.p.set r v := rfl
@[simp] theorem State.setP_sc (r : PReg) (v : Poly) : (s.setP r v).sc = s.sc := rfl
@[simp] theorem State.setP_tag (r : PReg) (v : Poly) : (s.setP r v).tag = s.tag := rfl
@[simp] theorem State.setP_ie (r : PReg) (v : Poly) : (s.setP r v).ie = s.ie := rfl
@[simp] theorem State.setP_mulstrat (r : PReg) (v : Poly) :
    (s.setP r v).mulstrat = s.mulstrat := rfl
@[simp] theorem State.setP_busy (r : PReg) (v : Poly) : (s.setP r v).busy = s.busy := rfl
@[simp] theorem State.setP_done (r : PReg) (v : Poly) : (s.setP r v).done = s.done := rfl
@[simp] theorem State.setP_err (r : PReg) (v : Poly) : (s.setP r v).err = s.err := rfl
@[simp] theorem State.setP_eq (r : PReg) (v : Poly) : (s.setP r v).eq = s.eq := rfl
@[simp] theorem State.setP_noisew (r : PReg) (v : Poly) : (s.setP r v).noisew = s.noisew := rfl
@[simp] theorem State.setP_depthx (r : PReg) (v : Poly) : (s.setP r v).depthx = s.depthx := rfl
@[simp] theorem State.setP_cmdovr (r : PReg) (v : Poly) : (s.setP r v).cmdovr = s.cmdovr := rfl
@[simp] theorem State.setP_hosterr (r : PReg) (v : Poly) : (s.setP r v).hosterr = s.hosterr := rfl
@[simp] theorem State.setP_cmdreg (r : PReg) (v : Poly) : (s.setP r v).cmdreg = s.cmdreg := rfl
@[simp] theorem State.setP_errcmd (r : PReg) (v : Poly) : (s.setP r v).errcmd = s.errcmd := rfl
@[simp] theorem State.setP_kgtries (r : PReg) (v : Poly) : (s.setP r v).kgtries = s.kgtries := rfl
@[simp] theorem State.setP_curcmd (r : PReg) (v : Poly) : (s.setP r v).curcmd = s.curcmd := rfl
@[simp] theorem State.setP_curstrat (r : PReg) (v : Poly) :
    (s.setP r v).curstrat = s.curstrat := rfl
@[simp] theorem State.setP_abreq (r : PReg) (v : Poly) : (s.setP r v).abreq = s.abreq := rfl
@[simp] theorem State.setP_kgcount (r : PReg) (v : Poly) : (s.setP r v).kgcount = s.kgcount := rfl
@[simp] theorem State.setP_oracle (r : PReg) (v : Poly) : (s.setP r v).oracle = s.oracle := rfl
@[simp] theorem State.setP_inputs (r : PReg) (v : Poly) : (s.setP r v).inputs = s.inputs := rfl
@[simp] theorem State.setP_response (r : PReg) (v : Poly) :
    (s.setP r v).response = s.response := rfl

@[simp] theorem State.setTag_cfg (r : PReg) (g : Tag) : (s.setTag r g).cfg = s.cfg := rfl
@[simp] theorem State.setTag_p (r : PReg) (g : Tag) : (s.setTag r g).p = s.p := rfl
@[simp] theorem State.setTag_sc (r : PReg) (g : Tag) : (s.setTag r g).sc = s.sc := rfl
@[simp] theorem State.setTag_tag (r : PReg) (g : Tag) : (s.setTag r g).tag = s.tag.set r g := rfl
@[simp] theorem State.setTag_ie (r : PReg) (g : Tag) : (s.setTag r g).ie = s.ie := rfl
@[simp] theorem State.setTag_mulstrat (r : PReg) (g : Tag) :
    (s.setTag r g).mulstrat = s.mulstrat := rfl
@[simp] theorem State.setTag_busy (r : PReg) (g : Tag) : (s.setTag r g).busy = s.busy := rfl
@[simp] theorem State.setTag_done (r : PReg) (g : Tag) : (s.setTag r g).done = s.done := rfl
@[simp] theorem State.setTag_err (r : PReg) (g : Tag) : (s.setTag r g).err = s.err := rfl
@[simp] theorem State.setTag_eq (r : PReg) (g : Tag) : (s.setTag r g).eq = s.eq := rfl
@[simp] theorem State.setTag_noisew (r : PReg) (g : Tag) : (s.setTag r g).noisew = s.noisew := rfl
@[simp] theorem State.setTag_depthx (r : PReg) (g : Tag) : (s.setTag r g).depthx = s.depthx := rfl
@[simp] theorem State.setTag_cmdovr (r : PReg) (g : Tag) : (s.setTag r g).cmdovr = s.cmdovr := rfl
@[simp] theorem State.setTag_hosterr (r : PReg) (g : Tag) :
    (s.setTag r g).hosterr = s.hosterr := rfl
@[simp] theorem State.setTag_cmdreg (r : PReg) (g : Tag) : (s.setTag r g).cmdreg = s.cmdreg := rfl
@[simp] theorem State.setTag_errcmd (r : PReg) (g : Tag) : (s.setTag r g).errcmd = s.errcmd := rfl
@[simp] theorem State.setTag_kgtries (r : PReg) (g : Tag) :
    (s.setTag r g).kgtries = s.kgtries := rfl
@[simp] theorem State.setTag_curcmd (r : PReg) (g : Tag) : (s.setTag r g).curcmd = s.curcmd := rfl
@[simp] theorem State.setTag_curstrat (r : PReg) (g : Tag) :
    (s.setTag r g).curstrat = s.curstrat := rfl
@[simp] theorem State.setTag_abreq (r : PReg) (g : Tag) : (s.setTag r g).abreq = s.abreq := rfl
@[simp] theorem State.setTag_kgcount (r : PReg) (g : Tag) :
    (s.setTag r g).kgcount = s.kgcount := rfl
@[simp] theorem State.setTag_oracle (r : PReg) (g : Tag) : (s.setTag r g).oracle = s.oracle := rfl
@[simp] theorem State.setTag_inputs (r : PReg) (g : Tag) : (s.setTag r g).inputs = s.inputs := rfl
@[simp] theorem State.setTag_response (r : PReg) (g : Tag) :
    (s.setTag r g).response = s.response := rfl

@[simp] theorem State.setS_cfg (r : SReg) (v : Nat) : (s.setS r v).cfg = s.cfg := rfl
@[simp] theorem State.setS_p (r : SReg) (v : Nat) : (s.setS r v).p = s.p := rfl
@[simp] theorem State.setS_sc (r : SReg) (v : Nat) : (s.setS r v).sc = s.sc.set r v := rfl
@[simp] theorem State.setS_tag (r : SReg) (v : Nat) : (s.setS r v).tag = s.tag := rfl
@[simp] theorem State.setS_ie (r : SReg) (v : Nat) : (s.setS r v).ie = s.ie := rfl
@[simp] theorem State.setS_mulstrat (r : SReg) (v : Nat) : (s.setS r v).mulstrat = s.mulstrat := rfl
@[simp] theorem State.setS_busy (r : SReg) (v : Nat) : (s.setS r v).busy = s.busy := rfl
@[simp] theorem State.setS_done (r : SReg) (v : Nat) : (s.setS r v).done = s.done := rfl
@[simp] theorem State.setS_err (r : SReg) (v : Nat) : (s.setS r v).err = s.err := rfl
@[simp] theorem State.setS_eq (r : SReg) (v : Nat) : (s.setS r v).eq = s.eq := rfl
@[simp] theorem State.setS_noisew (r : SReg) (v : Nat) : (s.setS r v).noisew = s.noisew := rfl
@[simp] theorem State.setS_depthx (r : SReg) (v : Nat) : (s.setS r v).depthx = s.depthx := rfl
@[simp] theorem State.setS_cmdovr (r : SReg) (v : Nat) : (s.setS r v).cmdovr = s.cmdovr := rfl
@[simp] theorem State.setS_hosterr (r : SReg) (v : Nat) : (s.setS r v).hosterr = s.hosterr := rfl
@[simp] theorem State.setS_cmdreg (r : SReg) (v : Nat) : (s.setS r v).cmdreg = s.cmdreg := rfl
@[simp] theorem State.setS_errcmd (r : SReg) (v : Nat) : (s.setS r v).errcmd = s.errcmd := rfl
@[simp] theorem State.setS_kgtries (r : SReg) (v : Nat) : (s.setS r v).kgtries = s.kgtries := rfl
@[simp] theorem State.setS_curcmd (r : SReg) (v : Nat) : (s.setS r v).curcmd = s.curcmd := rfl
@[simp] theorem State.setS_curstrat (r : SReg) (v : Nat) : (s.setS r v).curstrat = s.curstrat := rfl
@[simp] theorem State.setS_abreq (r : SReg) (v : Nat) : (s.setS r v).abreq = s.abreq := rfl
@[simp] theorem State.setS_kgcount (r : SReg) (v : Nat) : (s.setS r v).kgcount = s.kgcount := rfl
@[simp] theorem State.setS_oracle (r : SReg) (v : Nat) : (s.setS r v).oracle = s.oracle := rfl
@[simp] theorem State.setS_inputs (r : SReg) (v : Nat) : (s.setS r v).inputs = s.inputs := rfl
@[simp] theorem State.setS_response (r : SReg) (v : Nat) : (s.setS r v).response = s.response := rfl

@[simp] theorem State.setEq_cfg (b : Bool) : (s.setEq b).cfg = s.cfg := rfl
@[simp] theorem State.setEq_p (b : Bool) : (s.setEq b).p = s.p := rfl
@[simp] theorem State.setEq_sc (b : Bool) : (s.setEq b).sc = s.sc := rfl
@[simp] theorem State.setEq_tag (b : Bool) : (s.setEq b).tag = s.tag := rfl
@[simp] theorem State.setEq_ie (b : Bool) : (s.setEq b).ie = s.ie := rfl
@[simp] theorem State.setEq_mulstrat (b : Bool) : (s.setEq b).mulstrat = s.mulstrat := rfl
@[simp] theorem State.setEq_busy (b : Bool) : (s.setEq b).busy = s.busy := rfl
@[simp] theorem State.setEq_done (b : Bool) : (s.setEq b).done = s.done := rfl
@[simp] theorem State.setEq_err (b : Bool) : (s.setEq b).err = s.err := rfl
@[simp] theorem State.setEq_eq (b : Bool) : (s.setEq b).eq = b := rfl
@[simp] theorem State.setEq_noisew (b : Bool) : (s.setEq b).noisew = s.noisew := rfl
@[simp] theorem State.setEq_depthx (b : Bool) : (s.setEq b).depthx = s.depthx := rfl
@[simp] theorem State.setEq_cmdovr (b : Bool) : (s.setEq b).cmdovr = s.cmdovr := rfl
@[simp] theorem State.setEq_hosterr (b : Bool) : (s.setEq b).hosterr = s.hosterr := rfl
@[simp] theorem State.setEq_cmdreg (b : Bool) : (s.setEq b).cmdreg = s.cmdreg := rfl
@[simp] theorem State.setEq_errcmd (b : Bool) : (s.setEq b).errcmd = s.errcmd := rfl
@[simp] theorem State.setEq_kgtries (b : Bool) : (s.setEq b).kgtries = s.kgtries := rfl
@[simp] theorem State.setEq_curcmd (b : Bool) : (s.setEq b).curcmd = s.curcmd := rfl
@[simp] theorem State.setEq_curstrat (b : Bool) : (s.setEq b).curstrat = s.curstrat := rfl
@[simp] theorem State.setEq_abreq (b : Bool) : (s.setEq b).abreq = s.abreq := rfl
@[simp] theorem State.setEq_kgcount (b : Bool) : (s.setEq b).kgcount = s.kgcount := rfl
@[simp] theorem State.setEq_oracle (b : Bool) : (s.setEq b).oracle = s.oracle := rfl
@[simp] theorem State.setEq_inputs (b : Bool) : (s.setEq b).inputs = s.inputs := rfl
@[simp] theorem State.setEq_response (b : Bool) : (s.setEq b).response = s.response := rfl

@[simp] theorem State.raiseNoisew_cfg (b : Bool) : (s.raiseNoisew b).cfg = s.cfg := rfl
@[simp] theorem State.raiseNoisew_p (b : Bool) : (s.raiseNoisew b).p = s.p := rfl
@[simp] theorem State.raiseNoisew_sc (b : Bool) : (s.raiseNoisew b).sc = s.sc := rfl
@[simp] theorem State.raiseNoisew_tag (b : Bool) : (s.raiseNoisew b).tag = s.tag := rfl
@[simp] theorem State.raiseNoisew_ie (b : Bool) : (s.raiseNoisew b).ie = s.ie := rfl
@[simp] theorem State.raiseNoisew_mulstrat (b : Bool) :
    (s.raiseNoisew b).mulstrat = s.mulstrat := rfl
@[simp] theorem State.raiseNoisew_busy (b : Bool) : (s.raiseNoisew b).busy = s.busy := rfl
@[simp] theorem State.raiseNoisew_done (b : Bool) : (s.raiseNoisew b).done = s.done := rfl
@[simp] theorem State.raiseNoisew_err (b : Bool) : (s.raiseNoisew b).err = s.err := rfl
@[simp] theorem State.raiseNoisew_eq (b : Bool) : (s.raiseNoisew b).eq = s.eq := rfl
@[simp] theorem State.raiseNoisew_noisew (b : Bool) :
    (s.raiseNoisew b).noisew = (s.noisew || b) := rfl
@[simp] theorem State.raiseNoisew_depthx (b : Bool) : (s.raiseNoisew b).depthx = s.depthx := rfl
@[simp] theorem State.raiseNoisew_cmdovr (b : Bool) : (s.raiseNoisew b).cmdovr = s.cmdovr := rfl
@[simp] theorem State.raiseNoisew_hosterr (b : Bool) : (s.raiseNoisew b).hosterr = s.hosterr := rfl
@[simp] theorem State.raiseNoisew_cmdreg (b : Bool) : (s.raiseNoisew b).cmdreg = s.cmdreg := rfl
@[simp] theorem State.raiseNoisew_errcmd (b : Bool) : (s.raiseNoisew b).errcmd = s.errcmd := rfl
@[simp] theorem State.raiseNoisew_kgtries (b : Bool) : (s.raiseNoisew b).kgtries = s.kgtries := rfl
@[simp] theorem State.raiseNoisew_curcmd (b : Bool) : (s.raiseNoisew b).curcmd = s.curcmd := rfl
@[simp] theorem State.raiseNoisew_curstrat (b : Bool) :
    (s.raiseNoisew b).curstrat = s.curstrat := rfl
@[simp] theorem State.raiseNoisew_abreq (b : Bool) : (s.raiseNoisew b).abreq = s.abreq := rfl
@[simp] theorem State.raiseNoisew_kgcount (b : Bool) : (s.raiseNoisew b).kgcount = s.kgcount := rfl
@[simp] theorem State.raiseNoisew_oracle (b : Bool) : (s.raiseNoisew b).oracle = s.oracle := rfl
@[simp] theorem State.raiseNoisew_inputs (b : Bool) : (s.raiseNoisew b).inputs = s.inputs := rfl
@[simp] theorem State.raiseNoisew_response (b : Bool) :
    (s.raiseNoisew b).response = s.response := rfl

@[simp] theorem State.raiseDepthx_cfg (g : Tag) : (s.raiseDepthx g).cfg = s.cfg := rfl
@[simp] theorem State.raiseDepthx_p (g : Tag) : (s.raiseDepthx g).p = s.p := rfl
@[simp] theorem State.raiseDepthx_sc (g : Tag) : (s.raiseDepthx g).sc = s.sc := rfl
@[simp] theorem State.raiseDepthx_tag (g : Tag) : (s.raiseDepthx g).tag = s.tag := rfl
@[simp] theorem State.raiseDepthx_ie (g : Tag) : (s.raiseDepthx g).ie = s.ie := rfl
@[simp] theorem State.raiseDepthx_mulstrat (g : Tag) :
    (s.raiseDepthx g).mulstrat = s.mulstrat := rfl
@[simp] theorem State.raiseDepthx_busy (g : Tag) : (s.raiseDepthx g).busy = s.busy := rfl
@[simp] theorem State.raiseDepthx_done (g : Tag) : (s.raiseDepthx g).done = s.done := rfl
@[simp] theorem State.raiseDepthx_err (g : Tag) : (s.raiseDepthx g).err = s.err := rfl
@[simp] theorem State.raiseDepthx_eq (g : Tag) : (s.raiseDepthx g).eq = s.eq := rfl
@[simp] theorem State.raiseDepthx_noisew (g : Tag) : (s.raiseDepthx g).noisew = s.noisew := rfl
@[simp] theorem State.raiseDepthx_depthx (g : Tag) :
    (s.raiseDepthx g).depthx = (s.depthx || g == .over) := rfl
@[simp] theorem State.raiseDepthx_cmdovr (g : Tag) : (s.raiseDepthx g).cmdovr = s.cmdovr := rfl
@[simp] theorem State.raiseDepthx_hosterr (g : Tag) : (s.raiseDepthx g).hosterr = s.hosterr := rfl
@[simp] theorem State.raiseDepthx_cmdreg (g : Tag) : (s.raiseDepthx g).cmdreg = s.cmdreg := rfl
@[simp] theorem State.raiseDepthx_errcmd (g : Tag) : (s.raiseDepthx g).errcmd = s.errcmd := rfl
@[simp] theorem State.raiseDepthx_kgtries (g : Tag) : (s.raiseDepthx g).kgtries = s.kgtries := rfl
@[simp] theorem State.raiseDepthx_curcmd (g : Tag) : (s.raiseDepthx g).curcmd = s.curcmd := rfl
@[simp] theorem State.raiseDepthx_curstrat (g : Tag) :
    (s.raiseDepthx g).curstrat = s.curstrat := rfl
@[simp] theorem State.raiseDepthx_abreq (g : Tag) : (s.raiseDepthx g).abreq = s.abreq := rfl
@[simp] theorem State.raiseDepthx_kgcount (g : Tag) : (s.raiseDepthx g).kgcount = s.kgcount := rfl
@[simp] theorem State.raiseDepthx_oracle (g : Tag) : (s.raiseDepthx g).oracle = s.oracle := rfl
@[simp] theorem State.raiseDepthx_inputs (g : Tag) : (s.raiseDepthx g).inputs = s.inputs := rfl
@[simp] theorem State.raiseDepthx_response (g : Tag) :
    (s.raiseDepthx g).response = s.response := rfl

@[simp] theorem State.withOracle_cfg (o : Oracle) : (s.withOracle o).cfg = s.cfg := rfl
@[simp] theorem State.withOracle_p (o : Oracle) : (s.withOracle o).p = s.p := rfl
@[simp] theorem State.withOracle_sc (o : Oracle) : (s.withOracle o).sc = s.sc := rfl
@[simp] theorem State.withOracle_tag (o : Oracle) : (s.withOracle o).tag = s.tag := rfl
@[simp] theorem State.withOracle_ie (o : Oracle) : (s.withOracle o).ie = s.ie := rfl
@[simp] theorem State.withOracle_mulstrat (o : Oracle) :
    (s.withOracle o).mulstrat = s.mulstrat := rfl
@[simp] theorem State.withOracle_busy (o : Oracle) : (s.withOracle o).busy = s.busy := rfl
@[simp] theorem State.withOracle_done (o : Oracle) : (s.withOracle o).done = s.done := rfl
@[simp] theorem State.withOracle_err (o : Oracle) : (s.withOracle o).err = s.err := rfl
@[simp] theorem State.withOracle_eq (o : Oracle) : (s.withOracle o).eq = s.eq := rfl
@[simp] theorem State.withOracle_noisew (o : Oracle) : (s.withOracle o).noisew = s.noisew := rfl
@[simp] theorem State.withOracle_depthx (o : Oracle) : (s.withOracle o).depthx = s.depthx := rfl
@[simp] theorem State.withOracle_cmdovr (o : Oracle) : (s.withOracle o).cmdovr = s.cmdovr := rfl
@[simp] theorem State.withOracle_hosterr (o : Oracle) : (s.withOracle o).hosterr = s.hosterr := rfl
@[simp] theorem State.withOracle_cmdreg (o : Oracle) : (s.withOracle o).cmdreg = s.cmdreg := rfl
@[simp] theorem State.withOracle_errcmd (o : Oracle) : (s.withOracle o).errcmd = s.errcmd := rfl
@[simp] theorem State.withOracle_kgtries (o : Oracle) : (s.withOracle o).kgtries = s.kgtries := rfl
@[simp] theorem State.withOracle_curcmd (o : Oracle) : (s.withOracle o).curcmd = s.curcmd := rfl
@[simp] theorem State.withOracle_curstrat (o : Oracle) :
    (s.withOracle o).curstrat = s.curstrat := rfl
@[simp] theorem State.withOracle_abreq (o : Oracle) : (s.withOracle o).abreq = s.abreq := rfl
@[simp] theorem State.withOracle_kgcount (o : Oracle) : (s.withOracle o).kgcount = s.kgcount := rfl
@[simp] theorem State.withOracle_oracle (o : Oracle) : (s.withOracle o).oracle = o := rfl
@[simp] theorem State.withOracle_inputs (o : Oracle) : (s.withOracle o).inputs = s.inputs := rfl
@[simp] theorem State.withOracle_response (o : Oracle) :
    (s.withOracle o).response = s.response := rfl

@[simp] theorem State.accept_cfg (w : Word) : (s.accept w).cfg = s.cfg := rfl
@[simp] theorem State.accept_p (w : Word) : (s.accept w).p = s.p := rfl
@[simp] theorem State.accept_sc (w : Word) : (s.accept w).sc = s.sc := rfl
@[simp] theorem State.accept_tag (w : Word) : (s.accept w).tag = s.tag := rfl
@[simp] theorem State.accept_ie (w : Word) : (s.accept w).ie = s.ie := rfl
@[simp] theorem State.accept_mulstrat (w : Word) : (s.accept w).mulstrat = s.mulstrat := rfl
@[simp] theorem State.accept_busy (w : Word) : (s.accept w).busy = true := rfl
@[simp] theorem State.accept_done (w : Word) : (s.accept w).done = false := rfl
@[simp] theorem State.accept_err (w : Word) : (s.accept w).err = .noError := rfl
@[simp] theorem State.accept_eq (w : Word) : (s.accept w).eq = s.eq := rfl
@[simp] theorem State.accept_noisew (w : Word) : (s.accept w).noisew = s.noisew := rfl
@[simp] theorem State.accept_depthx (w : Word) : (s.accept w).depthx = s.depthx := rfl
@[simp] theorem State.accept_cmdovr (w : Word) : (s.accept w).cmdovr = s.cmdovr := rfl
@[simp] theorem State.accept_hosterr (w : Word) : (s.accept w).hosterr = s.hosterr := rfl
@[simp] theorem State.accept_cmdreg (w : Word) : (s.accept w).cmdreg = w := rfl
@[simp] theorem State.accept_errcmd (w : Word) : (s.accept w).errcmd = s.errcmd := rfl
@[simp] theorem State.accept_kgtries (w : Word) : (s.accept w).kgtries = s.kgtries := rfl
@[simp] theorem State.accept_curcmd (w : Word) : (s.accept w).curcmd = w := rfl
@[simp] theorem State.accept_curstrat (w : Word) : (s.accept w).curstrat = s.mulstrat := rfl
@[simp] theorem State.accept_abreq (w : Word) : (s.accept w).abreq = false := rfl
@[simp] theorem State.accept_kgcount (w : Word) : (s.accept w).kgcount = 0 := rfl
@[simp] theorem State.accept_oracle (w : Word) : (s.accept w).oracle = s.oracle := rfl
@[simp] theorem State.accept_inputs (w : Word) : (s.accept w).inputs = s.inputs := rfl
@[simp] theorem State.accept_response (w : Word) : (s.accept w).response = s.response := rfl

@[simp] theorem State.complete_cfg (e : ErrCode) : (s.complete e).cfg = s.cfg := rfl
@[simp] theorem State.complete_p (e : ErrCode) : (s.complete e).p = s.p := rfl
@[simp] theorem State.complete_sc (e : ErrCode) : (s.complete e).sc = s.sc := rfl
@[simp] theorem State.complete_tag (e : ErrCode) : (s.complete e).tag = s.tag := rfl
@[simp] theorem State.complete_ie (e : ErrCode) : (s.complete e).ie = s.ie := rfl
@[simp] theorem State.complete_mulstrat (e : ErrCode) : (s.complete e).mulstrat = s.mulstrat := rfl
@[simp] theorem State.complete_busy (e : ErrCode) : (s.complete e).busy = false := rfl
@[simp] theorem State.complete_done (e : ErrCode) : (s.complete e).done = true := rfl
@[simp] theorem State.complete_err (e : ErrCode) : (s.complete e).err = e := rfl
@[simp] theorem State.complete_eq (e : ErrCode) : (s.complete e).eq = s.eq := rfl
@[simp] theorem State.complete_noisew (e : ErrCode) : (s.complete e).noisew = s.noisew := rfl
@[simp] theorem State.complete_depthx (e : ErrCode) : (s.complete e).depthx = s.depthx := rfl
@[simp] theorem State.complete_cmdovr (e : ErrCode) : (s.complete e).cmdovr = s.cmdovr := rfl
@[simp] theorem State.complete_hosterr (e : ErrCode) : (s.complete e).hosterr = s.hosterr := rfl
@[simp] theorem State.complete_cmdreg (e : ErrCode) : (s.complete e).cmdreg = s.cmdreg := rfl
@[simp] theorem State.complete_errcmd (e : ErrCode) :
    (s.complete e).errcmd = if e = .noError then s.errcmd else s.curcmd := rfl
@[simp] theorem State.complete_kgtries (e : ErrCode) : (s.complete e).kgtries = s.kgtries := rfl
@[simp] theorem State.complete_curcmd (e : ErrCode) : (s.complete e).curcmd = s.curcmd := rfl
@[simp] theorem State.complete_curstrat (e : ErrCode) : (s.complete e).curstrat = s.curstrat := rfl
@[simp] theorem State.complete_abreq (e : ErrCode) : (s.complete e).abreq = s.abreq := rfl
@[simp] theorem State.complete_kgcount (e : ErrCode) : (s.complete e).kgcount = s.kgcount := rfl
@[simp] theorem State.complete_oracle (e : ErrCode) : (s.complete e).oracle = s.oracle := rfl
@[simp] theorem State.complete_inputs (e : ErrCode) : (s.complete e).inputs = s.inputs := rfl
@[simp] theorem State.complete_response (e : ErrCode) : (s.complete e).response = s.response := rfl

@[simp] theorem State.busError_cfg (d : List Byte) : (s.busError d).cfg = s.cfg := rfl
@[simp] theorem State.busError_p (d : List Byte) : (s.busError d).p = s.p := rfl
@[simp] theorem State.busError_sc (d : List Byte) : (s.busError d).sc = s.sc := rfl
@[simp] theorem State.busError_tag (d : List Byte) : (s.busError d).tag = s.tag := rfl
@[simp] theorem State.busError_ie (d : List Byte) : (s.busError d).ie = s.ie := rfl
@[simp] theorem State.busError_mulstrat (d : List Byte) :
    (s.busError d).mulstrat = s.mulstrat := rfl
@[simp] theorem State.busError_busy (d : List Byte) : (s.busError d).busy = s.busy := rfl
@[simp] theorem State.busError_done (d : List Byte) : (s.busError d).done = s.done := rfl
@[simp] theorem State.busError_err (d : List Byte) : (s.busError d).err = s.err := rfl
@[simp] theorem State.busError_eq (d : List Byte) : (s.busError d).eq = s.eq := rfl
@[simp] theorem State.busError_noisew (d : List Byte) : (s.busError d).noisew = s.noisew := rfl
@[simp] theorem State.busError_depthx (d : List Byte) : (s.busError d).depthx = s.depthx := rfl
@[simp] theorem State.busError_cmdovr (d : List Byte) : (s.busError d).cmdovr = s.cmdovr := rfl
@[simp] theorem State.busError_hosterr (d : List Byte) : (s.busError d).hosterr = true := rfl
@[simp] theorem State.busError_cmdreg (d : List Byte) : (s.busError d).cmdreg = s.cmdreg := rfl
@[simp] theorem State.busError_errcmd (d : List Byte) : (s.busError d).errcmd = s.errcmd := rfl
@[simp] theorem State.busError_kgtries (d : List Byte) : (s.busError d).kgtries = s.kgtries := rfl
@[simp] theorem State.busError_curcmd (d : List Byte) : (s.busError d).curcmd = s.curcmd := rfl
@[simp] theorem State.busError_curstrat (d : List Byte) :
    (s.busError d).curstrat = s.curstrat := rfl
@[simp] theorem State.busError_abreq (d : List Byte) : (s.busError d).abreq = s.abreq := rfl
@[simp] theorem State.busError_kgcount (d : List Byte) : (s.busError d).kgcount = s.kgcount := rfl
@[simp] theorem State.busError_oracle (d : List Byte) : (s.busError d).oracle = s.oracle := rfl
@[simp] theorem State.busError_inputs (d : List Byte) : (s.busError d).inputs = s.inputs := rfl
@[simp] theorem State.busError_response (d : List Byte) :
    (s.busError d).response = some ⟨true, d⟩ := rfl

@[simp] theorem State.writeCtrl_cfg (v : Word) : (s.writeCtrl v).cfg = s.cfg := rfl
@[simp] theorem State.writeCtrl_p (v : Word) : (s.writeCtrl v).p = s.p := rfl
@[simp] theorem State.writeCtrl_sc (v : Word) : (s.writeCtrl v).sc = s.sc := rfl
@[simp] theorem State.writeCtrl_tag (v : Word) : (s.writeCtrl v).tag = s.tag := rfl
@[simp] theorem State.writeCtrl_ie (v : Word) : (s.writeCtrl v).ie = (bits v 0 0 == 1) := rfl
@[simp] theorem State.writeCtrl_mulstrat (v : Word) :
    (s.writeCtrl v).mulstrat = s.mulstrat.write (bits v 2 1) := rfl
@[simp] theorem State.writeCtrl_busy (v : Word) : (s.writeCtrl v).busy = s.busy := rfl
@[simp] theorem State.writeCtrl_done (v : Word) : (s.writeCtrl v).done = s.done := rfl
@[simp] theorem State.writeCtrl_err (v : Word) : (s.writeCtrl v).err = s.err := rfl
@[simp] theorem State.writeCtrl_eq (v : Word) : (s.writeCtrl v).eq = s.eq := rfl
@[simp] theorem State.writeCtrl_noisew (v : Word) : (s.writeCtrl v).noisew = s.noisew := rfl
@[simp] theorem State.writeCtrl_depthx (v : Word) : (s.writeCtrl v).depthx = s.depthx := rfl
@[simp] theorem State.writeCtrl_cmdovr (v : Word) : (s.writeCtrl v).cmdovr = s.cmdovr := rfl
@[simp] theorem State.writeCtrl_hosterr (v : Word) : (s.writeCtrl v).hosterr = s.hosterr := rfl
@[simp] theorem State.writeCtrl_cmdreg (v : Word) : (s.writeCtrl v).cmdreg = s.cmdreg := rfl
@[simp] theorem State.writeCtrl_errcmd (v : Word) : (s.writeCtrl v).errcmd = s.errcmd := rfl
@[simp] theorem State.writeCtrl_kgtries (v : Word) : (s.writeCtrl v).kgtries = s.kgtries := rfl
@[simp] theorem State.writeCtrl_curcmd (v : Word) : (s.writeCtrl v).curcmd = s.curcmd := rfl
@[simp] theorem State.writeCtrl_curstrat (v : Word) : (s.writeCtrl v).curstrat = s.curstrat := rfl
@[simp] theorem State.writeCtrl_abreq (v : Word) :
    (s.writeCtrl v).abreq = (s.abreq || (s.busy && bits v 3 3 == 1)) := rfl
@[simp] theorem State.writeCtrl_kgcount (v : Word) : (s.writeCtrl v).kgcount = s.kgcount := rfl
@[simp] theorem State.writeCtrl_oracle (v : Word) : (s.writeCtrl v).oracle = s.oracle := rfl
@[simp] theorem State.writeCtrl_inputs (v : Word) : (s.writeCtrl v).inputs = s.inputs := rfl
@[simp] theorem State.writeCtrl_response (v : Word) : (s.writeCtrl v).response = s.response := rfl

@[simp] theorem State.writeStatus_cfg (v : Word) : (s.writeStatus v).cfg = s.cfg := rfl
@[simp] theorem State.writeStatus_p (v : Word) : (s.writeStatus v).p = s.p := rfl
@[simp] theorem State.writeStatus_sc (v : Word) : (s.writeStatus v).sc = s.sc := rfl
@[simp] theorem State.writeStatus_tag (v : Word) : (s.writeStatus v).tag = s.tag := rfl
@[simp] theorem State.writeStatus_ie (v : Word) : (s.writeStatus v).ie = s.ie := rfl
@[simp] theorem State.writeStatus_mulstrat (v : Word) :
    (s.writeStatus v).mulstrat = s.mulstrat := rfl
@[simp] theorem State.writeStatus_busy (v : Word) : (s.writeStatus v).busy = s.busy := rfl
@[simp] theorem State.writeStatus_done (v : Word) :
    (s.writeStatus v).done = (s.done && bits v 1 1 == 0) := rfl
@[simp] theorem State.writeStatus_err (v : Word) : (s.writeStatus v).err = s.err := rfl
@[simp] theorem State.writeStatus_eq (v : Word) : (s.writeStatus v).eq = s.eq := rfl
@[simp] theorem State.writeStatus_noisew (v : Word) :
    (s.writeStatus v).noisew = (s.noisew && bits v 9 9 == 0) := rfl
@[simp] theorem State.writeStatus_depthx (v : Word) :
    (s.writeStatus v).depthx = (s.depthx && bits v 10 10 == 0) := rfl
@[simp] theorem State.writeStatus_cmdovr (v : Word) :
    (s.writeStatus v).cmdovr = (s.cmdovr && bits v 11 11 == 0) := rfl
@[simp] theorem State.writeStatus_hosterr (v : Word) :
    (s.writeStatus v).hosterr = (s.hosterr && bits v 12 12 == 0) := rfl
@[simp] theorem State.writeStatus_cmdreg (v : Word) : (s.writeStatus v).cmdreg = s.cmdreg := rfl
@[simp] theorem State.writeStatus_errcmd (v : Word) : (s.writeStatus v).errcmd = s.errcmd := rfl
@[simp] theorem State.writeStatus_kgtries (v : Word) : (s.writeStatus v).kgtries = s.kgtries := rfl
@[simp] theorem State.writeStatus_curcmd (v : Word) : (s.writeStatus v).curcmd = s.curcmd := rfl
@[simp] theorem State.writeStatus_curstrat (v : Word) :
    (s.writeStatus v).curstrat = s.curstrat := rfl
@[simp] theorem State.writeStatus_abreq (v : Word) : (s.writeStatus v).abreq = s.abreq := rfl
@[simp] theorem State.writeStatus_kgcount (v : Word) : (s.writeStatus v).kgcount = s.kgcount := rfl
@[simp] theorem State.writeStatus_oracle (v : Word) : (s.writeStatus v).oracle = s.oracle := rfl
@[simp] theorem State.writeStatus_inputs (v : Word) : (s.writeStatus v).inputs = s.inputs := rfl
@[simp] theorem State.writeStatus_response (v : Word) :
    (s.writeStatus v).response = s.response := rfl

@[simp] theorem State.setP_getTag (r : PReg) (v : Poly) (x : PReg) : (s.setP r v).getTag x = s.getTag x := rfl
@[simp] theorem State.setP_getS (r : PReg) (v : Poly) (x : SReg) : (s.setP r v).getS x = s.getS x := rfl

@[simp] theorem State.setTag_getP (r : PReg) (g : Tag) (x : PReg) : (s.setTag r g).getP x = s.getP x := rfl
@[simp] theorem State.setTag_getS (r : PReg) (g : Tag) (x : SReg) : (s.setTag r g).getS x = s.getS x := rfl

@[simp] theorem State.setS_getP (r : SReg) (v : Nat) (x : PReg) : (s.setS r v).getP x = s.getP x := rfl
@[simp] theorem State.setS_getTag (r : SReg) (v : Nat) (x : PReg) : (s.setS r v).getTag x = s.getTag x := rfl

@[simp] theorem State.setEq_getP (b : Bool) (x : PReg) : (s.setEq b).getP x = s.getP x := rfl
@[simp] theorem State.setEq_getTag (b : Bool) (x : PReg) : (s.setEq b).getTag x = s.getTag x := rfl
@[simp] theorem State.setEq_getS (b : Bool) (x : SReg) : (s.setEq b).getS x = s.getS x := rfl

@[simp] theorem State.raiseNoisew_getP (b : Bool) (x : PReg) : (s.raiseNoisew b).getP x = s.getP x := rfl
@[simp] theorem State.raiseNoisew_getTag (b : Bool) (x : PReg) : (s.raiseNoisew b).getTag x = s.getTag x := rfl
@[simp] theorem State.raiseNoisew_getS (b : Bool) (x : SReg) : (s.raiseNoisew b).getS x = s.getS x := rfl

@[simp] theorem State.raiseDepthx_getP (g : Tag) (x : PReg) : (s.raiseDepthx g).getP x = s.getP x := rfl
@[simp] theorem State.raiseDepthx_getTag (g : Tag) (x : PReg) : (s.raiseDepthx g).getTag x = s.getTag x := rfl
@[simp] theorem State.raiseDepthx_getS (g : Tag) (x : SReg) : (s.raiseDepthx g).getS x = s.getS x := rfl

@[simp] theorem State.withOracle_getP (o : Oracle) (x : PReg) : (s.withOracle o).getP x = s.getP x := rfl
@[simp] theorem State.withOracle_getTag (o : Oracle) (x : PReg) : (s.withOracle o).getTag x = s.getTag x := rfl
@[simp] theorem State.withOracle_getS (o : Oracle) (x : SReg) : (s.withOracle o).getS x = s.getS x := rfl

@[simp] theorem State.accept_getP (w : Word) (x : PReg) : (s.accept w).getP x = s.getP x := rfl
@[simp] theorem State.accept_getTag (w : Word) (x : PReg) : (s.accept w).getTag x = s.getTag x := rfl
@[simp] theorem State.accept_getS (w : Word) (x : SReg) : (s.accept w).getS x = s.getS x := rfl

@[simp] theorem State.complete_getP (e : ErrCode) (x : PReg) : (s.complete e).getP x = s.getP x := rfl
@[simp] theorem State.complete_getTag (e : ErrCode) (x : PReg) : (s.complete e).getTag x = s.getTag x := rfl
@[simp] theorem State.complete_getS (e : ErrCode) (x : SReg) : (s.complete e).getS x = s.getS x := rfl

@[simp] theorem State.busError_getP (d : List Byte) (x : PReg) : (s.busError d).getP x = s.getP x := rfl
@[simp] theorem State.busError_getTag (d : List Byte) (x : PReg) : (s.busError d).getTag x = s.getTag x := rfl
@[simp] theorem State.busError_getS (d : List Byte) (x : SReg) : (s.busError d).getS x = s.getS x := rfl

@[simp] theorem State.writeCtrl_getP (v : Word) (x : PReg) : (s.writeCtrl v).getP x = s.getP x := rfl
@[simp] theorem State.writeCtrl_getTag (v : Word) (x : PReg) : (s.writeCtrl v).getTag x = s.getTag x := rfl
@[simp] theorem State.writeCtrl_getS (v : Word) (x : SReg) : (s.writeCtrl v).getS x = s.getS x := rfl

@[simp] theorem State.writeStatus_getP (v : Word) (x : PReg) : (s.writeStatus v).getP x = s.getP x := rfl
@[simp] theorem State.writeStatus_getTag (v : Word) (x : PReg) : (s.writeStatus v).getTag x = s.getTag x := rfl
@[simp] theorem State.writeStatus_getS (v : Word) (x : SReg) : (s.writeStatus v).getS x = s.getS x := rfl

@[simp] theorem State.setP_getP (r : PReg) (v : Poly) (x : PReg) :
    (s.setP r v).getP x = if x = r then v else s.getP x := by
  by_cases h : x = r
  · subst h; simp [State.getP, State.setP]
  · have h' : r.val ≠ x.val := fun e => h (Fin.ext e.symm)
    simp [State.getP, State.setP, h, h']

@[simp] theorem State.setTag_getTag (r : PReg) (g : Tag) (x : PReg) :
    (s.setTag r g).getTag x = if x = r then g else s.getTag x := by
  by_cases h : x = r
  · subst h; simp [State.getTag, State.setTag]
  · have h' : r.val ≠ x.val := fun e => h (Fin.ext e.symm)
    simp [State.getTag, State.setTag, h, h']

@[simp] theorem State.setS_getS (r : SReg) (v : Nat) (x : SReg) :
    (s.setS r v).getS x = if x = r then v else s.getS x := by
  by_cases h : x = r
  · subst h; simp [State.getS, State.setS]
  · have h' : r.val ≠ x.val := fun e => h (Fin.ext e.symm)
    simp [State.getS, State.setS, h, h']

@[simp] theorem State.setPT_cfg (r : PReg) (v : Poly) (g : Tag) : (s.setPT r v g).cfg = s.cfg := rfl
@[simp] theorem State.setPT_sc (r : PReg) (v : Poly) (g : Tag) : (s.setPT r v g).sc = s.sc := rfl
@[simp] theorem State.setPT_ie (r : PReg) (v : Poly) (g : Tag) : (s.setPT r v g).ie = s.ie := rfl
@[simp] theorem State.setPT_mulstrat (r : PReg) (v : Poly) (g : Tag) : (s.setPT r v g).mulstrat = s.mulstrat := rfl
@[simp] theorem State.setPT_busy (r : PReg) (v : Poly) (g : Tag) : (s.setPT r v g).busy = s.busy := rfl
@[simp] theorem State.setPT_done (r : PReg) (v : Poly) (g : Tag) : (s.setPT r v g).done = s.done := rfl
@[simp] theorem State.setPT_err (r : PReg) (v : Poly) (g : Tag) : (s.setPT r v g).err = s.err := rfl
@[simp] theorem State.setPT_eq (r : PReg) (v : Poly) (g : Tag) : (s.setPT r v g).eq = s.eq := rfl
@[simp] theorem State.setPT_noisew (r : PReg) (v : Poly) (g : Tag) : (s.setPT r v g).noisew = s.noisew := rfl
@[simp] theorem State.setPT_depthx (r : PReg) (v : Poly) (g : Tag) : (s.setPT r v g).depthx = s.depthx := rfl
@[simp] theorem State.setPT_cmdovr (r : PReg) (v : Poly) (g : Tag) : (s.setPT r v g).cmdovr = s.cmdovr := rfl
@[simp] theorem State.setPT_hosterr (r : PReg) (v : Poly) (g : Tag) : (s.setPT r v g).hosterr = s.hosterr := rfl
@[simp] theorem State.setPT_cmdreg (r : PReg) (v : Poly) (g : Tag) : (s.setPT r v g).cmdreg = s.cmdreg := rfl
@[simp] theorem State.setPT_errcmd (r : PReg) (v : Poly) (g : Tag) : (s.setPT r v g).errcmd = s.errcmd := rfl
@[simp] theorem State.setPT_kgtries (r : PReg) (v : Poly) (g : Tag) : (s.setPT r v g).kgtries = s.kgtries := rfl
@[simp] theorem State.setPT_curcmd (r : PReg) (v : Poly) (g : Tag) : (s.setPT r v g).curcmd = s.curcmd := rfl
@[simp] theorem State.setPT_curstrat (r : PReg) (v : Poly) (g : Tag) : (s.setPT r v g).curstrat = s.curstrat := rfl
@[simp] theorem State.setPT_abreq (r : PReg) (v : Poly) (g : Tag) : (s.setPT r v g).abreq = s.abreq := rfl
@[simp] theorem State.setPT_kgcount (r : PReg) (v : Poly) (g : Tag) : (s.setPT r v g).kgcount = s.kgcount := rfl
@[simp] theorem State.setPT_oracle (r : PReg) (v : Poly) (g : Tag) : (s.setPT r v g).oracle = s.oracle := rfl
@[simp] theorem State.setPT_inputs (r : PReg) (v : Poly) (g : Tag) : (s.setPT r v g).inputs = s.inputs := rfl
@[simp] theorem State.setPT_response (r : PReg) (v : Poly) (g : Tag) : (s.setPT r v g).response = s.response := rfl

@[simp] theorem State.setPT_getS (r : PReg) (v : Poly) (g : Tag) (x : SReg) :
    (s.setPT r v g).getS x = s.getS x := rfl

@[simp] theorem State.setPT_getP (r : PReg) (v : Poly) (g : Tag) (x : PReg) :
    (s.setPT r v g).getP x = if x = r then v else s.getP x := by
  simp [State.setPT]

@[simp] theorem State.setPT_getTag (r : PReg) (v : Poly) (g : Tag) (x : PReg) :
    (s.setPT r v g).getTag x = if x = r then g else s.getTag x := by
  simp [State.setPT]

@[simp] theorem State.setGroup_cfg (vs : List Poly) (b : Nat) (s : State) :
    (s.setGroup b vs).cfg = s.cfg := by
  induction vs generalizing b s with
  | nil => rfl
  | cons v vs ih => rw [State.setGroup, ih]; rfl
@[simp] theorem State.setGroup_sc (vs : List Poly) (b : Nat) (s : State) :
    (s.setGroup b vs).sc = s.sc := by
  induction vs generalizing b s with
  | nil => rfl
  | cons v vs ih => rw [State.setGroup, ih]; rfl
@[simp] theorem State.setGroup_ie (vs : List Poly) (b : Nat) (s : State) :
    (s.setGroup b vs).ie = s.ie := by
  induction vs generalizing b s with
  | nil => rfl
  | cons v vs ih => rw [State.setGroup, ih]; rfl
@[simp] theorem State.setGroup_mulstrat (vs : List Poly) (b : Nat) (s : State) :
    (s.setGroup b vs).mulstrat = s.mulstrat := by
  induction vs generalizing b s with
  | nil => rfl
  | cons v vs ih => rw [State.setGroup, ih]; rfl
@[simp] theorem State.setGroup_busy (vs : List Poly) (b : Nat) (s : State) :
    (s.setGroup b vs).busy = s.busy := by
  induction vs generalizing b s with
  | nil => rfl
  | cons v vs ih => rw [State.setGroup, ih]; rfl
@[simp] theorem State.setGroup_done (vs : List Poly) (b : Nat) (s : State) :
    (s.setGroup b vs).done = s.done := by
  induction vs generalizing b s with
  | nil => rfl
  | cons v vs ih => rw [State.setGroup, ih]; rfl
@[simp] theorem State.setGroup_err (vs : List Poly) (b : Nat) (s : State) :
    (s.setGroup b vs).err = s.err := by
  induction vs generalizing b s with
  | nil => rfl
  | cons v vs ih => rw [State.setGroup, ih]; rfl
@[simp] theorem State.setGroup_eq (vs : List Poly) (b : Nat) (s : State) :
    (s.setGroup b vs).eq = s.eq := by
  induction vs generalizing b s with
  | nil => rfl
  | cons v vs ih => rw [State.setGroup, ih]; rfl
@[simp] theorem State.setGroup_noisew (vs : List Poly) (b : Nat) (s : State) :
    (s.setGroup b vs).noisew = s.noisew := by
  induction vs generalizing b s with
  | nil => rfl
  | cons v vs ih => rw [State.setGroup, ih]; rfl
@[simp] theorem State.setGroup_depthx (vs : List Poly) (b : Nat) (s : State) :
    (s.setGroup b vs).depthx = s.depthx := by
  induction vs generalizing b s with
  | nil => rfl
  | cons v vs ih => rw [State.setGroup, ih]; rfl
@[simp] theorem State.setGroup_cmdovr (vs : List Poly) (b : Nat) (s : State) :
    (s.setGroup b vs).cmdovr = s.cmdovr := by
  induction vs generalizing b s with
  | nil => rfl
  | cons v vs ih => rw [State.setGroup, ih]; rfl
@[simp] theorem State.setGroup_hosterr (vs : List Poly) (b : Nat) (s : State) :
    (s.setGroup b vs).hosterr = s.hosterr := by
  induction vs generalizing b s with
  | nil => rfl
  | cons v vs ih => rw [State.setGroup, ih]; rfl
@[simp] theorem State.setGroup_cmdreg (vs : List Poly) (b : Nat) (s : State) :
    (s.setGroup b vs).cmdreg = s.cmdreg := by
  induction vs generalizing b s with
  | nil => rfl
  | cons v vs ih => rw [State.setGroup, ih]; rfl
@[simp] theorem State.setGroup_errcmd (vs : List Poly) (b : Nat) (s : State) :
    (s.setGroup b vs).errcmd = s.errcmd := by
  induction vs generalizing b s with
  | nil => rfl
  | cons v vs ih => rw [State.setGroup, ih]; rfl
@[simp] theorem State.setGroup_kgtries (vs : List Poly) (b : Nat) (s : State) :
    (s.setGroup b vs).kgtries = s.kgtries := by
  induction vs generalizing b s with
  | nil => rfl
  | cons v vs ih => rw [State.setGroup, ih]; rfl
@[simp] theorem State.setGroup_curcmd (vs : List Poly) (b : Nat) (s : State) :
    (s.setGroup b vs).curcmd = s.curcmd := by
  induction vs generalizing b s with
  | nil => rfl
  | cons v vs ih => rw [State.setGroup, ih]; rfl
@[simp] theorem State.setGroup_curstrat (vs : List Poly) (b : Nat) (s : State) :
    (s.setGroup b vs).curstrat = s.curstrat := by
  induction vs generalizing b s with
  | nil => rfl
  | cons v vs ih => rw [State.setGroup, ih]; rfl
@[simp] theorem State.setGroup_abreq (vs : List Poly) (b : Nat) (s : State) :
    (s.setGroup b vs).abreq = s.abreq := by
  induction vs generalizing b s with
  | nil => rfl
  | cons v vs ih => rw [State.setGroup, ih]; rfl
@[simp] theorem State.setGroup_kgcount (vs : List Poly) (b : Nat) (s : State) :
    (s.setGroup b vs).kgcount = s.kgcount := by
  induction vs generalizing b s with
  | nil => rfl
  | cons v vs ih => rw [State.setGroup, ih]; rfl
@[simp] theorem State.setGroup_oracle (vs : List Poly) (b : Nat) (s : State) :
    (s.setGroup b vs).oracle = s.oracle := by
  induction vs generalizing b s with
  | nil => rfl
  | cons v vs ih => rw [State.setGroup, ih]; rfl
@[simp] theorem State.setGroup_inputs (vs : List Poly) (b : Nat) (s : State) :
    (s.setGroup b vs).inputs = s.inputs := by
  induction vs generalizing b s with
  | nil => rfl
  | cons v vs ih => rw [State.setGroup, ih]; rfl
@[simp] theorem State.setGroup_response (vs : List Poly) (b : Nat) (s : State) :
    (s.setGroup b vs).response = s.response := by
  induction vs generalizing b s with
  | nil => rfl
  | cons v vs ih => rw [State.setGroup, ih]; rfl

@[simp] theorem State.setGroup_getS (vs : List Poly) (b : Nat) (s : State) (x : SReg) :
    (s.setGroup b vs).getS x = s.getS x := by simp [State.getS]

/-- What a group write leaves in each register: the group's own value inside the group, the old
one outside. -/
theorem State.setGroup_getP (vs : List Poly) (b : Nat) (s : State) (x : PReg)
    (h : b + vs.length ≤ 16) :
    (s.setGroup b vs).getP x =
      if b ≤ x.val ∧ x.val < b + vs.length then vs.getD (x.val - b) [] else s.getP x := by
  induction vs generalizing b s with
  | nil => simp [State.setGroup]
  | cons v vs ih =>
    simp only [List.length_cons] at h
    rw [State.setGroup, ih _ _ (by omega), State.setPT_getP]
    have hb : ∀ y : Fin 16, y = Fin.ofNat 16 b ↔ y.val = b := fun y =>
      ⟨fun e => by rw [e]; simp [Fin.ofNat]; omega, fun e => Fin.ext (by simp [Fin.ofNat]; omega)⟩
    simp only [hb, List.length_cons]
    by_cases h1 : x.val = b
    · rw [if_neg (by omega), if_pos h1, if_pos (by omega), h1]; simp
    · by_cases h2 : b + 1 ≤ x.val ∧ x.val < b + 1 + vs.length
      · rw [if_pos h2, if_pos (by omega), show x.val - b = (x.val - (b + 1)) + 1 by omega]; simp
      · rw [if_neg h2, if_neg h1, if_neg (by omega)]

theorem State.setGroup_getTag (vs : List Poly) (b : Nat) (s : State) (x : PReg)
    (h : b + vs.length ≤ 16) :
    (s.setGroup b vs).getTag x =
      if b ≤ x.val ∧ x.val < b + vs.length then .plain else s.getTag x := by
  induction vs generalizing b s with
  | nil => simp [State.setGroup]
  | cons v vs ih =>
    simp only [List.length_cons] at h
    rw [State.setGroup, ih _ _ (by omega), State.setPT_getTag]
    have hb : ∀ y : Fin 16, y = Fin.ofNat 16 b ↔ y.val = b := fun y =>
      ⟨fun e => by rw [e]; simp [Fin.ofNat]; omega, fun e => Fin.ext (by simp [Fin.ofNat]; omega)⟩
    simp only [hb, List.length_cons]
    by_cases h1 : x.val = b
    · rw [if_neg (by omega), if_pos h1, if_pos (by omega)]
    · by_cases h2 : b + 1 ≤ x.val ∧ x.val < b + 1 + vs.length
      · rw [if_pos h2, if_pos (by omega)]
      · rw [if_neg h2, if_neg h1, if_neg (by omega)]

end Sys2Proof.Machine
end

