-- ==== Sys2Proof/Laws/Ops.lean ====
section
/-! SUPPORT. What the shared operations can do, once each: the completion of a command
(60_exceptions.md R304), the frame every command runs in (R313), and a pass of YKEYGEN
(45_yashe.md R271). -/

namespace Sys2Proof.Machine

variable {s t : State}

/-! ### Completion -/

theorem complete_error (e : ErrCode) (h : e ≠ .noError) : s.complete e = s.failed e := by
  simp [State.complete, State.failed, h]

theorem complete_noError : s.complete .noError = s.finished := rfl

theorem setS_complete (r : SReg) (v : Nat) : (s.setS r v).complete .noError = s.finishedS r v := rfl

theorem setPT_complete (r : PReg) (v : Poly) (g : Tag) :
    (s.setPT r v g).complete .noError = s.finishedP r v g := rfl

/-! ### The frame of a command -/

theorem runCommand_ok (u : State) (h : s.abreq = false) :
    s.runCommand none (.ok u) = u.complete .noError := by
  simp [State.runCommand, h]

theorem runCommand_error (e : ErrCode) (h : s.abreq = false) :
    s.runCommand none (.error e) = s.complete e := by
  simp [State.runCommand, h]

theorem runCommand_abort (r : Except ErrCode State) (h : s.abreq = true) :
    s.runCommand none r = s.complete .aborted := by
  simp [State.runCommand, h]

@[simp] theorem runCommand_check (e : ErrCode) (r : Except ErrCode State) :
    s.runCommand (some e) r = s.complete e := rfl

/-- Everything the frame can do. -/
theorem runCommand_cases (c : Option ErrCode) (r : Except ErrCode State)
    (h : s.runCommand c r = t) :
    (∃ e, c = some e ∧ t = s.complete e) ∨
    (c = none ∧ s.abreq = true ∧ t = s.complete .aborted) ∨
    (∃ e, c = none ∧ s.abreq = false ∧ r = .error e ∧ t = s.complete e) ∨
    (∃ u, c = none ∧ s.abreq = false ∧ r = .ok u ∧ t = u.complete .noError) := by
  cases c with
  | some e => exact .inl ⟨e, rfl, h.symm⟩
  | none =>
    cases ha : s.abreq with
    | true => rw [runCommand_abort r ha] at h; exact .inr (.inl ⟨rfl, rfl, h.symm⟩)
    | false =>
      cases r with
      | error e =>
        rw [runCommand_error e ha] at h; exact .inr (.inr (.inl ⟨e, rfl, rfl, rfl, h.symm⟩))
      | ok u => rw [runCommand_ok u ha] at h; exact .inr (.inr (.inr ⟨u, rfl, rfl, rfl, h.symm⟩))

/-! ### The range checks are those of `rangeError` -/

theorem checkSplit_eq (rd ra : PReg) (k : Nat) :
    checkSplit s.cfg rd k (s.getP ra) = rangeError s (.psplit rd ra k) := by
  have h : ((2 ^ k : Nat) : Int) = (2 : Int) ^ k := by push_cast; rfl
  have h1 : (14 < rd.val) = (rd.val = 15) := propext (by have := rd.isLt; omega)
  have h2 : ((2 : Int) ^ k ≤ deg (s.getP ra)) = (2 ^ k < (s.getP ra).length) :=
    propext (by unfold deg; omega)
  unfold checkSplit rangeError
  simp only [h1, h2]
  split
  · rfl
  · by_cases ha : k = 0 ∨ s.cfg.cap < 2 ^ k
    · rw [if_pos ha, if_pos (by tauto)]
    · rw [if_neg ha]
      by_cases hb : 2 ^ k < (s.getP ra).length
      · rw [if_pos hb, if_pos (by tauto)]
      · rw [if_neg hb, if_neg (by tauto)]

theorem checkSplitK_eq (rd ra : PReg) (k l : Nat) :
    checkSplitK s.cfg rd k l (s.getP ra) = rangeError s (.psplitk rd ra k l) := by
  have h : ((2 ^ k : Nat) : Int) = (2 : Int) ^ k := by push_cast; rfl
  have h1 : (15 < rd.val + 2 ^ l - 1) = (16 < rd.val + 2 ^ l) := propext (by omega)
  have h2 : ((2 : Int) ^ k ≤ deg (s.getP ra)) = (2 ^ k < (s.getP ra).length) :=
    propext (by unfold deg; omega)
  unfold checkSplitK rangeError
  simp only [h1, h2]
  split
  · rfl
  · by_cases ha : s.cfg.cap < 2 ^ k ∨ k < l
    · rw [if_pos ha, if_pos (by tauto)]
    · rw [if_neg ha]
      by_cases hb : 2 ^ k < (s.getP ra).length
      · rw [if_pos hb, if_pos (by tauto)]
      · rw [if_neg hb, if_neg (by tauto)]

theorem checkKeyGroup_eq (rd : PReg) : checkKeyGroup rd = rangeError s (.ykeygen rd) := by
  unfold checkKeyGroup rangeError
  simp only []
  split <;> split <;> first | rfl | omega

/-! ### One pass of YKEYGEN -/

/-- Everything a pass can do: go on with the next candidate, or complete with the key. -/
theorem keygenPass_cases (rd : PReg) :
    (∃ o, s.keygenPass rd = { s with kgcount := satInc s.kgcount, oracle := o }) ∨
    (∃ o f fi sk ski h, s.keygenPass rd =
      (State.setGroup { s with
        kgcount := satInc s.kgcount, kgtries := satInc s.kgcount, oracle := o } rd
        [f, fi, sk, ski, h]).complete .noError) := by
  generalize hf : sampleG s.cfg s.oracle = f
  cases hk : keyCandidate s.cfg f.1 with
  | none => exact .inl ⟨f.2, by simp only [State.keygenPass, hf, hk]⟩
  | some k =>
    obtain ⟨fi, sk, ski⟩ := k
    exact .inr ⟨(sampleG s.cfg f.2).2, f.1, fi, sk, ski,
      publicKey s.curstrat s.cfg (sampleG s.cfg f.2).1 ski, by
        simp only [State.keygenPass, hf, hk]⟩

end Sys2Proof.Machine
end

