-- ==== Sys2Proof/Laws/Exec.lean ====
section
/-! SUPPORT. The shape of every command: which fields its execution can write
(60_exceptions.md R304, R313), so that a claim about all commands needs no meaning unfolded. -/

namespace Sys2Proof.Machine

/-- `u` differs from `s` at most in what a command's execution may write: the register files,
EQ, NOISEW, DEPTHX and the oracle. -/
def SameBut (s u : State) : Prop :=
  u = { s with p := u.p, sc := u.sc, tag := u.tag, eq := u.eq, noisew := u.noisew,
               depthx := u.depthx, oracle := u.oracle }

theorem SameBut.refl (s : State) : SameBut s s := rfl

theorem sameBut_setGroup (s : State) (b : Nat) (vs : List Poly) : SameBut s (s.setGroup b vs) := by
  unfold SameBut; apply State.ext <;> simp

/-- A command other than YKEYGEN runs in the frame of R313, with the range checks of
`rangeError`; its execution writes only what `SameBut` allows, and its own errors are neither
NONE nor ABORTED. -/
theorem exec_shape (i : Instr) (s : State) (h : isKeygen i = false) :
    ∃ r, exec i s = .next (s.runCommand (rangeError s i) r) ∧ (∀ u, r = .ok u → SameBut s u) ∧
      ∀ e, r = .error e → e ≠ .noError ∧ e ≠ .aborted := by
  have hok : ∀ u, SameBut s u → ∃ r : Except ErrCode State,
      (Host.Outcome.next (s.runCommand none (.ok u)) : Host.Outcome State Fault Refusal) =
        .next (s.runCommand none r) ∧ (∀ u, r = .ok u → SameBut s u) ∧
      ∀ e, r = .error e → e ≠ .noError ∧ e ≠ .aborted := fun u hu =>
    ⟨.ok u, rfl, fun _ h => by cases h; exact hu, fun _ h => by cases h⟩
  cases i with
  | ykeygen rd => cases h
  | finv rd ra =>
    refine ⟨_, rfl, fun u hu => ?_, fun e he => ?_⟩
    · split at hu <;> cases hu; rfl
    · split at he <;> cases he; decide
  | fdiv rd ra rb =>
    refine ⟨_, rfl, fun u hu => ?_, fun e he => ?_⟩
    · split at hu <;> cases hu; rfl
    · split at he <;> cases he; decide
  | pmulf rd ra rb =>
    refine ⟨_, rfl, fun u hu => ?_, fun e he => ?_⟩
    · split at hu <;> cases hu; rfl
    · split at he <;> cases he; decide
  | pinv rd ra =>
    refine ⟨_, rfl, fun u hu => ?_, fun e he => ?_⟩
    · split at hu <;> cases hu; rfl
    · split at he <;> cases he
      rename_i hi
      unfold ringInverse at hi
      dsimp only at hi
      split at hi
      · cases hi; decide
      · split at hi <;> cases hi; decide
  | pmono rd k => exact ⟨_, rfl, fun u hu => by cases hu; rfl, fun e he => by cases he⟩
  | pgetc rd ra k => exact ⟨_, rfl, fun u hu => by cases hu; rfl, fun e he => by cases he⟩
  | psetc rd ra k => exact ⟨_, rfl, fun u hu => by cases hu; rfl, fun e he => by cases he⟩
  | psplit rd ra k =>
    rw [← checkSplit_eq]
    exact ⟨_, rfl, fun u hu => by cases hu; exact sameBut_setGroup _ _ _, fun e he => by cases he⟩
  | psplitk rd ra k l =>
    rw [← checkSplitK_eq]
    exact ⟨_, rfl, fun u hu => by cases hu; exact sameBut_setGroup _ _ _, fun e he => by cases he⟩
  | _ => exact hok _ rfl

/-- YKEYGEN's unit step: the group check, the abort, or a pass. -/
theorem exec_keygen (rd : PReg) (s : State) :
    exec (.ykeygen rd) s = .next (match rangeError s (.ykeygen rd) with
      | some e => s.complete e
      | none => if s.abreq then State.complete { s with kgtries := s.kgcount } .aborted
                else s.keygenPass rd) := by
  rw [← checkKeyGroup_eq (s := s)]; rfl

/-- No command stops (60_exceptions.md R300). -/
theorem exec_next (i : Instr) (s : State) : ∃ t, exec i s = .next t := by
  cases h : isKeygen i with
  | false => obtain ⟨r, hr, -⟩ := exec_shape i s h; exact ⟨_, hr⟩
  | true =>
    cases i <;> first | (cases h; done) | exact ⟨_, exec_keygen _ s⟩

end Sys2Proof.Machine
end

