-- ==== Sys2Proof/Laws/Bus.lean ====
section
/-! SUPPORT. What one step does for each event, what a host access can do, and the arithmetic of
the host's views (20_memory.md R61 to R73). -/

namespace Sys2Proof.Machine

variable {s : State}

/-! ### One step, by event -/

theorem step_nil (h : s.inputs = []) : step s = s.unitStep := by
  simp [step, State.advance, h]

theorem step_cons (e : Event) (es : List Event) (h : s.inputs = e :: es) :
    step s = State.perform { s with inputs := es } e := by
  simp [step, State.advance, h]

/-- Everything a step can be: a unit step, or one event's effect. -/
theorem step_eq (s : State) :
    (s.inputs = [] ∧ step s = s.unitStep) ∨
    ∃ e es, s.inputs = e :: es ∧ step s = State.perform { s with inputs := es } e := by
  cases h : s.inputs with
  | nil => exact .inl ⟨rfl, step_nil h⟩
  | cons e es => exact .inr ⟨e, es, rfl, step_cons e es h⟩

theorem unitStep_idle (h : s.busy = false) : s.unitStep = .next s := by
  simp [State.unitStep, h]

theorem unitStep_busy (h : s.busy = true) : s.unitStep = s.runWord s.curcmd := by
  simp [State.unitStep, h]

theorem runWord_ok {w : Word} {i : Instr} (h : decode w = .ok i) : s.runWord w = exec i s := by
  simp [State.runWord, h]

theorem runWord_error {w : Word} {e : DecodeError} (h : decode w = .error e) :
    s.runWord w = .next (s.complete (decodeErrorCode e)) := by
  simp [State.runWord, h]

/-! ### Host accesses -/

/-- Everything a read can do. -/
theorem busRead_cases (addr : BitVec 32) (n : Nat) :
    (s.reach addr n = none ∧ s.busRead addr n = s.busError (List.replicate n 0)) ∨
    ∃ tgt, s.reach addr n = some tgt ∧
      s.busRead addr n = { s with response := some ⟨false, s.targetBytes tgt⟩ } := by
  unfold State.busRead
  cases h : s.reach addr n with
  | none => exact .inl ⟨rfl, rfl⟩
  | some tgt => exact .inr ⟨tgt, rfl, rfl⟩

/-- Everything a write can do. -/
theorem busWrite_cases (addr : BitVec 32) (bs : List Byte) :
    s.busWrite addr bs = s.busError [] ∨
    ∃ tgt u, s.reach addr bs.length = some tgt ∧ s.writeTarget tgt bs = some u ∧
      s.busWrite addr bs = { u with response := some ⟨false, []⟩ } := by
  unfold State.busWrite
  cases h : s.reach addr bs.length with
  | none => exact .inl rfl
  | some tgt =>
    cases hu : s.writeTarget tgt bs with
    | none => exact .inl (by simp [hu])
    | some u => exact .inr ⟨tgt, u, rfl, hu, by simp [hu]⟩

theorem reach_idle (addr : BitVec 32) (n : Nat) (h : s.busy = false) :
    s.reach addr n = targetOf s.cfg addr.toNat n := by
  unfold State.reach; cases targetOf s.cfg addr.toNat n <;> simp [h]

/-- While busy an access to the data registers reaches nothing (R71). -/
theorem reach_busy (addr : BitVec 32) (n : Nat) (h : s.busy = true) :
    s.reach addr n = (targetOf s.cfg addr.toNat n).filter fun tgt => !tgt.isData := by
  unfold State.reach
  cases targetOf s.cfg addr.toNat n with
  | none => rfl
  | some tgt => cases hd : tgt.isData <;> simp [h, hd, Option.filter]

/-- What a write of a mapped register can do: a CSR's own effect, one scalar, one coefficient. -/
theorem writeTarget_cases {tgt : Target} {bs : List Byte} {u : State}
    (h : s.writeTarget tgt bs = some u) :
    (∃ r, tgt = .csr r ∧ u = s.writeCsr r (BitVec.ofNat 32 (leValue bs))) ∨
    (tgt = .cfgQ ∧ u = s) ∨
    (∃ sg r v, tgt = .scalar sg r ∧ viewValue s.cfg sg bs = some v ∧ u = s.setS r v) ∨
    (∃ sg p i v, tgt = .coeff sg p i ∧ viewValue s.cfg sg bs = some v ∧
      u = s.setP p (setCoef s.cfg.cap (s.getP p) i v)) := by
  cases tgt with
  | csr r => exact .inl ⟨r, rfl, (Option.some.inj h).symm⟩
  | cfgQ => exact .inr (.inl ⟨rfl, (Option.some.inj h).symm⟩)
  | scalar sg r =>
    obtain ⟨v, hv, hu⟩ := Option.map_eq_some_iff.mp h
    exact .inr (.inr (.inl ⟨sg, r, v, rfl, hv, hu.symm⟩))
  | coeff sg p i =>
    obtain ⟨v, hv, hu⟩ := Option.map_eq_some_iff.mp h
    exact .inr (.inr (.inr ⟨sg, p, i, v, rfl, hv, hu.symm⟩))

/-- A value a view lets through is a residue (R66, R68). -/
theorem viewValue_lt {c : Config} {sg : Bool} {bs : List Byte} {v : Nat} (hq : 0 < c.q)
    (h : viewValue c sg bs = some v) : v < c.q := by
  have h0 : (0 : Int) < c.q := by omega
  cases sg with
  | false =>
    simp only [viewValue, Bool.false_eq_true, if_false] at h
    split at h <;> cases h
    omega
  | true =>
    simp only [viewValue, if_true] at h
    split at h <;> cases h
    have h1 := Int.emod_nonneg (leSigned bs) (show (c.q : Int) ≠ 0 by omega)
    have h2 := Int.emod_lt_of_pos (leSigned bs) h0
    unfold residue; omega

/-- An index a coefficient window names is below CAP (R61). -/
theorem targetOf_coeff_lt {c : Config} {a n i : Nat} {sg : Bool} {p : PReg}
    (h : targetOf c a n = some (.coeff sg p i)) : i < c.cap := by
  unfold targetOf coeffAt at h
  dsimp only at h
  repeat' split at h
  all_goals first
    | (cases h; done)
    | (cases h; assumption)
    | (cases hc : csrAt a <;> simp [hc] at h)

/-! ### Bytes -/

theorem length_leBytes (n v : Nat) : (leBytes n v).length = n := by
  induction n generalizing v with
  | zero => rfl
  | succ n ih => simp [leBytes, ih]

theorem leValue_leBytes (n v : Nat) : leValue (leBytes n v) = v % 256 ^ n := by
  induction n generalizing v with
  | zero => simp [leBytes, leValue, Nat.mod_one]
  | succ n ih =>
    simp only [leBytes, leValue, ih, BitVec.toNat_ofNat]
    have h : 256 ^ (n + 1) = 256 * 256 ^ n := by ring
    rw [h, Nat.mod_mul]

end Sys2Proof.Machine
end

