-- ==== Sys2Proof/Laws/Encoding.lean ====
section
/-! SUPPORT. The fields of an encoded word (30_encoding.md R91 to R95) and masks as fields. -/

namespace Sys2Proof

theorem and_field (a k n : Nat) : a &&& ((2 ^ n - 1) * 2 ^ k) = a / 2 ^ k % 2 ^ n * 2 ^ k := by
  apply Nat.eq_of_testBit_eq
  intro i
  simp only [Nat.testBit_and, Nat.testBit_mul_two_pow, Nat.testBit_mod_two_pow,
    Nat.testBit_div_two_pow, Nat.testBit_two_pow_sub_one]
  by_cases h : k ≤ i <;> simp [h, Bool.and_comm]

/-- A masked field is 0 when the field is. -/
theorem and_field_eq_zero {a k n : Nat} : a &&& ((2 ^ n - 1) * 2 ^ k) = 0 ↔ a / 2 ^ k % 2 ^ n = 0 := by
  rw [and_field]; simp

/-- A mask of two fields. -/
theorem and_two_fields_eq_zero {a k n l m x : Nat}
    (hx : x = (2 ^ n - 1) * 2 ^ k ||| (2 ^ m - 1) * 2 ^ l) :
    a &&& x = 0 ↔ a / 2 ^ k % 2 ^ n = 0 ∧ a / 2 ^ l % 2 ^ m = 0 := by
  rw [hx, Nat.and_or_distrib_left, Nat.or_eq_zero_iff, and_field_eq_zero, and_field_eq_zero]

theorem toNat_formatR {opc rd ra rb fn : Nat} (ho : opc < 256) (h1 : rd < 16) (h2 : ra < 16)
    (h3 : rb < 16) (h4 : fn < 4096) : (formatR opc rd ra rb fn).toNat =
      opc * 2 ^ 24 + rd * 2 ^ 20 + ra * 2 ^ 16 + rb * 2 ^ 12 + fn := by
  rw [formatR, BitVec.toNat_ofNat, Nat.mod_eq_of_lt (by omega)]

theorem toNat_formatI {opc rd imm : Nat} (ho : opc < 256) (h1 : rd < 16) (h2 : imm < 2 ^ 20) :
    (formatI opc rd imm).toNat = opc * 2 ^ 24 + rd * 2 ^ 20 + imm := by
  rw [formatI, BitVec.toNat_ofNat, Nat.mod_eq_of_lt (by omega)]

theorem toNat_formatX {opc rd ra idx : Nat} (ho : opc < 256) (h1 : rd < 16) (h2 : ra < 16)
    (h3 : idx < 2 ^ 16) :
    (formatX opc rd ra idx).toNat = opc * 2 ^ 24 + rd * 2 ^ 20 + ra * 2 ^ 16 + idx := by
  rw [formatX, BitVec.toNat_ofNat, Nat.mod_eq_of_lt (by omega)]

theorem bits_eq (w : Word) (hi lo : Nat) : bits w hi lo = w.toNat / 2 ^ lo % 2 ^ (hi - lo + 1) := rfl

end Sys2Proof
end

