-- ==== Sys2Proof/Laws/Poly.lean ====
section
/-! SUPPORT. The coefficient laws of the polynomial primitives (00_scope.md R8): each primitive
answers a canonical value, and this is each of its coefficients. -/

namespace Sys2Proof.Machine

/-! ### Coefficients and canonical form -/

@[simp] theorem coef_nil (i : Nat) : coef [] i = 0 := rfl

@[simp] theorem coef_cons_zero (x : Nat) (xs : List Nat) : coef (x :: xs) 0 = x := rfl

@[simp] theorem coef_cons_succ (x : Nat) (xs : List Nat) (i : Nat) :
    coef (x :: xs) (i + 1) = coef xs i := rfl

theorem coef_eq_zero (a : Poly) (i : Nat) (h : a.length ≤ i) : coef a i = 0 := by
  simp [coef, h]

theorem coef_mem (a : Poly) (i : Nat) (h : i < a.length) : coef a i ∈ a := by
  simp [coef, h]

theorem isCanon_nil : isCanon [] = true := rfl

/-- A nonempty value is canonical when its top coefficient is not 0 (00_scope.md R7). -/
theorem isCanon_iff (a : Poly) : isCanon a = true ↔ a ≠ [] → coef a (a.length - 1) ≠ 0 := by
  cases a with
  | nil => simp [isCanon]
  | cons x xs => simp [isCanon, List.getLast?_eq_getElem?, coef, List.getD]

theorem canon_eq_nil_iff (v : List Nat) : canon v = [] ↔ ∀ i, coef v i = 0 := by
  induction v with
  | nil => simp [canon]
  | cons x xs ih =>
    unfold canon
    split
    · rename_i h
      have hz := ih.mp h
      by_cases hx : x = 0
      · simp only [hx, if_true, true_iff]
        intro i; cases i <;> simp [hz]
      · simp only [hx, if_false, List.cons_ne_nil, false_iff]
        intro h0; exact hx (h0 0)
    · rename_i y ys h
      simp only [List.cons_ne_nil, false_iff]
      intro h0
      have : canon xs = [] := ih.mpr fun i => h0 (i + 1)
      simp [this] at h

@[simp] theorem coef_canon (v : List Nat) (i : Nat) : coef (canon v) i = coef v i := by
  induction v generalizing i with
  | nil => rfl
  | cons x xs ih =>
    unfold canon
    split
    · rename_i h
      have hz := (canon_eq_nil_iff xs).mp h
      by_cases hx : x = 0
      · cases i <;> simp [hx, hz]
      · cases i <;> simp [hx, hz]
    · rename_i y ys h
      cases i with
      | zero => rfl
      | succ i => rw [coef_cons_succ, coef_cons_succ, ← ih i, h]

theorem isCanon_canon (v : List Nat) : isCanon (canon v) = true := by
  induction v with
  | nil => rfl
  | cons x xs ih =>
    unfold canon
    split
    · by_cases hx : x = 0 <;> simp [hx, isCanon]
    · rename_i y ys h
      rw [h] at ih
      simpa [isCanon, List.getLast?_cons_cons] using ih

theorem length_canon_le (v : List Nat) : (canon v).length ≤ v.length := by
  induction v with
  | nil => simp [canon]
  | cons x xs ih =>
    unfold canon
    split
    · by_cases hx : x = 0 <;> simp [hx]
    · rename_i y ys h
      rw [h] at ih
      simpa using ih

/-- Every nonzero coefficient index is inside the stored length. -/
theorem lt_length_of_coef_ne_zero (a : Poly) (i : Nat) (h : coef a i ≠ 0) : i < a.length := by
  by_contra hc
  exact h (coef_eq_zero a i (by omega))

/-- A canonical value is no longer than a bound beyond which its coefficients are 0. -/
theorem length_le_of_coef (a : Poly) (n : Nat) (ha : isCanon a = true)
    (h : ∀ i, n ≤ i → coef a i = 0) : a.length ≤ n := by
  by_contra hc
  have hne : a ≠ [] := by rintro rfl; simp at hc
  exact (isCanon_iff a).mp ha hne (h _ (by omega))

/-- Canonical values with the same coefficients are the same (00_scope.md R7). -/
theorem poly_ext {a b : Poly} (ha : isCanon a = true) (hb : isCanon b = true)
    (h : ∀ i, coef a i = coef b i) : a = b := by
  have hl : a.length = b.length := by
    apply Nat.le_antisymm
    · exact length_le_of_coef a _ ha fun i hi => by rw [h, coef_eq_zero b i hi]
    · exact length_le_of_coef b _ hb fun i hi => by rw [← h, coef_eq_zero a i hi]
  apply List.ext_getElem hl
  intro i h1 h2
  have := h i
  simpa [coef, h1, h2] using this

theorem canon_eq_self {a : Poly} (ha : isCanon a = true) : canon a = a :=
  poly_ext (isCanon_canon a) ha fun i => coef_canon a i

/-! ### The builder -/

theorem isCanon_build (n : Nat) (f : Nat → Nat) : isCanon (build n f) = true := isCanon_canon _

theorem length_build_le (n : Nat) (f : Nat → Nat) : (build n f).length ≤ n :=
  le_trans (length_canon_le _) (by simp)

@[simp] theorem coef_build (n : Nat) (f : Nat → Nat) (i : Nat) :
    coef (build n f) i = if i < n then f i else 0 := by
  rw [build, coef_canon]
  by_cases h : i < n <;> simp [coef, h]

/-! ### Field results -/

theorem fieldAdd_lt {q : Nat} (hq : 0 < q) (a b : Nat) : fieldAdd q a b < q := Nat.mod_lt _ hq

theorem residue_lt {q : Nat} (hq : 0 < q) (v : Int) : residue q v < q := by
  have h1 := Int.emod_nonneg v (show (q : Int) ≠ 0 by omega)
  have h2 := Int.emod_lt_of_pos v (show (0 : Int) < q by omega)
  unfold residue; omega

theorem fieldSub_lt {q : Nat} (hq : 0 < q) (a b : Nat) : fieldSub q a b < q := residue_lt hq _

theorem fieldNeg_lt {q : Nat} (hq : 0 < q) (a : Nat) : fieldNeg q a < q := residue_lt hq _

theorem fieldMul_lt {q : Nat} (hq : 0 < q) (a b : Nat) : fieldMul q a b < q := Nat.mod_lt _ hq

/-! ### The primitives: canonical form -/

theorem isCanon_padd (q : Nat) (a b : Poly) : isCanon (padd q a b) = true := isCanon_build _ _
theorem isCanon_psub (q : Nat) (a b : Poly) : isCanon (psub q a b) = true := isCanon_build _ _
theorem isCanon_pneg (q : Nat) (a : Poly) : isCanon (pneg q a) = true := isCanon_build _ _
theorem isCanon_pscale (q : Nat) (a : Poly) (c : Nat) : isCanon (pscale q a c) = true :=
  isCanon_build _ _
theorem isCanon_shift (a : Poly) (k : Nat) : isCanon (shift a k) = true := isCanon_canon _
theorem isCanon_mono (k : Nat) : isCanon (mono k) = true := isCanon_canon _
theorem isCanon_reduce (q n : Nat) (a : Poly) : isCanon (reduce q n a) = true := isCanon_build _ _
theorem isCanon_ringmul (q n : Nat) (a b : Poly) : isCanon (ringmul q n a b) = true :=
  isCanon_build _ _
theorem isCanon_piece (a : Poly) (i n : Nat) : isCanon (piece a i n) = true := isCanon_build _ _
theorem isCanon_setCoef (c : Nat) (a : Poly) (i v : Nat) : isCanon (setCoef c a i v) = true :=
  isCanon_canon _
theorem isCanon_full (q : Nat) (a b : Poly) : isCanon (full q a b) = true := by
  unfold full; split
  · rfl
  · exact isCanon_build _ _

/-! ### The primitives: coefficients -/

@[simp] theorem coef_padd (q : Nat) (a b : Poly) (i : Nat) :
    coef (padd q a b) i = fieldAdd q (coef a i) (coef b i) := by
  rw [padd, coef_build]
  split
  · rfl
  · rw [coef_eq_zero a i (by omega), coef_eq_zero b i (by omega)]; simp [fieldAdd]

@[simp] theorem coef_psub (q : Nat) (a b : Poly) (i : Nat) :
    coef (psub q a b) i = fieldSub q (coef a i) (coef b i) := by
  rw [psub, coef_build]
  split
  · rfl
  · rw [coef_eq_zero a i (by omega), coef_eq_zero b i (by omega)]; simp [fieldSub]

@[simp] theorem coef_pneg (q : Nat) (a : Poly) (i : Nat) :
    coef (pneg q a) i = fieldNeg q (coef a i) := by
  rw [pneg, coef_build]
  split
  · rfl
  · rw [coef_eq_zero a i (by omega)]; simp [fieldNeg]

@[simp] theorem coef_pscale (q : Nat) (a : Poly) (c i : Nat) :
    coef (pscale q a c) i = fieldMul q (coef a i) c := by
  rw [pscale, coef_build]
  split
  · rfl
  · rw [coef_eq_zero a i (by omega)]; simp [fieldMul]

theorem coef_append_left (a b : List Nat) (i : Nat) (h : i < a.length) :
    coef (a ++ b) i = coef a i := by simp [coef, h, List.getElem?_append_left]

theorem coef_append_right (a b : List Nat) (i : Nat) (h : a.length ≤ i) :
    coef (a ++ b) i = coef b (i - a.length) := by
  simp [coef, List.getElem?_append_right h]

theorem coef_replicate_zero (k i : Nat) : coef (List.replicate k 0) i = 0 := by
  by_cases h : i < k <;> simp [coef, h]

@[simp] theorem coef_shift (a : Poly) (k i : Nat) :
    coef (shift a k) i = if i < k then 0 else coef a (i - k) := by
  rw [shift, coef_canon]
  by_cases h : i < k
  · rw [if_pos h, coef_append_left _ _ _ (by simpa using h), coef_replicate_zero]
  · rw [if_neg h, coef_append_right _ _ _ (by simpa using h)]; simp

@[simp] theorem coef_mono (k i : Nat) : coef (mono k) i = if i = k then 1 else 0 := by
  have h := coef_shift [1] k i
  rw [shift] at h
  rw [mono, h]
  by_cases h1 : i < k
  · rw [if_pos h1, if_neg (by omega)]
  · rw [if_neg h1]
    by_cases h2 : i = k
    · subst h2; simp
    · rw [if_neg h2, coef_eq_zero _ _ (by simp; omega)]

/-- The convolution sum of `full` (R8). -/
def convolution (a b : Poly) (k : Nat) : Nat :=
  ((List.range (k + 1)).map fun i => coef a i * coef b (k - i)).sum

theorem convolution_eq_zero (a b : Poly) (k : Nat)
    (h : a.length = 0 ∨ b.length = 0 ∨ a.length + b.length - 1 ≤ k) : convolution a b k = 0 := by
  apply List.sum_eq_zero
  simp only [List.mem_map, List.mem_range, forall_exists_index, and_imp, forall_apply_eq_imp_iff₂]
  intro i hi
  by_cases h1 : a.length ≤ i
  · simp [coef_eq_zero a i h1]
  · rw [coef_eq_zero b (k - i) (by omega)]; simp

@[simp] theorem coef_full (q : Nat) (a b : Poly) (k : Nat) :
    coef (full q a b) k = convolution a b k % q := by
  unfold full
  split
  · rename_i h
    rw [convolution_eq_zero a b k (by tauto)]; simp
  · rw [coef_build]
    split
    · rfl
    · rw [convolution_eq_zero a b k (by omega)]; simp

/-- The sum that `reduce` folds to index `j` (R8). -/
def foldSum (n : Nat) (a : Poly) (j : Nat) : Int :=
  (((List.range a.length).filter fun i => i % n = j).map (foldTerm n a)).sum

@[simp] theorem coef_reduce (q n : Nat) (a : Poly) (j : Nat) :
    coef (reduce q n a) j = if j < n then residue q (foldSum n a j) else 0 := by
  rw [reduce, coef_build]; rfl

@[simp] theorem coef_piece (a : Poly) (s n i : Nat) :
    coef (piece a s n) i = if i < n then coef a (s + i) else 0 := by
  rw [piece, coef_build]

theorem coef_setCoef (c : Nat) (a : Poly) (i v j : Nat) (h : i < c) :
    coef (setCoef c a i v) j = if j = i then v else coef a j := by
  have hp : ∀ k, coef (a ++ List.replicate (c - a.length) 0) k = coef a k := fun k => by
    by_cases hk : k < a.length
    · exact coef_append_left _ _ _ hk
    · rw [coef_append_right _ _ _ (by omega), coef_replicate_zero, coef_eq_zero a k (by omega)]
  rw [setCoef, coef_canon]
  have hl : i < (a ++ List.replicate (c - a.length) 0).length := by simp; omega
  by_cases hj : j = i
  · subst hj; simp only [coef, List.getD, List.getElem?_set_self hl, if_true, Option.getD_some]
  · rw [if_neg hj, ← hp j]
    simp only [coef, List.getD, List.getElem?_set_ne (fun e => hj e.symm)]

/-! ### The primitives: lengths -/

theorem length_padd_le (q : Nat) (a b : Poly) : (padd q a b).length ≤ max a.length b.length :=
  length_build_le _ _
theorem length_psub_le (q : Nat) (a b : Poly) : (psub q a b).length ≤ max a.length b.length :=
  length_build_le _ _
theorem length_pneg_le (q : Nat) (a : Poly) : (pneg q a).length ≤ a.length := length_build_le _ _
theorem length_pscale_le (q : Nat) (a : Poly) (c : Nat) : (pscale q a c).length ≤ a.length :=
  length_build_le _ _
theorem length_shift_le (a : Poly) (k : Nat) : (shift a k).length ≤ k + a.length :=
  le_trans (length_canon_le _) (by simp)
theorem length_mono (k : Nat) : (mono k).length = k + 1 := by
  apply Nat.le_antisymm
  · exact le_trans (length_canon_le _) (by simp)
  · exact lt_length_of_coef_ne_zero _ _ (by simp)
theorem length_full_le (q : Nat) (a b : Poly) :
    (full q a b).length ≤ a.length + b.length - 1 := by
  unfold full; split
  · simp
  · exact length_build_le _ _
theorem length_reduce_le (q n : Nat) (a : Poly) : (reduce q n a).length ≤ n := length_build_le _ _
theorem length_ringmul_le (q n : Nat) (a b : Poly) : (ringmul q n a b).length ≤ n :=
  length_build_le _ _
theorem length_piece_le (a : Poly) (s n : Nat) : (piece a s n).length ≤ n := length_build_le _ _
theorem length_setCoef_le (c : Nat) (a : Poly) (i v : Nat) (h : a.length ≤ c) :
    (setCoef c a i v).length ≤ c :=
  le_trans (length_canon_le _) (by simp; omega)

end Sys2Proof.Machine
end

