-- ==== Sys2Proof/Laws/Hom.lean ====
section
/-! SUPPORT. Register values as polynomials over `ZMod q` and as elements of the ring
`Z_q[X]/(X^n + 1)` (00_scope.md R8): the primitives are that ring's operations. -/

open Polynomial

namespace Sys2Proof.Machine

/-! ### Field results in `ZMod q` -/

theorem cast_residue {q : Nat} (hq : 0 < q) (v : Int) : ((residue q v : Nat) : ZMod q) = v := by
  have h : ((residue q v : Nat) : Int) = v % (q : Int) :=
    Int.toNat_of_nonneg (Int.emod_nonneg v (by omega))
  calc ((residue q v : Nat) : ZMod q) = (((residue q v : Nat) : Int) : ZMod q) := by simp
    _ = v := by rw [h, ZMod.intCast_mod]

@[simp] theorem cast_fieldAdd (q a b : Nat) : ((fieldAdd q a b : Nat) : ZMod q) = a + b := by
  simp [fieldAdd]

theorem cast_fieldSub {q : Nat} (hq : 0 < q) (a b : Nat) :
    ((fieldSub q a b : Nat) : ZMod q) = a - b := by
  simpa [residue, fieldSub] using cast_residue hq ((a : Int) - b)

theorem cast_fieldNeg {q : Nat} (hq : 0 < q) (a : Nat) :
    ((fieldNeg q a : Nat) : ZMod q) = -a := by
  simpa [residue, fieldNeg] using cast_residue hq (-(a : Int))

@[simp] theorem cast_fieldMul (q a b : Nat) : ((fieldMul q a b : Nat) : ZMod q) = a * b := by
  simp [fieldMul]

/-- Residues below `q` are equal when their classes are. -/
theorem eq_of_cast_eq {q a b : Nat} (ha : a < q) (hb : b < q) (h : (a : ZMod q) = b) : a = b := by
  have := (ZMod.natCast_eq_natCast_iff' a b q).mp h
  rwa [Nat.mod_eq_of_lt ha, Nat.mod_eq_of_lt hb] at this

/-- What the squaring loop computes. -/
theorem powModLoop_spec (q fuel b e acc : Nat) (he : e < 2 ^ fuel) :
    ((powModLoop q fuel b e acc : Nat) : ZMod q) = acc * (b : ZMod q) ^ e := by
  induction fuel generalizing b e acc with
  | zero => simp at he; simp [powModLoop, he]
  | succ fuel ih =>
    have h2 : e / 2 < 2 ^ fuel := by rw [pow_succ] at he; omega
    rw [powModLoop, ih _ _ _ h2]
    have hb : ((b * b % q : Nat) : ZMod q) = (b : ZMod q) ^ 2 := by simp [pow_two]
    rw [hb, ← pow_mul]
    by_cases ho : e % 2 = 1
    · rw [if_pos ho]
      have he2 : e = 2 * (e / 2) + 1 := by omega
      conv_rhs => rw [he2, pow_succ]
      simp; ring
    · rw [if_neg ho]
      have he2 : e = 2 * (e / 2) := by omega
      conv_rhs => rw [he2]

theorem powModLoop_lt {q : Nat} (hq : 0 < q) (fuel b e acc : Nat) (h : acc < q) :
    powModLoop q fuel b e acc < q := by
  induction fuel generalizing b e acc with
  | zero => exact h
  | succ fuel ih =>
    rw [powModLoop]; apply ih; split
    · exact Nat.mod_lt _ hq
    · exact h

/-- The field inverse is one (40_field.md R124). -/
theorem cast_fieldInv {q : Nat} (hq : q.Prime) (a : Nat) (ha : (a : ZMod q) ≠ 0) :
    (a : ZMod q) * ((fieldInv q a : Nat) : ZMod q) = 1 := by
  have := Fact.mk hq
  have h1 : q - 2 < 2 ^ (Nat.log2 q + 1) := lt_of_le_of_lt (Nat.sub_le _ _) Nat.lt_log2_self
  rw [fieldInv, powModLoop_spec _ _ _ _ _ h1]
  have h2 : (q - 2) + 1 = q - 1 := by have := hq.two_le; omega
  calc (a : ZMod q) * (((1 : Nat) : ZMod q) * ((a % q : Nat) : ZMod q) ^ (q - 2))
      = (a : ZMod q) ^ ((q - 2) + 1) := by rw [pow_succ]; simp; ring
    _ = 1 := by rw [h2]; exact ZMod.pow_card_sub_one_eq_one ha

theorem fieldInv_lt {q : Nat} (hq : 1 < q) (a : Nat) : fieldInv q a < q :=
  powModLoop_lt (by omega) _ _ _ _ hq

/-- A sum over a list of indices as a sum over their range. -/
theorem list_sum_range {M : Type*} [AddCommMonoid M] (n : Nat) (f : Nat → M) :
    ((List.range n).map f).sum = ∑ i ∈ Finset.range n, f i := by
  induction n with
  | zero => rfl
  | succ n ih => rw [List.range_succ, List.map_append, List.sum_append, ih, Finset.sum_range_succ]; simp

/-- The fold of 00_scope.md R8 as a sum over all indices. -/
theorem foldSum_eq (n : Nat) (a : Poly) (j : Nat) :
    foldSum n a j = ∑ i ∈ Finset.range a.length, if i % n = j then foldTerm n a i else 0 := by
  rw [foldSum, ← list_sum_range]
  induction List.range a.length with
  | nil => rfl
  | cons x xs ih =>
    by_cases h : x % n = j <;> simp [h, ih]

/-! ### Values as polynomials -/

/-- The polynomial over `ZMod q` that a value stands for. -/
noncomputable def toPoly (q : Nat) (a : Poly) : (ZMod q)[X] :=
  ∑ i ∈ Finset.range a.length, monomial i (coef a i : ZMod q)

@[simp] theorem coeff_toPoly (q : Nat) (a : Poly) (i : Nat) :
    (toPoly q a).coeff i = (coef a i : ZMod q) := by
  rw [toPoly, finsetSum_coeff]
  simp only [coeff_monomial]
  rw [Finset.sum_ite_eq' (Finset.range a.length) i]
  by_cases h : i < a.length
  · simp [h]
  · simp [h, coef_eq_zero a i (by omega)]

@[simp] theorem toPoly_nil (q : Nat) : toPoly q [] = 0 := by simp [toPoly]

/-- Values in range with the same polynomial are the same. -/
theorem toPoly_inj {q : Nat} {a b : Poly} (ha : isCanon a = true) (hb : isCanon b = true)
    (ra : ∀ i, coef a i < q) (rb : ∀ i, coef b i < q) (h : toPoly q a = toPoly q b) : a = b :=
  poly_ext ha hb fun i => eq_of_cast_eq (ra i) (rb i) <| by
    rw [← coeff_toPoly, h, coeff_toPoly]

@[simp] theorem toPoly_padd (q : Nat) (a b : Poly) :
    toPoly q (padd q a b) = toPoly q a + toPoly q b := by
  ext i; simp

theorem toPoly_psub {q : Nat} (hq : 0 < q) (a b : Poly) :
    toPoly q (psub q a b) = toPoly q a - toPoly q b := by
  ext i; simp [cast_fieldSub hq]

theorem toPoly_pneg {q : Nat} (hq : 0 < q) (a : Poly) : toPoly q (pneg q a) = -toPoly q a := by
  ext i; simp [cast_fieldNeg hq]

@[simp] theorem toPoly_pscale (q : Nat) (a : Poly) (c : Nat) :
    toPoly q (pscale q a c) = toPoly q a * C (c : ZMod q) := by
  ext i; simp

@[simp] theorem toPoly_shift (q : Nat) (a : Poly) (k : Nat) :
    toPoly q (shift a k) = toPoly q a * X ^ k := by
  ext i
  rw [coeff_mul_X_pow', coeff_toPoly, coef_shift]
  by_cases h : i < k
  · rw [if_pos h, if_neg (by omega)]; simp
  · rw [if_neg h, if_pos (by omega)]; simp

@[simp] theorem toPoly_mono (q k : Nat) : toPoly q (mono k) = X ^ k := by
  ext i
  rw [coeff_toPoly, coef_mono, coeff_X_pow]
  split <;> simp

@[simp] theorem toPoly_one (q : Nat) : toPoly q [1] = 1 := by
  have := toPoly_mono q 0
  simpa [mono, canon] using this

@[simp] theorem toPoly_full (q : Nat) (a b : Poly) :
    toPoly q (full q a b) = toPoly q a * toPoly q b := by
  ext k
  rw [coeff_toPoly, coef_full, ZMod.natCast_mod, coeff_mul,
    Finset.Nat.sum_antidiagonal_eq_sum_range_succ_mk]
  simp only [coeff_toPoly]
  rw [convolution, list_sum_range]
  push_cast
  rfl

/-! ### The ring `Z_q[X]/(X^n + 1)` -/

/-- The cyclotomic modulus (10_state.md R27). -/
noncomputable def modulus (q n : Nat) : (ZMod q)[X] := X ^ n + 1

/-- The ring of 00_scope.md R1. -/
abbrev CycloRing (q n : Nat) := (ZMod q)[X] ⧸ Ideal.span {modulus q n}

/-- The ring element that a value stands for. -/
noncomputable def toRing (q n : Nat) (a : Poly) : CycloRing q n :=
  Ideal.Quotient.mk _ (toPoly q a)

/-- Two polynomials stand for the same ring element when `X^n + 1` divides their difference. -/
theorem mk_eq_iff (q n : Nat) (f g : (ZMod q)[X]) :
    (Ideal.Quotient.mk (Ideal.span {modulus q n}) f = Ideal.Quotient.mk _ g) ↔
      modulus q n ∣ f - g := by
  rw [Ideal.Quotient.mk_eq_mk_iff_sub_mem, Ideal.mem_span_singleton]

/-- In the ring, `X^n = -1`. -/
theorem mk_X_pow (q n : Nat) :
    (Ideal.Quotient.mk (Ideal.span {modulus q n}) (X ^ n) : CycloRing q n) = -1 := by
  rw [← sub_eq_zero, sub_neg_eq_add, ← map_one (Ideal.Quotient.mk _), ← map_add]
  exact Ideal.Quotient.eq_zero_iff_mem.mpr (Ideal.mem_span_singleton_self _)

theorem neg_one_pow_ite (R : Type*) [CommRing R] (k : Nat) :
    (-1 : R) ^ k = if k % 2 = 0 then 1 else -1 := by
  rcases Nat.mod_two_eq_zero_or_one k with h | h
  · rw [if_pos h, Even.neg_one_pow (Nat.even_iff.mpr h)]
  · rw [if_neg (by omega), Odd.neg_one_pow (Nat.odd_iff.mpr h)]

/-- In the ring, index `i` folds to `i mod n`, negated where `i div n` is odd. -/
theorem mk_monomial (q n i : Nat) (c : ZMod q) :
    (Ideal.Quotient.mk (Ideal.span {modulus q n}) (monomial i c) : CycloRing q n) =
      Ideal.Quotient.mk _ (monomial (i % n) (if i / n % 2 = 0 then c else -c)) := by
  have hs : ((-1 : CycloRing q n)) ^ (i / n) = if i / n % 2 = 0 then 1 else -1 :=
    neg_one_pow_ite _ _
  conv_lhs => rw [← C_mul_X_pow_eq_monomial, ← Nat.div_add_mod i n, pow_add, pow_mul]
  rw [map_mul, map_mul, map_pow, mk_X_pow, hs, ← C_mul_X_pow_eq_monomial, map_mul]
  split
  · simp
  · simp; ring

theorem toPoly_reduce {q n : Nat} (hq : 0 < q) (hn : 0 < n) (a : Poly) :
    toPoly q (reduce q n a) = ∑ i ∈ Finset.range a.length,
      monomial (i % n) (if i / n % 2 = 0 then (coef a i : ZMod q) else -(coef a i : ZMod q)) := by
  ext j
  rw [coeff_toPoly, coef_reduce, finsetSum_coeff]
  simp only [coeff_monomial]
  by_cases hj : j < n
  · rw [if_pos hj, cast_residue hq, foldSum_eq]
    push_cast
    apply Finset.sum_congr rfl
    intro i _
    by_cases h1 : i % n = j
    · rw [if_pos h1, if_pos h1, foldTerm]; split <;> simp [*]
    · rw [if_neg h1, if_neg h1]
  · rw [if_neg hj, Nat.cast_zero]
    symm; apply Finset.sum_eq_zero
    intro i _
    rw [if_neg]; intro h; have := Nat.mod_lt i hn; omega

/-- Reduction keeps the ring element (41_poly_ring.md R161). -/
theorem toRing_reduce {q n : Nat} (hq : 0 < q) (hn : 0 < n) (a : Poly) :
    toRing q n (reduce q n a) = toRing q n a := by
  rw [toRing, toRing, toPoly_reduce hq hn, toPoly, map_sum, map_sum]
  exact Finset.sum_congr rfl fun i _ => (mk_monomial q n i _).symm

theorem toRing_padd (q n : Nat) (a b : Poly) :
    toRing q n (padd q a b) = toRing q n a + toRing q n b := by
  simp [toRing]

theorem toRing_full (q n : Nat) (a b : Poly) :
    toRing q n (full q a b) = toRing q n a * toRing q n b := by
  simp [toRing]

theorem toRing_one (q n : Nat) : toRing q n [1] = 1 := by simp [toRing]

theorem toRing_pscale (q n : Nat) (a : Poly) (c : Nat) :
    toRing q n (pscale q a c) = toRing q n a * (c : CycloRing q n) := by
  simp [toRing]

/-- The ring product is the ring's product (42_multiply.md R200). -/
theorem toRing_ringmul {q n : Nat} (hq : 0 < q) (hn : 0 < n) (a b : Poly) :
    toRing q n (ringmul q n a b) = toRing q n a * toRing q n b := by
  rw [ringmul, toRing_reduce hq hn, toRing_full, toRing_reduce hq hn, toRing_reduce hq hn]

theorem modulus_monic {q n : Nat} (hn : 0 < n) : (modulus q n).Monic :=
  monic_X_pow_add_C 1 (by omega)

theorem degree_toPoly_lt {q n : Nat} (a : Poly) (h : a.length ≤ n) :
    (toPoly q a).degree < n := by
  rw [degree_lt_iff_coeff_zero]
  intro i hi
  rw [coeff_toPoly, coef_eq_zero a i (by omega)]; simp

theorem degree_modulus {q n : Nat} (hq : 1 < q) (hn : 0 < n) : (modulus q n).degree = n := by
  have := Fact.mk hq
  exact degree_X_pow_add_C hn 1

/-- Reduced values (`deg < n`) in range with the same ring element are the same. -/
theorem toRing_inj {q n : Nat} (hq : 1 < q) (hn : 0 < n) {a b : Poly}
    (ha : isCanon a = true) (hb : isCanon b = true) (la : a.length ≤ n) (lb : b.length ≤ n)
    (ra : ∀ i, coef a i < q) (rb : ∀ i, coef b i < q) (h : toRing q n a = toRing q n b) :
    a = b := by
  have hd := (mk_eq_iff q n _ _).mp h
  apply toPoly_inj ha hb ra rb
  rw [← sub_eq_zero]
  by_contra h0
  refine (modulus_monic hn).not_dvd_of_degree_lt h0 ?_ hd
  rw [degree_modulus hq hn]
  exact lt_of_le_of_lt (degree_sub_le _ _)
    (max_lt (degree_toPoly_lt a la) (degree_toPoly_lt b lb))

theorem coef_reduce_lt {q n : Nat} (hq : 0 < q) (a : Poly) (i : Nat) :
    coef (reduce q n a) i < q := by
  rw [coef_reduce]; split
  · exact residue_lt hq _
  · exact hq

/-- Reduced results are the same when their ring elements are. -/
theorem reduce_eq_iff {q n : Nat} (hq : 1 < q) (hn : 0 < n) (a b : Poly) :
    reduce q n a = reduce q n b ↔ toRing q n a = toRing q n b := by
  constructor
  · intro h; rw [← toRing_reduce (by omega) hn a, h, toRing_reduce (by omega) hn b]
  · intro h
    apply toRing_inj hq hn (isCanon_reduce _ _ _) (isCanon_reduce _ _ _)
      (length_reduce_le _ _ _) (length_reduce_le _ _ _)
      (coef_reduce_lt (by omega) a) (coef_reduce_lt (by omega) b)
    rw [toRing_reduce (by omega) hn, toRing_reduce (by omega) hn, h]

end Sys2Proof.Machine
end

