-- ==== Sys2Proof/Laws/InRange.lean ====
section
/-! SUPPORT. Canonical values with coefficients in `[0, q)` (00_scope.md R6, R7): every primitive
answers one, and they are determined by their polynomial over `ZMod q`. -/

open Polynomial

namespace Sys2Proof.Machine

/-- A canonical value with every coefficient in `[0, q)`. -/
structure InRange (q : Nat) (a : Poly) : Prop where
  canon : isCanon a = true
  lt : ∀ i, coef a i < q

theorem inRange_nil {q : Nat} (hq : 0 < q) : InRange q [] := ⟨rfl, fun _ => hq⟩

theorem inRange_one {q : Nat} (hq : 1 < q) : InRange q [1] :=
  ⟨rfl, fun i => by cases i <;> simp <;> omega⟩

theorem inRange_padd {q : Nat} (hq : 0 < q) (a b : Poly) : InRange q (padd q a b) :=
  ⟨isCanon_padd _ _ _, fun i => by rw [coef_padd]; exact fieldAdd_lt hq _ _⟩

theorem inRange_psub {q : Nat} (hq : 0 < q) (a b : Poly) : InRange q (psub q a b) :=
  ⟨isCanon_psub _ _ _, fun i => by rw [coef_psub]; exact fieldSub_lt hq _ _⟩

theorem inRange_pneg {q : Nat} (hq : 0 < q) (a : Poly) : InRange q (pneg q a) :=
  ⟨isCanon_pneg _ _, fun i => by rw [coef_pneg]; exact fieldNeg_lt hq _⟩

theorem inRange_pscale {q : Nat} (hq : 0 < q) (a : Poly) (c : Nat) : InRange q (pscale q a c) :=
  ⟨isCanon_pscale _ _ _, fun i => by rw [coef_pscale]; exact fieldMul_lt hq _ _⟩

theorem inRange_full {q : Nat} (hq : 0 < q) (a b : Poly) : InRange q (full q a b) :=
  ⟨isCanon_full _ _ _, fun i => by rw [coef_full]; exact Nat.mod_lt _ hq⟩

theorem inRange_reduce {q : Nat} (hq : 0 < q) (n : Nat) (a : Poly) : InRange q (reduce q n a) :=
  ⟨isCanon_reduce _ _ _, coef_reduce_lt hq _⟩

theorem inRange_ringmul {q : Nat} (hq : 0 < q) (n : Nat) (a b : Poly) :
    InRange q (ringmul q n a b) := inRange_reduce hq n _

theorem inRange_mono {q : Nat} (hq : 1 < q) (k : Nat) : InRange q (mono k) :=
  ⟨isCanon_mono k, fun i => by rw [coef_mono]; split <;> omega⟩

theorem inRange_piece {q : Nat} {a : Poly} (hq : 0 < q) (ha : ∀ i, coef a i < q) (s n : Nat) :
    InRange q (piece a s n) :=
  ⟨isCanon_piece _ _ _, fun i => by rw [coef_piece]; split <;> [exact ha _; exact hq]⟩

theorem inRange_setCoef {q : Nat} {a : Poly} (ha : ∀ i, coef a i < q) (c i v : Nat) (hi : i < c)
    (hv : v < q) : InRange q (setCoef c a i v) :=
  ⟨isCanon_setCoef _ _ _ _, fun j => by
    rw [coef_setCoef _ _ _ _ _ hi]; split <;> [exact hv; exact ha _]⟩

/-- In-range values with the same polynomial are the same. -/
theorem InRange.eq {q : Nat} {a b : Poly} (ha : InRange q a) (hb : InRange q b)
    (h : toPoly q a = toPoly q b) : a = b := toPoly_inj ha.1 hb.1 ha.2 hb.2 h

theorem InRange.toPoly_eq_zero {q : Nat} (hq : 0 < q) {a : Poly} (ha : InRange q a) :
    toPoly q a = 0 ↔ a = [] :=
  ⟨fun h => ha.eq (inRange_nil hq) (by simpa using h), fun h => by simp [h]⟩

theorem cast_ne_zero_of_lt {q a : Nat} (ha : a < q) (h : a ≠ 0) : (a : ZMod q) ≠ 0 := by
  intro h0
  rw [ZMod.natCast_eq_zero_iff] at h0
  exact h (Nat.eq_zero_of_dvd_of_lt h0 ha)

/-- The degree of an in-range value's polynomial is the one its length gives (R7). -/
theorem InRange.natDegree {q : Nat} {a : Poly} (ha : InRange q a) :
    (toPoly q a).natDegree = a.length - 1 := by
  by_cases h : a = []
  · simp [h]
  · apply natDegree_eq_of_le_of_coeff_ne_zero
    · rw [natDegree_le_iff_coeff_eq_zero]
      intro i hi
      rw [coeff_toPoly, coef_eq_zero a i (by omega)]; simp
    · rw [coeff_toPoly]; exact cast_ne_zero_of_lt (ha.2 _) ((isCanon_iff a).mp ha.1 h)

/-- The fold of a value no longer than `n` leaves it as it is (41_poly_ring.md R161). -/
theorem reduce_eq_self {q n : Nat} (hq : 1 < q) (hn : 0 < n) {a : Poly} (ha : InRange q a)
    (hl : a.length ≤ n) : reduce q n a = a :=
  toRing_inj hq hn (isCanon_reduce _ _ _) ha.1 (length_reduce_le _ _ _) hl
    (coef_reduce_lt (by omega) a) ha.2 (toRing_reduce (by omega) hn a)

end Sys2Proof.Machine
end

