-- ==== Sys2Proof/Laws/Inverse.lean ====
section
/-! SUPPORT. What `pdivmod` and one pass of the Euclidean loop keep (43_inversion.md R231,
R232). -/

open Polynomial

namespace Sys2Proof.Machine

/-- The division loop ends with a remainder shorter than the divisor and keeps `quo·v + rem`. -/
theorem divLoop_spec {q : Nat} (hq : q.Prime) (v : Poly) (hv : InRange q v) (hne : v ≠ [])
    (fuel : Nat) (quo rem : Poly) (hr : InRange q rem) (hqo : InRange q quo)
    (hf : rem.length ≤ fuel) :
    let r := divLoop q v (fieldInv q (coef v (v.length - 1))) fuel quo rem
    InRange q r.1 ∧ InRange q r.2 ∧ r.2.length < v.length ∧
      toPoly q r.1 * toPoly q v + toPoly q r.2 = toPoly q quo * toPoly q v + toPoly q rem := by
  have hvl : 0 < v.length := List.length_pos_of_ne_nil hne
  induction fuel generalizing quo rem with
  | zero =>
    refine ⟨hqo, hr, ?_, rfl⟩
    have : rem.length = 0 := by omega
    show rem.length < _; omega
  | succ fuel ih =>
    simp only [divLoop]
    split
    · rename_i h
      have hlen : v.length ≤ rem.length := by have := h.2; unfold deg at this; omega
      set k := rem.length - v.length with hk
      set c := fieldInv q (coef v (v.length - 1))
      set m := fieldMul q (coef rem (rem.length - 1)) c
      have hlt : (psub q rem (pscale q (shift v k) m)).length ≤ rem.length - 1 := by
        apply length_le_of_coef _ _ (isCanon_psub _ _ _)
        intro i hi
        apply eq_of_cast_eq (q := q) ((inRange_psub hq.pos _ _).2 _) hq.pos
        rw [coef_psub, cast_fieldSub hq.pos, coef_pscale, cast_fieldMul, coef_shift,
          if_neg (by omega)]
        by_cases hi2 : i = rem.length - 1
        · have hc := cast_fieldInv hq (coef v (v.length - 1))
            (cast_ne_zero_of_lt (hv.2 _) ((isCanon_iff v).mp hv.1 hne))
          rw [hi2, show rem.length - 1 - k = v.length - 1 by omega, cast_fieldMul]
          rw [mul_left_comm, hc]; simp
        · rw [coef_eq_zero rem i (by omega), coef_eq_zero v _ (by omega)]; simp
      have := ih (padd q quo (pscale q (mono k) m)) (psub q rem (pscale q (shift v k) m))
        (inRange_psub hq.pos _ _) (inRange_padd hq.pos _ _) (by omega)
      refine ⟨this.1, this.2.1, this.2.2.1, this.2.2.2.trans ?_⟩
      simp only [toPoly_padd, toPoly_pscale, toPoly_mono, toPoly_psub hq.pos, toPoly_shift]
      ring
    · rename_i h
      refine ⟨hqo, hr, ?_, rfl⟩
      by_cases h0 : rem = []
      · simp [h0]; omega
      · unfold deg at h; simp [h0] at h; exact h

/-- Division with remainder (R232). -/
theorem pdivmod_spec {q : Nat} (hq : q.Prime) (u v : Poly) (hu : InRange q u) (hv : InRange q v)
    (hne : v ≠ []) :
    let r := pdivmod q u v
    InRange q r.1 ∧ InRange q r.2 ∧ r.2.length < v.length ∧
      toPoly q r.1 * toPoly q v + toPoly q r.2 = toPoly q u := by
  have := divLoop_spec hq v hv hne u.length [] u hu (inRange_nil hq.pos) le_rfl
  simpa [pdivmod] using this

/-- The modulus of R231 is `X^n + 1`. -/
theorem cycloModulus_spec {q n : Nat} (hq : 1 < q) (hn : 0 < n) :
    InRange q (cycloModulus n) ∧ (cycloModulus n).length = n + 1 ∧
      toPoly q (cycloModulus n) = modulus q n := by
  have hlen : (cycloModulus n).length = n + 1 := by simp [cycloModulus]; omega
  have hco : ∀ i, coef (cycloModulus n) i = if i = 0 then 1 else if i = n then 1 else 0 := by
    intro i
    cases i with
    | zero => simp [cycloModulus]
    | succ i =>
      rw [cycloModulus, coef_cons_succ]
      by_cases h : i < n - 1
      · rw [coef_append_left _ _ _ (by simpa using h), coef_replicate_zero, if_neg (by omega),
          if_neg (by omega)]
      · rw [coef_append_right _ _ _ (by simpa using h)]
        by_cases h2 : i + 1 = n
        · rw [if_neg (by omega), if_pos h2]; simp; rw [show i - (n-1) = 0 by omega]; rfl
        · rw [if_neg (by omega), if_neg h2]; apply coef_eq_zero; simp; omega
  refine ⟨⟨?_, fun i => ?_⟩, hlen, ?_⟩
  · rw [isCanon_iff]; intro _; rw [hlen, hco]; simp
  · rw [hco]; split; omega; split <;> omega
  · ext i
    rw [coeff_toPoly, hco, modulus, coeff_add, coeff_X_pow, coeff_one]
    by_cases h : i = 0
    · subst h; simp; omega
    · by_cases h2 : i = n
      · subst h2; simp [h]
      · simp [h, h2]

/-- What every pass of the Euclidean loop keeps (R231): in-range values, the Bezout equation of both
triples, the degree bounds, and the common divisors. -/
structure EeaInv (q n : Nat) (a : Poly) (e : EeaState) : Prop where
  gp : InRange q e.rPrev
  gc : InRange q e.rCur
  gyp : InRange q e.yPrev
  gyc : InRange q e.yCur
  prev : modulus q n * toPoly q e.xPrev + toPoly q a * toPoly q e.yPrev = toPoly q e.rPrev
  cur : modulus q n * toPoly q e.xCur + toPoly q a * toPoly q e.yCur = toPoly q e.rCur
  l1 : e.yCur.length + e.rPrev.length ≤ n + 2
  l2 : e.yPrev.length + e.rPrev.length + 1 ≤ n + 2
  l3 : e.rCur.length < e.rPrev.length
  com : ∀ d : (ZMod q)[X],
    (d ∣ toPoly q e.rPrev ∧ d ∣ toPoly q e.rCur) ↔ (d ∣ modulus q n ∧ d ∣ toPoly q a)

/-- The starting triples meet it. -/
theorem EeaInv.start {q n : Nat} (hq : 1 < q) (hn : 0 < n) (a : Poly) (ha : InRange q a)
    (hl : a.length ≤ n) : EeaInv q n a (eeaStart n a) := by
  have hc := cycloModulus_spec (q := q) hq hn
  refine ⟨hc.1, ha, inRange_nil (by omega), inRange_one hq, ?_, ?_, ?_, ?_, ?_, ?_⟩
  · simp [eeaStart, hc.2.2]
  · simp [eeaStart]
  · simp only [eeaStart, hc.2.1, List.length_singleton]; omega
  · simp only [eeaStart, List.length_nil]; omega
  · simp only [eeaStart, hc.2.1]; omega
  · intro d; simp [eeaStart, hc.2.2]

/-- The degree of the quotient. -/
theorem quo_len {q : Nat} (hq : q.Prime) (u v : Poly) (hu : InRange q u) (hv : InRange q v)
    (hne : v ≠ []) (hl : v.length ≤ u.length) :
    (pdivmod q u v).1.length ≤ u.length - v.length + 1 := by
  have h := pdivmod_spec hq u v hu hv hne
  have hf := Fact.mk hq
  by_cases h0 : (pdivmod q u v).1 = []
  · simp [h0]
  · have d1 := h.1.natDegree
    have d2 := h.2.1.natDegree
    have d3 := hu.natDegree
    have d4 := hv.natDegree
    have e := h.2.2.2
    have hvl : 0 < v.length := List.length_pos_of_ne_nil hne
    have hql : 0 < (pdivmod q u v).1.length := List.length_pos_of_ne_nil h0
    have n1 : toPoly q (pdivmod q u v).1 ≠ 0 := fun hh => h0 ((h.1.toPoly_eq_zero hq.pos).mp hh)
    have n2 : toPoly q v ≠ 0 := fun hh => hne ((hv.toPoly_eq_zero hq.pos).mp hh)
    have e2 : toPoly q (pdivmod q u v).1 * toPoly q v =
        toPoly q u - toPoly q (pdivmod q u v).2 := by rw [← e]; ring
    have d5 := natDegree_mul n1 n2
    rw [e2] at d5
    have d6 := natDegree_sub_le (toPoly q u) (toPoly q (pdivmod q u v).2)
    rw [d2, d3] at d6
    rw [d5, d1, d4] at d6
    have := h.2.2.1
    have h7 := le_max_iff.mp d6
    omega

/-- A pass keeps it and shortens the current remainder. -/
theorem EeaInv.pass {q n : Nat} (hq : q.Prime) (a : Poly) (e : EeaState) (h : EeaInv q n a e)
    (hne : e.rCur ≠ []) :
    EeaInv q n a (eeaPass q e) ∧ (eeaPass q e).rCur.length < e.rCur.length := by
  have hd := pdivmod_spec hq e.rPrev e.rCur h.gp h.gc hne
  have hql := quo_len hq e.rPrev e.rCur h.gp h.gc hne h.l3.le
  have hrl : 0 < e.rCur.length := List.length_pos_of_ne_nil hne
  have e2 : toPoly q (pdivmod q e.rPrev e.rCur).2 =
      toPoly q e.rPrev - toPoly q (pdivmod q e.rPrev e.rCur).1 * toPoly q e.rCur := by
    rw [← hd.2.2.2]; ring
  refine ⟨⟨h.gc, hd.2.1, h.gyc, inRange_psub hq.pos _ _, h.cur, ?_, ?_, ?_, hd.2.2.1, ?_⟩, hd.2.2.1⟩
  · simp only [eeaPass, toPoly_psub hq.pos, toPoly_full]
    rw [e2, ← h.prev, ← h.cur]; ring
  · simp only [eeaPass]
    have h1 := length_psub_le q e.yPrev (full q (pdivmod q e.rPrev e.rCur).1 e.yCur)
    have h2 := length_full_le q (pdivmod q e.rPrev e.rCur).1 e.yCur
    have := h.l1; have := h.l2; have := h.l3
    have h3 := le_max_iff.mp h1
    rcases h3 with h3 | h3
    · omega
    · omega
  · simp only [eeaPass]
    have := h.l1; have := h.l3; have := hd.2.2.1; omega
  · intro d
    rw [← h.com d]
    simp only [eeaPass]
    constructor
    · rintro ⟨h1, h2⟩
      exact ⟨by rw [← hd.2.2.2]; exact dvd_add (h1.mul_left _) h2, h1⟩
    · rintro ⟨h1, h2⟩
      refine ⟨h2, ?_⟩
      rw [e2]; exact dvd_sub h1 (h2.mul_left _)

end Sys2Proof.Machine
end

