-- ==== Sys2Proof/Laws/Multiply.lean ====
section
/-! SUPPORT. What the two Karatsuba recursions compute over `ZMod q` (42_multiply.md R205,
R206). -/

open Polynomial

namespace Sys2Proof.Machine

/-- A value is its low half plus `X^h` times its high half (R162). -/
theorem toPoly_split {q : Nat} (x : Poly) (h : Nat) (hx : x.length ≤ 2 * h) :
    toPoly q x = toPoly q (piece x 0 h) + toPoly q (piece x h h) * X ^ h := by
  rw [← toPoly_shift]
  ext i
  rw [coeff_add, coeff_toPoly, coeff_toPoly, coeff_toPoly, coef_shift, coef_piece, coef_piece]
  by_cases hi : i < h
  · simp [hi]
  · simp only [hi, if_false]
    by_cases h2 : i - h < h
    · simp [h2]; congr 2; omega
    · rw [coef_eq_zero x i (by omega)]; simp [h2]

/-- The recursive strategy computes the product (R205), whatever the threshold. -/
theorem toPoly_kara {q : Nat} (hq : 0 < q) (kmin k : Nat) (x y : Poly)
    (hx : x.length ≤ 2 ^ k) (hy : y.length ≤ 2 ^ k) :
    toPoly q (kara q kmin k x y) = toPoly q x * toPoly q y := by
  induction k generalizing x y with
  | zero => simp [kara]
  | succ k ih =>
    rw [kara]
    split
    · simp
    · have hp : 2 ^ (k+1) = 2 * 2 ^ k := by rw [pow_succ]; ring
      have hx0 := length_piece_le x 0 (2^k)
      have hx1 := length_piece_le x (2^k) (2^k)
      have hy0 := length_piece_le y 0 (2^k)
      have hy1 := length_piece_le y (2^k) (2^k)
      have hxs := le_trans (length_padd_le q (piece x 0 (2^k)) (piece x (2^k) (2^k))) (max_le hx0 hx1)
      have hys := le_trans (length_padd_le q (piece y 0 (2^k)) (piece y (2^k) (2^k))) (max_le hy0 hy1)
      simp only [toPoly_padd, toPoly_shift, toPoly_psub hq, ih _ _ hx0 hy0, ih _ _ hx1 hy1,
        ih _ _ hxs hys]
      rw [toPoly_split x (2^k) (by omega), toPoly_split y (2^k) (by omega), two_mul, pow_add]
      ring

/-- A layer's values are the products of its operand pairs (R206). -/
def prodsOk (q : Nat) : List (Poly × Poly) → List Poly → Prop
  | [], [] => True
  | (x, y) :: r, z :: zs => toPoly q z = toPoly q x * toPoly q y ∧ prodsOk q r zs
  | _, _ => False

/-- One combining layer turns the products of the split pairs into those of the pairs. -/
theorem combine_ok {q : Nat} (hq : 0 < q) (h : Nat) (ops : List (Poly × Poly)) (z : List Poly)
    (hl : ∀ p ∈ ops, p.1.length ≤ 2 * h ∧ p.2.length ≤ 2 * h)
    (hz : prodsOk q (splitLayer q h ops) z) : prodsOk q ops (combineLayer q h z) := by
  induction ops generalizing z with
  | nil => cases z with
    | nil => simp [combineLayer, prodsOk]
    | cons => simp [splitLayer, prodsOk] at hz
  | cons p r ih =>
    obtain ⟨x, y⟩ := p
    rw [splitLayer] at hz
    match z, hz with
    | z0 :: z2 :: zs :: rest, ⟨h0, h2, hs, hr⟩ =>
      rw [combineLayer]
      have := hl (x, y) (by simp)
      refine ⟨?_, ih rest (fun p hp => hl p (by simp [hp])) hr⟩
      rw [combine, toPoly_padd, toPoly_padd, toPoly_shift, toPoly_shift, toPoly_psub hq,
        toPoly_psub hq, h0, h2, hs, toPoly_padd, toPoly_padd]
      rw [toPoly_split x h this.1, toPoly_split y h this.2, two_mul, pow_add]
      ring

/-- The operands of a split layer fit half the size. -/
theorem splitLayer_len (q h : Nat) (ops : List (Poly × Poly)) :
    ∀ p ∈ splitLayer q h ops, p.1.length ≤ h ∧ p.2.length ≤ h := by
  induction ops with
  | nil => simp [splitLayer]
  | cons p r ih =>
    obtain ⟨x, y⟩ := p
    intro p hp
    simp only [splitLayer, List.mem_cons] at hp
    have hx0 := length_piece_le x 0 h
    have hx1 := length_piece_le x h h
    have hy0 := length_piece_le y 0 h
    have hy1 := length_piece_le y h h
    rcases hp with rfl | rfl | rfl | hp
    · exact ⟨hx0, hy0⟩
    · exact ⟨hx1, hy1⟩
    · exact ⟨le_trans (length_padd_le _ _ _) (max_le hx0 hx1),
        le_trans (length_padd_le _ _ _) (max_le hy0 hy1)⟩
    · exact ih p hp

/-- The last combining layer stands for the first splitting one. -/
theorem combineUp_succ (q L k : Nat) (z : List Poly) :
    combineUp q (L+1) k z = combineLayer q (2 ^ (k-1)) (combineUp q L (k-1) z) := by
  induction L generalizing z with
  | zero => simp [combineUp]
  | succ L ih =>
    rw [combineUp, ih, combineUp]
    rw [show k - 1 - L - 1 = k - (L+1) - 1 by omega]

/-- Splitting down and combining up give the products of the pairs (R206). -/
theorem updown {q : Nat} (hq : 0 < q) (L k : Nat) (hL : L ≤ k) (ops : List (Poly × Poly))
    (z : List Poly) (hl : ∀ p ∈ ops, p.1.length ≤ 2 ^ k ∧ p.2.length ≤ 2 ^ k)
    (hz : prodsOk q (splitDown q L k ops) z) : prodsOk q ops (combineUp q L k z) := by
  induction L generalizing k ops z with
  | zero => exact hz
  | succ L ih =>
    rw [combineUp_succ]
    have hk : 2 ^ k = 2 * 2 ^ (k-1) := by
      obtain ⟨j, rfl⟩ := Nat.exists_eq_add_of_le hL
      rw [show L + 1 + j = (L + j) + 1 by omega, pow_succ]; simp; ring
    apply combine_ok hq
    · intro p hp; have := hl p hp; omega
    · exact ih (k-1) (by omega) _ _ (splitLayer_len _ _ _) hz

/-- The leaf products are exact. -/
theorem prods_full (q : Nat) (ops : List (Poly × Poly)) :
    prodsOk q ops (ops.map fun xy => full q xy.1 xy.2) := by
  induction ops with
  | nil => trivial
  | cons p r ih => exact ⟨toPoly_full q _ _, ih⟩

/-- The flat strategy computes the product (R206), whatever the depth. -/
theorem toPoly_fkara {q : Nat} (hq : 0 < q) (L k : Nat) (hL : L ≤ k) (a b : Poly)
    (ha : a.length ≤ 2 ^ k) (hb : b.length ≤ 2 ^ k) :
    toPoly q ((combineUp q L k
      ((splitDown q L k [(a, b)]).map fun xy => full q xy.1 xy.2)).headD []) =
      toPoly q a * toPoly q b := by
  have h := updown hq L k hL [(a,b)] _ (by simpa using ⟨ha, hb⟩) (prods_full q _)
  revert h
  generalize combineUp q L k ((splitDown q L k [(a,b)]).map fun xy => full q xy.1 xy.2) = z
  intro h
  cases z with
  | nil => exact h.elim
  | cons z zs => exact h.1

end Sys2Proof.Machine
end

