-- ==== Sys2Proof/Laws/PerInstr.lean ====
section
/-! SUPPORT. The per-instruction family ReservedClear: the reserved bits of every encoded command
are 0 (30_encoding.md R97). -/

/-- The encoding of a well-formed command has an assigned opcode, and 0 in every bit that R97
reserves for that opcode. -/
def Sys2Proof.Laws.ReservedClear.Statement (i : Sys2Proof.Instr) : Prop :=
  i.wellFormed = true → ∃ m, Sys2Proof.reservedMask (Sys2Proof.bits (Sys2Proof.encode i) 31 24) =
    some m ∧ (Sys2Proof.encode i).toNat &&& m = 0

namespace Sys2Proof.Laws

/-- How each lemma of the family is proved: the opcode, its mask, and the masked bits. -/
theorem reservedClear_of {i : Instr} {opc m : Nat} (ho : (encode i).toNat / 2 ^ 24 % 2 ^ 8 = opc)
    (hm : reservedMask opc = some m) (h0 : (encode i).toNat &&& m = 0) :
    ∃ m, reservedMask (bits (encode i) 31 24) = some m ∧ (encode i).toNat &&& m = 0 :=
  ⟨m, by rw [bits_eq]; exact ho ▸ hm, h0⟩

theorem stratCode_lt (s : Strat) : s.code < 4 := by cases s <;> decide

theorem ReservedClear.nop :
    ReservedClear.Statement (.nop) := by
  intro _
  have hw : (encode (.nop)).toNat = _ := toNat_formatR (by omega) (by omega) (by omega) (by omega) (by omega)
  exact reservedClear_of (opc := 0x00) (m := 0xFFFFFF) (by rw [hw]; omega) rfl
    ((and_field_eq_zero (k := 0) (n := 24)).mpr (by rw [hw]; omega))

theorem ReservedClear.fadd (rd ra rb : Fin 16) :
    ReservedClear.Statement (.fadd rd ra rb) := by
  intro _
  have hw : (encode (.fadd rd ra rb)).toNat = _ := toNat_formatR (by omega) (by omega) (by omega) (by omega) (by omega)
  exact reservedClear_of (opc := 0x10) (m := 0xFFF) (by rw [hw]; omega) rfl
    ((and_field_eq_zero (k := 0) (n := 12)).mpr (by rw [hw]; omega))

theorem ReservedClear.fsub (rd ra rb : Fin 16) :
    ReservedClear.Statement (.fsub rd ra rb) := by
  intro _
  have hw : (encode (.fsub rd ra rb)).toNat = _ := toNat_formatR (by omega) (by omega) (by omega) (by omega) (by omega)
  exact reservedClear_of (opc := 0x11) (m := 0xFFF) (by rw [hw]; omega) rfl
    ((and_field_eq_zero (k := 0) (n := 12)).mpr (by rw [hw]; omega))

theorem ReservedClear.fmul (rd ra rb : Fin 16) :
    ReservedClear.Statement (.fmul rd ra rb) := by
  intro _
  have hw : (encode (.fmul rd ra rb)).toNat = _ := toNat_formatR (by omega) (by omega) (by omega) (by omega) (by omega)
  exact reservedClear_of (opc := 0x12) (m := 0xFFF) (by rw [hw]; omega) rfl
    ((and_field_eq_zero (k := 0) (n := 12)).mpr (by rw [hw]; omega))

theorem ReservedClear.fneg (rd ra : Fin 16) :
    ReservedClear.Statement (.fneg rd ra) := by
  intro _
  have hw : (encode (.fneg rd ra)).toNat = _ := toNat_formatR (by omega) (by omega) (by omega) (by omega) (by omega)
  exact reservedClear_of (opc := 0x13) (m := 0xFFFF) (by rw [hw]; omega) rfl
    ((and_field_eq_zero (k := 0) (n := 16)).mpr (by rw [hw]; omega))

theorem ReservedClear.finv (rd ra : Fin 16) :
    ReservedClear.Statement (.finv rd ra) := by
  intro _
  have hw : (encode (.finv rd ra)).toNat = _ := toNat_formatR (by omega) (by omega) (by omega) (by omega) (by omega)
  exact reservedClear_of (opc := 0x14) (m := 0xFFFF) (by rw [hw]; omega) rfl
    ((and_field_eq_zero (k := 0) (n := 16)).mpr (by rw [hw]; omega))

theorem ReservedClear.fdiv (rd ra rb : Fin 16) :
    ReservedClear.Statement (.fdiv rd ra rb) := by
  intro _
  have hw : (encode (.fdiv rd ra rb)).toNat = _ := toNat_formatR (by omega) (by omega) (by omega) (by omega) (by omega)
  exact reservedClear_of (opc := 0x15) (m := 0xFFF) (by rw [hw]; omega) rfl
    ((and_field_eq_zero (k := 0) (n := 12)).mpr (by rw [hw]; omega))

theorem ReservedClear.fldi (rd : Fin 16) (n : Nat) :
    ReservedClear.Statement (.fldi rd n) := by
  intro h
  simp only [Instr.wellFormed, decide_eq_true_eq] at h
  have hw : (encode (.fldi rd n)).toNat = _ := toNat_formatI (by omega) (by omega) (by omega)
  exact reservedClear_of (opc := 0x16) (m := 0) (by rw [hw]; omega) rfl (Nat.and_zero _)

theorem ReservedClear.fmov (rd ra : Fin 16) :
    ReservedClear.Statement (.fmov rd ra) := by
  intro _
  have hw : (encode (.fmov rd ra)).toNat = _ := toNat_formatR (by omega) (by omega) (by omega) (by omega) (by omega)
  exact reservedClear_of (opc := 0x17) (m := 0xFFFF) (by rw [hw]; omega) rfl
    ((and_field_eq_zero (k := 0) (n := 16)).mpr (by rw [hw]; omega))

theorem ReservedClear.feq (ra rb : Fin 16) :
    ReservedClear.Statement (.feq ra rb) := by
  intro _
  have hw : (encode (.feq ra rb)).toNat = _ := toNat_formatR (by omega) (by omega) (by omega) (by omega) (by omega)
  exact reservedClear_of (opc := 0x18) (m := 0xF00FFF) (by rw [hw]; omega) rfl
    ((and_two_fields_eq_zero (k := 20) (n := 4) (l := 0) (m := 12) (by decide)).mpr (by rw [hw]; constructor <;> omega))

theorem ReservedClear.pzero (rd : Fin 16) :
    ReservedClear.Statement (.pzero rd) := by
  intro _
  have hw : (encode (.pzero rd)).toNat = _ := toNat_formatR (by omega) (by omega) (by omega) (by omega) (by omega)
  exact reservedClear_of (opc := 0x20) (m := 0xFFFFF) (by rw [hw]; omega) rfl
    ((and_field_eq_zero (k := 0) (n := 20)).mpr (by rw [hw]; omega))

theorem ReservedClear.pone (rd : Fin 16) :
    ReservedClear.Statement (.pone rd) := by
  intro _
  have hw : (encode (.pone rd)).toNat = _ := toNat_formatR (by omega) (by omega) (by omega) (by omega) (by omega)
  exact reservedClear_of (opc := 0x21) (m := 0xFFFFF) (by rw [hw]; omega) rfl
    ((and_field_eq_zero (k := 0) (n := 20)).mpr (by rw [hw]; omega))

theorem ReservedClear.pmono (rd : Fin 16) (n : Nat) :
    ReservedClear.Statement (.pmono rd n) := by
  intro h
  simp only [Instr.wellFormed, decide_eq_true_eq] at h
  have hw : (encode (.pmono rd n)).toNat = _ := toNat_formatI (by omega) (by omega) (by omega)
  exact reservedClear_of (opc := 0x22) (m := 0) (by rw [hw]; omega) rfl (Nat.and_zero _)

theorem ReservedClear.pcopy (rd ra : Fin 16) :
    ReservedClear.Statement (.pcopy rd ra) := by
  intro _
  have hw : (encode (.pcopy rd ra)).toNat = _ := toNat_formatR (by omega) (by omega) (by omega) (by omega) (by omega)
  exact reservedClear_of (opc := 0x23) (m := 0xFFFF) (by rw [hw]; omega) rfl
    ((and_field_eq_zero (k := 0) (n := 16)).mpr (by rw [hw]; omega))

theorem ReservedClear.pgetc (rd ra : Fin 16) (n : Nat) :
    ReservedClear.Statement (.pgetc rd ra n) := by
  intro h
  simp only [Instr.wellFormed, decide_eq_true_eq] at h
  have hw : (encode (.pgetc rd ra n)).toNat = _ := toNat_formatX (by omega) (by omega) (by omega) (by omega)
  exact reservedClear_of (opc := 0x24) (m := 0) (by rw [hw]; omega) rfl (Nat.and_zero _)

theorem ReservedClear.psetc (rd ra : Fin 16) (n : Nat) :
    ReservedClear.Statement (.psetc rd ra n) := by
  intro h
  simp only [Instr.wellFormed, decide_eq_true_eq] at h
  have hw : (encode (.psetc rd ra n)).toNat = _ := toNat_formatX (by omega) (by omega) (by omega) (by omega)
  exact reservedClear_of (opc := 0x25) (m := 0) (by rw [hw]; omega) rfl (Nat.and_zero _)

theorem ReservedClear.peq (ra rb : Fin 16) :
    ReservedClear.Statement (.peq ra rb) := by
  intro _
  have hw : (encode (.peq ra rb)).toNat = _ := toNat_formatR (by omega) (by omega) (by omega) (by omega) (by omega)
  exact reservedClear_of (opc := 0x26) (m := 0xF00FFF) (by rw [hw]; omega) rfl
    ((and_two_fields_eq_zero (k := 20) (n := 4) (l := 0) (m := 12) (by decide)).mpr (by rw [hw]; constructor <;> omega))

theorem ReservedClear.padd (rd ra rb : Fin 16) :
    ReservedClear.Statement (.padd rd ra rb) := by
  intro _
  have hw : (encode (.padd rd ra rb)).toNat = _ := toNat_formatR (by omega) (by omega) (by omega) (by omega) (by omega)
  exact reservedClear_of (opc := 0x30) (m := 0xFFF) (by rw [hw]; omega) rfl
    ((and_field_eq_zero (k := 0) (n := 12)).mpr (by rw [hw]; omega))

theorem ReservedClear.psub (rd ra rb : Fin 16) :
    ReservedClear.Statement (.psub rd ra rb) := by
  intro _
  have hw : (encode (.psub rd ra rb)).toNat = _ := toNat_formatR (by omega) (by omega) (by omega) (by omega) (by omega)
  exact reservedClear_of (opc := 0x31) (m := 0xFFF) (by rw [hw]; omega) rfl
    ((and_field_eq_zero (k := 0) (n := 12)).mpr (by rw [hw]; omega))

theorem ReservedClear.pneg (rd ra : Fin 16) :
    ReservedClear.Statement (.pneg rd ra) := by
  intro _
  have hw : (encode (.pneg rd ra)).toNat = _ := toNat_formatR (by omega) (by omega) (by omega) (by omega) (by omega)
  exact reservedClear_of (opc := 0x32) (m := 0xFFFF) (by rw [hw]; omega) rfl
    ((and_field_eq_zero (k := 0) (n := 16)).mpr (by rw [hw]; omega))

theorem ReservedClear.pscale (rd ra rb : Fin 16) :
    ReservedClear.Statement (.pscale rd ra rb) := by
  intro _
  have hw : (encode (.pscale rd ra rb)).toNat = _ := toNat_formatR (by omega) (by omega) (by omega) (by omega) (by omega)
  exact reservedClear_of (opc := 0x33) (m := 0xFFF) (by rw [hw]; omega) rfl
    ((and_field_eq_zero (k := 0) (n := 12)).mpr (by rw [hw]; omega))

theorem ReservedClear.preduce (rd ra : Fin 16) :
    ReservedClear.Statement (.preduce rd ra) := by
  intro _
  have hw : (encode (.preduce rd ra)).toNat = _ := toNat_formatR (by omega) (by omega) (by omega) (by omega) (by omega)
  exact reservedClear_of (opc := 0x34) (m := 0xFFFF) (by rw [hw]; omega) rfl
    ((and_field_eq_zero (k := 0) (n := 16)).mpr (by rw [hw]; omega))

theorem ReservedClear.psplit (rd ra : Fin 16) (k : Nat) :
    ReservedClear.Statement (.psplit rd ra k) := by
  intro h
  simp only [Instr.wellFormed, decide_eq_true_eq] at h
  have hw : (encode (.psplit rd ra k)).toNat = _ := toNat_formatR (by omega) (by omega) (by omega) (by omega) (by omega)
  exact reservedClear_of (opc := 0x35) (m := 0xF03F) (by rw [hw]; omega) rfl
    ((and_two_fields_eq_zero (k := 12) (n := 4) (l := 0) (m := 6) (by decide)).mpr (by rw [hw]; constructor <;> omega))

theorem ReservedClear.psplitk (rd ra : Fin 16) (k l : Nat) :
    ReservedClear.Statement (.psplitk rd ra k l) := by
  intro h
  simp only [Instr.wellFormed, Bool.and_eq_true, decide_eq_true_eq] at h
  have hw : (encode (.psplitk rd ra k l)).toNat = _ := toNat_formatR (by omega) (by omega) (by omega) (by omega) (by omega)
  exact reservedClear_of (opc := 0x36) (m := 0xF000) (by rw [hw]; omega) rfl
    ((and_field_eq_zero (k := 12) (n := 4)).mpr (by rw [hw]; omega))

theorem ReservedClear.pmul (rd ra rb : Fin 16) (st : Strat) :
    ReservedClear.Statement (.pmul rd ra rb st) := by
  intro _
  have hs := stratCode_lt st
  have hw : (encode (.pmul rd ra rb st)).toNat = _ := toNat_formatR (by omega) (by omega) (by omega) (by omega) (by omega)
  exact reservedClear_of (opc := 0x40) (m := 0xFFC) (by rw [hw]; omega) rfl
    ((and_field_eq_zero (k := 2) (n := 10)).mpr (by rw [hw]; omega))

theorem ReservedClear.pmulf (rd ra rb : Fin 16) :
    ReservedClear.Statement (.pmulf rd ra rb) := by
  intro _
  have hw : (encode (.pmulf rd ra rb)).toNat = _ := toNat_formatR (by omega) (by omega) (by omega) (by omega) (by omega)
  exact reservedClear_of (opc := 0x41) (m := 0xFFF) (by rw [hw]; omega) rfl
    ((and_field_eq_zero (k := 0) (n := 12)).mpr (by rw [hw]; omega))

theorem ReservedClear.pinv (rd ra : Fin 16) :
    ReservedClear.Statement (.pinv rd ra) := by
  intro _
  have hw : (encode (.pinv rd ra)).toNat = _ := toNat_formatR (by omega) (by omega) (by omega) (by omega) (by omega)
  exact reservedClear_of (opc := 0x50) (m := 0xFFFF) (by rw [hw]; omega) rfl
    ((and_field_eq_zero (k := 0) (n := 16)).mpr (by rw [hw]; omega))

theorem ReservedClear.sampu (rd : Fin 16) :
    ReservedClear.Statement (.sampu rd) := by
  intro _
  have hw : (encode (.sampu rd)).toNat = _ := toNat_formatR (by omega) (by omega) (by omega) (by omega) (by omega)
  exact reservedClear_of (opc := 0x60) (m := 0xFFFFF) (by rw [hw]; omega) rfl
    ((and_field_eq_zero (k := 0) (n := 20)).mpr (by rw [hw]; omega))

theorem ReservedClear.sampt (rd : Fin 16) :
    ReservedClear.Statement (.sampt rd) := by
  intro _
  have hw : (encode (.sampt rd)).toNat = _ := toNat_formatR (by omega) (by omega) (by omega) (by omega) (by omega)
  exact reservedClear_of (opc := 0x61) (m := 0xFFFFF) (by rw [hw]; omega) rfl
    ((and_field_eq_zero (k := 0) (n := 20)).mpr (by rw [hw]; omega))

theorem ReservedClear.sampg (rd : Fin 16) :
    ReservedClear.Statement (.sampg rd) := by
  intro _
  have hw : (encode (.sampg rd)).toNat = _ := toNat_formatR (by omega) (by omega) (by omega) (by omega) (by omega)
  exact reservedClear_of (opc := 0x62) (m := 0xFFFFF) (by rw [hw]; omega) rfl
    ((and_field_eq_zero (k := 0) (n := 20)).mpr (by rw [hw]; omega))

theorem ReservedClear.sampb (rd : Fin 16) :
    ReservedClear.Statement (.sampb rd) := by
  intro _
  have hw : (encode (.sampb rd)).toNat = _ := toNat_formatR (by omega) (by omega) (by omega) (by omega) (by omega)
  exact reservedClear_of (opc := 0x63) (m := 0xFFFFF) (by rw [hw]; omega) rfl
    ((and_field_eq_zero (k := 0) (n := 20)).mpr (by rw [hw]; omega))

theorem ReservedClear.ykeygen (rd : Fin 16) :
    ReservedClear.Statement (.ykeygen rd) := by
  intro _
  have hw : (encode (.ykeygen rd)).toNat = _ := toNat_formatR (by omega) (by omega) (by omega) (by omega) (by omega)
  exact reservedClear_of (opc := 0x70) (m := 0xFFFFF) (by rw [hw]; omega) rfl
    ((and_field_eq_zero (k := 0) (n := 20)).mpr (by rw [hw]; omega))

theorem ReservedClear.yenc (rd ra rb : Fin 16) :
    ReservedClear.Statement (.yenc rd ra rb) := by
  intro _
  have hw : (encode (.yenc rd ra rb)).toNat = _ := toNat_formatR (by omega) (by omega) (by omega) (by omega) (by omega)
  exact reservedClear_of (opc := 0x71) (m := 0xFFF) (by rw [hw]; omega) rfl
    ((and_field_eq_zero (k := 0) (n := 12)).mpr (by rw [hw]; omega))

theorem ReservedClear.ydec (rd ra rb : Fin 16) :
    ReservedClear.Statement (.ydec rd ra rb) := by
  intro _
  have hw : (encode (.ydec rd ra rb)).toNat = _ := toNat_formatR (by omega) (by omega) (by omega) (by omega) (by omega)
  exact reservedClear_of (opc := 0x72) (m := 0xFFF) (by rw [hw]; omega) rfl
    ((and_field_eq_zero (k := 0) (n := 12)).mpr (by rw [hw]; omega))

theorem ReservedClear.ydecm (rd ra rb : Fin 16) :
    ReservedClear.Statement (.ydecm rd ra rb) := by
  intro _
  have hw : (encode (.ydecm rd ra rb)).toNat = _ := toNat_formatR (by omega) (by omega) (by omega) (by omega) (by omega)
  exact reservedClear_of (opc := 0x73) (m := 0xFFF) (by rw [hw]; omega) rfl
    ((and_field_eq_zero (k := 0) (n := 12)).mpr (by rw [hw]; omega))

theorem ReservedClear.yadd (rd ra rb : Fin 16) :
    ReservedClear.Statement (.yadd rd ra rb) := by
  intro _
  have hw : (encode (.yadd rd ra rb)).toNat = _ := toNat_formatR (by omega) (by omega) (by omega) (by omega) (by omega)
  exact reservedClear_of (opc := 0x74) (m := 0xFFF) (by rw [hw]; omega) rfl
    ((and_field_eq_zero (k := 0) (n := 12)).mpr (by rw [hw]; omega))

theorem ReservedClear.ymul (rd ra rb : Fin 16) (st : Strat) :
    ReservedClear.Statement (.ymul rd ra rb st) := by
  intro _
  have hs := stratCode_lt st
  have hw : (encode (.ymul rd ra rb st)).toNat = _ := toNat_formatR (by omega) (by omega) (by omega) (by omega) (by omega)
  exact reservedClear_of (opc := 0x75) (m := 0xFFC) (by rw [hw]; omega) rfl
    ((and_field_eq_zero (k := 2) (n := 10)).mpr (by rw [hw]; omega))

end Sys2Proof.Laws
end

