-- ==== Sys2Proof/Tests/Slice0.lean ====
section
/-! SUPPORT. The model's own tests: ill-formed terms refused, a word of every command written out
from its encoding, one-step tests with the numbers of 95_test_vectors.md, and for every statement
with hypotheses a state that meets them. -/

namespace Sys2Proof.Tests

open Sys2Proof.Machine

-- The kernel checks one test at a time: a thread for each would exhaust the memory limit.
set_option Elab.async false

/-! ### Ill-formed terms -/

theorem test_fldi_21_bits : (Instr.fldi 4 0x100000).wellFormed = false := by decide
theorem test_pmono_21_bits : (Instr.pmono 3 0x100000).wellFormed = false := by decide
theorem test_pgetc_17_bits : (Instr.pgetc 0 1 0x10000).wellFormed = false := by decide
theorem test_psetc_17_bits : (Instr.psetc 2 5 0x10000).wellFormed = false := by decide
theorem test_psplit_clog_7_bits : (Instr.psplit 4 0 64).wellFormed = false := by decide
theorem test_psplitk_clog_7_bits : (Instr.psplitk 4 0 64 0).wellFormed = false := by decide
theorem test_psplitk_klog_7_bits : (Instr.psplitk 4 0 3 64).wellFormed = false := by decide

/-! ### Words, from R96's opcodes and R91 to R95's fields (the examples of R101 and the vectors) -/

theorem test_decode_control_and_field :
    decode 0x00000000 = .ok .nop ∧ decode 0x10123000 = .ok (.fadd 1 2 3) ∧
    decode 0x11123000 = .ok (.fsub 1 2 3) ∧ decode 0x12123000 = .ok (.fmul 1 2 3) ∧
    decode 0x13120000 = .ok (.fneg 1 2) ∧ decode 0x14120000 = .ok (.finv 1 2) ∧
    decode 0x15123000 = .ok (.fdiv 1 2 3) ∧ decode 0x16400005 = .ok (.fldi 4 5) ∧
    decode 0x161FFFFF = .ok (.fldi 1 0xFFFFF) ∧ decode 0x17120000 = .ok (.fmov 1 2) ∧
    decode 0x18012000 = .ok (.feq 1 2) := by decide

theorem test_decode_ring :
    decode 0x20300000 = .ok (.pzero 3) ∧ decode 0x21000000 = .ok (.pone 0) ∧
    decode 0x22300008 = .ok (.pmono 3 8) ∧ decode 0x23410000 = .ok (.pcopy 4 1) ∧
    decode 0x24010007 = .ok (.pgetc 0 1 7) ∧ decode 0x25250003 = .ok (.psetc 2 5 3) ∧
    decode 0x26012000 = .ok (.peq 1 2) ∧ decode 0x30012000 = .ok (.padd 0 1 2) ∧
    decode 0x31012000 = .ok (.psub 0 1 2) ∧ decode 0x32010000 = .ok (.pneg 0 1) ∧
    decode 0x33013000 = .ok (.pscale 0 1 3) ∧ decode 0x34010000 = .ok (.preduce 0 1) ∧
    decode 0x354000C0 = .ok (.psplit 4 0 3) ∧ decode 0x364000C2 = .ok (.psplitk 4 0 3 2) := by
  decide

theorem test_decode_multiplier_and_inversion :
    decode 0x40012000 = .ok (.pmul 0 1 2 .dflt) ∧ decode 0x40312001 = .ok (.pmul 3 1 2 .naive) ∧
    decode 0x40012002 = .ok (.pmul 0 1 2 .rkara) ∧ decode 0x40512003 = .ok (.pmul 5 1 2 .fkara) ∧
    decode 0x41312000 = .ok (.pmulf 3 1 2) ∧ decode 0x50210000 = .ok (.pinv 2 1) := by decide

theorem test_decode_sampler_and_yashe :
    decode 0x60100000 = .ok (.sampu 1) ∧ decode 0x61100000 = .ok (.sampt 1) ∧
    decode 0x62100000 = .ok (.sampg 1) ∧ decode 0x63600000 = .ok (.sampb 6) ∧
    decode 0x70000000 = .ok (.ykeygen 0) ∧ decode 0x71564000 = .ok (.yenc 5 6 4) ∧
    decode 0x72752000 = .ok (.ydec 7 5 2) ∧ decode 0x73DC2000 = .ok (.ydecm 13 12 2) ∧
    decode 0x74A89000 = .ok (.yadd 10 8 9) ∧ decode 0x75C89000 = .ok (.ymul 12 8 9 .dflt) := by
  decide

/-- V-E1: unassigned opcodes and nonzero reserved fields. -/
theorem test_decode_refuses :
    decode 0x01000000 = .error .illegalOpcode ∧ decode 0xFF000000 = .error .illegalOpcode ∧
    decode 0x00000001 = .error .illegalField ∧ decode 0x10123001 = .error .illegalField ∧
    decode 0x26112000 = .error .illegalField ∧ decode 0x75123004 = .error .illegalField ∧
    decode 0x35F000C1 = .error .illegalField ∧ decode 0x70000001 = .error .illegalField := by
  decide

/-- R101's and V-M1's texts. -/
theorem test_assembly :
    (Instr.fadd 1 2 3).assembly = "FADD s1, s2, s3" ∧
    (Instr.psetc 2 5 3).assembly = "PSETC p2, s5, 3" ∧
    (Instr.pmul 0 1 2 .rkara).assembly = "PMUL p0, p1, p2, rkara" ∧
    (Instr.ymul 12 8 9 .dflt).assembly = "YMUL p12, p8, p9" := by decide

/-- The bits above `nbits` are 0, and the very next step runs the word. -/
theorem test_table_word :
    decodeTableWord 32 0x10123000 = some (.fadd 1 2 3) ∧ decodeTableWord 32 0x01000000 = none ∧
    decodeTableWord 8 0x101230FF = none := by decide

/-! ### One-step tests -/

/-- `s` after the word `w` is issued and one unit step taken. -/
def run (s : State) (w : Word) : State :=
  match step (s.withFetchWord 32 w.toNat) with
  | .next t => t
  | .fault _ => s
  | .refused _ => s

/-- The reset state of `c` with scalar registers set. -/
def withS (c : Config) : List (SReg × Nat) → State
  | [] => State.resetWith c
  | (r, v) :: rest => (withS c rest).setS r v

/-- The reset state of `c` with polynomial registers set. -/
def withP (c : Config) : List (PReg × Poly × Tag) → State
  | [] => State.resetWith c
  | (r, v, g) :: rest => (withP c rest).setPT r v g

/-- The oracle's next answers. -/
def drawing (s : State) (ds : List Int) : State := s.withOracle ⟨ds, 0⟩

abbrev e17 := Config.ex17
abbrev exy := Config.exy

/-- V-Z2. -/
theorem test_nop : (run State.reset 0x00000000).statusWord = 2 := by decide +kernel

/-- V-E2. -/
theorem test_illegal_opcode :
    (run State.reset 0x01000000).statusWord = 0x012 ∧
    (run State.reset 0x01000000).errcmd = 0x01000000 := by decide +kernel

/-- V-F1. -/
theorem test_fadd : (run (withS e17 [(2, 16), (3, 16)]) 0x10123000).getS 1 = 15 := by
  decide +kernel
theorem test_fsub : (run (withS e17 [(2, 3), (3, 5)]) 0x11123000).getS 1 = 15 := by decide +kernel
theorem test_fmul : (run (withS e17 [(2, 5), (3, 7)]) 0x12123000).getS 1 = 1 := by decide +kernel
theorem test_fneg : (run (withS e17 [(2, 1)]) 0x13120000).getS 1 = 16 := by decide +kernel
theorem test_fneg_zero : (run (withS e17 [(1, 5)]) 0x13120000).getS 1 = 0 := by decide +kernel

/-- V-F6, and V-F3's zero. -/
theorem test_finv : (run (withS e17 [(2, 3)]) 0x14120000).getS 1 = 6 := by decide +kernel
theorem test_finv_zero :
    (run (withS e17 [(1, 7)]) 0x14100000).statusWord = 0x62 ∧
    (run (withS e17 [(1, 7)]) 0x14100000).errcmd = 0x14100000 ∧
    (run (withS e17 [(1, 7)]) 0x14100000).getS 1 = 7 := by decide +kernel

/-- V-F2, and V-F3's 0/0. -/
theorem test_fdiv : (run (withS e17 [(2, 3), (3, 5)]) 0x15123000).getS 1 = 4 := by decide +kernel
theorem test_fdiv_zero : (run (withS e17 []) 0x15120000).err = .zeroDivisor := by decide +kernel

/-- V-F4. -/
theorem test_fldi : (run (withS e17 []) 0x161FFFFF).getS 1 = 15 := by decide +kernel

/-- V-F5. -/
theorem test_fmov : (run (withS e17 [(2, 11)]) 0x17120000).getS 1 = 11 := by decide +kernel
theorem test_feq : (run (withS e17 [(1, 4), (2, 4)]) 0x18012000).statusWord = 0x102 := by
  decide +kernel
theorem test_feq_differs : (run (withS e17 [(1, 4), (2, 5)]) 0x18012000).statusWord = 0x002 := by
  decide +kernel

/-- V-R1. -/
theorem test_pzero : (run (withP e17 [(3, [1, 2], .ct1)]) 0x20300000).getP 3 = [] := by
  decide +kernel
theorem test_pone : (run State.reset 0x21000000).getP 0 = [1] := by decide +kernel
theorem test_pmono : (run State.reset 0x2230000F).getP 3 = List.replicate 15 0 ++ [1] := by
  decide +kernel
theorem test_pmono_range : (run State.reset 0x22300010).err = .operandRange := by decide +kernel

/-- V-R2. -/
theorem test_pcopy :
    (run (withP e17 [(1, [1, 2, 3], .ct1)]) 0x23410000).getP 4 = [1, 2, 3] ∧
    (run (withP e17 [(1, [1, 2, 3], .ct1)]) 0x23410000).getTag 4 = .ct1 := by decide +kernel
theorem test_pgetc : (run (withP e17 [(1, [1, 2, 3], .plain)]) 0x24010002).getS 0 = 3 := by
  decide +kernel

/-- V-R3, V-R4. -/
theorem test_psetc_lengthens :
    (run ((withP e17 [(2, [1], .plain)]).setS 5 4) 0x25250002).getP 2 = [1, 0, 4] := by
  decide +kernel
theorem test_psetc_shortens :
    (run (withP e17 [(2, [1, 0, 4], .ct2)]) 0x25250002).getP 2 = [1] ∧
    (run (withP e17 [(2, [1, 0, 4], .ct2)]) 0x25250002).getTag 2 = .ct2 := by decide +kernel

/-- V-R5. -/
theorem test_peq :
    (run (withP e17 [(1, [5, 7, 3], .plain), (2, [5, 7, 3], .ct1)]) 0x26012000).eq = true := by
  decide +kernel
theorem test_peq_unreduced :
    (run (withP e17 [(1, mono 8, .plain), (2, [16], .plain)]) 0x26012000).eq = false := by
  decide +kernel

/-- V-R6's third row. -/
def r6 : State := withP e17 [(1, [1, 2, 3], .ct1), (2, [0, 0, 14], .ct1)]
theorem test_padd : (run r6 0x30012000).getP 0 = [1, 2] ∧ (run r6 0x30012000).getTag 0 = .plain := by
  decide +kernel
theorem test_psub : (run r6 0x31012000).getP 0 = [1, 2, 6] := by decide +kernel
theorem test_pneg : (run r6 0x32010000).getP 0 = [16, 15, 14] := by decide +kernel

/-- V-R7. -/
theorem test_pscale : (run (r6.setS 3 16) 0x33013000).getP 0 = [16, 15, 14] := by decide +kernel

/-- V-R8. -/
theorem test_preduce :
    (run (withP e17 [(1, [1, 2, 3, 4, 5, 6, 7, 8, 9, 10, 11, 12, 13, 14, 15], .ct1)])
      0x34010000).getP 0 = [9, 9, 9, 9, 9, 9, 9, 8] := by decide +kernel
theorem test_preduce_cancels :
    (run (withP e17 [(1, [1, 0, 0, 0, 0, 0, 0, 0, 1], .ct1)]) 0x34010000).getP 0 = [] := by
  decide +kernel

/-- V-R9, and V-E1's ranges. -/
theorem test_psplit :
    (run (withP e17 [(0, [1, 2, 3], .ct1)]) 0x35400080).getP 4 = [1, 2] ∧
    (run (withP e17 [(0, [1, 2, 3], .ct1)]) 0x35400080).getP 5 = [3] := by decide +kernel
theorem test_psplit_ranges :
    (run State.reset 0x35F000C0).err = .regRange ∧
    (run State.reset 0x35400000).err = .operandRange ∧
    (run State.reset 0x35400140).err = .operandRange ∧
    (run (withP e17 [(0, [1, 2, 3, 4, 5], .plain)]) 0x35400080).err = .operandRange := by
  decide +kernel

/-- V-R10: the source is read before any piece is written; and V-E1's ranges. -/
theorem test_psplitk_in_place :
    let t := run (withP e17 [(0, [1, 2, 3, 4, 5, 6, 7, 8], .ct1)]) 0x360000C3
    (List.finRange 8).map (fun r => t.getP (r.castLE (by decide))) =
      [[1], [2], [3], [4], [5], [6], [7], [8]] := by decide +kernel
theorem test_psplitk_ranges :
    (run State.reset 0x364000C5).err = .regRange ∧ (run State.reset 0x36D000C2).err = .regRange ∧
    (run State.reset 0x36C000C2).err = .noError ∧
    (run State.reset 0x36400042).err = .operandRange := by decide +kernel

/-- V-M1 to V-M3: one product, three strategies. -/
def m1 : State :=
  withP e17 [(1, [1, 2, 3, 4, 5, 6, 7, 8], .plain), (2, [8, 7, 6, 5, 4, 3, 2, 1], .plain)]
theorem test_pmul_strategies :
    (run m1 0x40012001).getP 0 = [10, 9, 12, 0, 5, 8, 7] ∧
    (run m1 0x40012002).getP 0 = [10, 9, 12, 0, 5, 8, 7] ∧
    (run m1 0x40012003).getP 0 = [10, 9, 12, 0, 5, 8, 7] := by decide +kernel

/-- V-M4's last row. -/
theorem test_pmul_unreduced :
    (run (withP e17 [(1, mono 15, .plain), (2, [1, 1], .plain)]) 0x40012000).getP 0 =
      [1, 0, 0, 0, 0, 0, 0, 16] := by decide +kernel

/-- V-M8. -/
theorem test_pmulf :
    (run (withP e17 [(1, mono 8, .plain), (2, mono 7, .plain)]) 0x41312000).getP 3 = mono 15 := by
  decide +kernel
theorem test_pmulf_capacity :
    (run (withP e17 [(1, mono 15, .plain), (2, [1, 1], .plain)]) 0x41312000).err = .capacity := by
  decide +kernel

/-- V-I2, V-I4. -/
theorem test_pinv :
    (run (withP e17 [(1, [3, 1, 4, 1, 5, 9, 2, 6], .plain)]) 0x50010000).getP 0 =
      [6, 13, 13, 11, 6, 2, 11, 10] := by decide +kernel
theorem test_pinv_fails :
    (run (withP e17 [(1, [14, 1], .plain)]) 0x50010000).err = .nonInvertible ∧
    (run (withP e17 [(1, [1, 0, 0, 0, 0, 0, 0, 0, 1], .plain)]) 0x50010000).err =
      .zeroPolynomial := by decide +kernel

/-- V-S1 to V-S4. -/
theorem test_sampu :
    (run (drawing State.reset [3, 0, 16, 0, 0, 0, 0, 0]) 0x60100000).getP 1 = [3, 0, 16] := by
  decide +kernel
theorem test_sampt :
    (run (drawing State.reset [1, 1, 0, 1, 0, 0, 0, 0]) 0x61100000).getP 1 = [1, 1, 0, 1] := by
  decide +kernel
theorem test_sampg :
    (run (drawing State.reset [1, -1, 0, 0, 1, 0, 0, 0]) 0x62100000).getP 1 = [1, 16, 0, 0, 1] := by
  decide +kernel
theorem test_sampb :
    (run (drawing State.reset [0, 1, 0, 0, 0, 0, 0, 1]) 0x63100000).getP 1 =
      [0, 1, 0, 0, 0, 0, 0, 1] := by decide +kernel

/-- V-S5: a failing decode draws nothing. -/
theorem test_failed_sampu_keeps_draws :
    (run (drawing State.reset [3, 0]) 0x60100001).oracle = ⟨[3, 0], 0⟩ := by decide +kernel

/-- V-Y1's second pass: the draws of `f` and of `g`, and the keys. -/
def drawsF : List Int := [1, -1, 0, 1, 0, 0, -1, 0]
def drawsG : List Int := [0, 1, -1, 0, 0, 1, 0, 0]
def keyF : Poly := [1, 12288, 0, 1, 0, 0, 12288]
def keyFInv : Poly := [5422, 7229, 1446, 3976, 3253, 4337, 5783, 9759]
def keySk : Poly := [3, 12287, 0, 2, 0, 0, 12287]
def keySkInv : Poly := [2167, 9043, 4633, 6869, 10951, 10596, 12122, 2713]
def keyH : Poly := [5080, 147, 4849, 3803, 11335, 209, 5087, 29]

theorem test_ykeygen :
    let t := run (drawing (State.resetWith exy) (drawsF ++ drawsG)) 0x70000000
    [t.getP 0, t.getP 1, t.getP 2, t.getP 3, t.getP 4] =
      [keyF, keyFInv, keySk, keySkInv, keyH] ∧ t.kgtries = 1 ∧ t.statusWord = 2 := by
  decide +kernel

/-- P7, step 2: a pass with `f = []` leaves the command running. -/
theorem test_ykeygen_retries :
    let t := run (drawing State.reset [0, 0, 0, 0, 0, 0, 0, 0]) 0x70000000
    t.kgcount = 1 ∧ t.busy = true ∧ t.kgtries = 0 := by decide +kernel

/-- V-Y2's draws; V-Y3's ciphertexts and V-Y5's product. -/
def drawsS : List Int := [1, 0, 0, -1, 0, 1, 0, 0]
def drawsE : List Int := [0, 0, 1, 0, -1, 0, 0, 1]
def ct1 : Poly := [1487, 6188, 4672, 5926, 11157, 440, 1431, 5835]
def ct2 : Poly := [838, 2152, 3253, 8365, 1068, 8301, 4611, 3796]
def ctm : Poly := [4105, 5665, 8112, 3685, 3936, 5425, 2583, 5248]

/-- The registers of program P5, with the message `[1]` in P6. -/
def y5 : State :=
  withP exy [(2, keySk, .plain), (4, keyH, .plain), (6, [1], .plain), (8, ct1, .ct1),
    (9, ct2, .ct1), (12, ctm, .ct2)]

theorem test_yenc :
    (run (drawing y5 (drawsS ++ drawsE)) 0x71564000).getP 5 =
      [1487, 6188, 4671, 5925, 11157, 440, 1431, 5834] ∧
    (run (drawing y5 (drawsS ++ drawsE)) 0x71564000).getTag 5 = .ct1 := by decide +kernel
theorem test_ydec :
    (run y5 0x72B82000).getP 11 = [1, 0, 1, 1, 0, 0, 0, 1] ∧
    (run y5 0x72B82000).statusWord = 2 := by decide +kernel
/-- P5, step 9. -/
theorem test_ydec_of_product :
    (run y5 0x72EC2000).getP 14 = [1, 0, 1, 0, 0, 0, 1, 1] ∧
    (run y5 0x72EC2000).noisew = true := by decide +kernel
/-- P5, step 8. -/
theorem test_ydecm :
    (run y5 0x73DC2000).getP 13 = [1, 0, 1, 1, 0, 1] ∧ (run y5 0x73DC2000).noisew = false := by
  decide +kernel
/-- P5, step 5. -/
theorem test_yadd :
    (run y5 0x74A89000).getP 10 = [2325, 8340, 7925, 2002, 12225, 8741, 6042, 9631] ∧
    (run y5 0x74A89000).getTag 10 = .ct1 := by decide +kernel
/-- P5, steps 7 and 10. -/
theorem test_ymul :
    (run y5 0x75C89000).getP 12 = ctm ∧ (run y5 0x75C89000).getTag 12 = .ct2 := by decide +kernel
theorem test_ymul_over :
    (run y5 0x75FC8000).getP 15 = [3562, 9365, 9030, 2136, 11082, 8420, 4763, 11371] ∧
    (run y5 0x75FC8000).getTag 15 = .over ∧ (run y5 0x75FC8000).depthx = true := by decide +kernel

/-- V-E3: an abort between acceptance and the unit step; a word error comes first. -/
theorem test_abort :
    (match step { State.reset.accept 0x10123000 with abreq := true } with
      | .next t => t.err | .fault _ => .noError | .refused _ => .noError) = .aborted ∧
    (match step { State.reset.accept 0x01000000 with abreq := true } with
      | .next t => t.err | .fault _ => .noError | .refused _ => .noError) = .illegalOpcode := by
  decide +kernel

/-! ### The host bus: V-B1, one access each -/

/-- `s` after one host access. -/
def access (s : State) (e : Event) : State :=
  match step { s with inputs := [e] } with
  | .next t => t
  | .fault _ => s
  | .refused _ => s

theorem test_bus_write_coefficient :
    (access State.reset (.write 0x01100008 [5, 0, 0, 0])).getP 1 = [0, 0, 5] ∧
    (access (withP e17 [(1, [0, 0, 5], .plain)]) (.write 0x01100008 [0, 0, 0, 0])).getP 1 = [] ∧
    (access State.reset (.write 0x01100000 [17, 0, 0, 0])).hosterr = true := by decide +kernel
theorem test_bus_signed_view :
    (access (withP e17 [(1, [9], .plain)]) (.read 0x02100000 4)).response =
      some ⟨false, [0xF8, 0xFF, 0xFF, 0xFF]⟩ ∧
    (access (withP e17 [(1, [8], .plain)]) (.read 0x02100000 4)).response =
      some ⟨false, [0x08, 0, 0, 0]⟩ ∧
    (access State.reset (.write 0x02100000 [0xF8, 0xFF, 0xFF, 0xFF])).getP 1 = [9] ∧
    (access State.reset (.write 0x02100000 [0xF7, 0xFF, 0xFF, 0xFF])).hosterr = true := by
  decide +kernel
theorem test_bus_scalar :
    (access State.reset (.write 0x0000100C [12, 0, 0, 0])).getS 3 = 12 ∧
    (access (withS e17 [(3, 12)]) (.read 0x0000180C 4)).response =
      some ⟨false, [0xFB, 0xFF, 0xFF, 0xFF]⟩ ∧
    (access State.reset (.write 0x00001800 [8, 0, 0, 0])).getS 0 = 8 := by decide +kernel
theorem test_bus_errors :
    (access State.reset (.read 0x01100040 4)).response = some ⟨true, [0, 0, 0, 0]⟩ ∧
    (access State.reset (.read 0x01100002 4)).response = some ⟨true, [0, 0, 0, 0]⟩ ∧
    (access State.reset (.read 0x0000000C 2)).response = some ⟨true, [0, 0]⟩ ∧
    (access { State.reset with busy := true } (.read 0x00000104 4)).hosterr = true := by
  decide +kernel
theorem test_bus_registers :
    (access State.reset (.read 0x00000000 4)).response = some ⟨false, [0x44, 0x4C, 0x59, 0x45]⟩ ∧
    (access State.reset (.read 0x00000040 4)).response = some ⟨false, [8, 0, 0, 0]⟩ ∧
    (access State.reset (.read 0x00000800 4)).response = some ⟨false, [17, 0, 0, 0]⟩ ∧
    (access State.reset (.write 0x00000144 [0xFF, 0xFF, 0xFF, 0xFF])).getTag 1 = .over ∧
    (access { State.reset with busy := true } (.read 0x0000000C 4)).response =
      some ⟨false, [1, 0, 0, 0]⟩ := by decide +kernel
/-- V-M9, V-Z3, and the W1C row of V-B1. -/
theorem test_bus_ctrl_and_status :
    (access { State.reset with mulstrat := .fkara } (.write 0x008 [6, 0, 0, 0])).ctrlWord = 4 ∧
    (access { State.reset with ie := true, done := true } (.write 0x00C [2, 0, 0, 0])).irq = false ∧
    (access { State.reset with hosterr := true } (.write 0x00C [0, 0x10, 0, 0])).statusWord = 0 := by
  decide +kernel

/-! ### Witnesses: for every statement with hypotheses, states and operands that meet them -/

theorem ex17_valid : e17.Valid := by
  refine ⟨by decide, ⟨by norm_num [Config.ex17], by decide⟩, by decide, ?_⟩
  exact ⟨by norm_num [Config.ex17], by decide⟩

theorem exy_valid : exy.Valid := by
  refine ⟨by decide, ⟨by norm_num [Config.exy, Config.ex17], by decide⟩, by decide, ?_⟩
  exact ⟨by norm_num [Config.exy, Config.ex17], by decide⟩

/-- EX17 with the widest Gaussian draws `q = 17` allows. -/
def wide : Config := { e17 with gaussTail := 8 }

theorem wide_valid : wide.Valid := by
  refine ⟨by decide, ⟨by norm_num [wide, Config.ex17], by decide⟩, by decide, ?_⟩
  exact ⟨by norm_num [wide, Config.ex17], by decide⟩

/-- A check of `InRange` with a bound on the length. -/
def okTo (q len : Nat) (a : Poly) : Bool :=
  isCanon a && decide (a.length ≤ len) && decide (0 < q) && a.all (· < q)

theorem inRange_of_okTo {q len : Nat} {a : Poly} (h : okTo q len a = true) :
    InRange q a ∧ a.length ≤ len := by
  simp only [okTo, Bool.and_eq_true, decide_eq_true_eq, List.all_eq_true] at h
  obtain ⟨⟨⟨hc, hl⟩, hq⟩, ha⟩ := h
  refine ⟨⟨hc, fun i => ?_⟩, hl⟩
  rw [coef, List.getD_eq_getElem?_getD]
  cases hg : a[i]? with
  | none => simpa using hq
  | some x => simpa using ha x (List.mem_of_getElem? hg)

theorem polyOk_of_okTo {c : Config} {a : Poly} (h : okTo c.q c.cap a = true) : PolyOk c a :=
  let ⟨h1, h2⟩ := inRange_of_okTo h
  ⟨h1.1, h2, h1.2⟩

theorem ringOk_of_okTo {c : Config} {a : Poly} (h : okTo c.q c.n a = true) : RingOk c a :=
  let ⟨h1, h2⟩ := inRange_of_okTo h
  ⟨h1.1, h2, h1.2⟩

/-- A check of `Inv`'s registers. -/
def okState (s : State) : Bool :=
  (List.finRange 16).all fun r => okTo s.cfg.q s.cfg.cap (s.getP r) && decide (s.getS r < s.cfg.q)

theorem inv_of_okState {s : State} (hc : s.cfg.Valid) (h : okState s = true) : Inv s := by
  simp only [okState, List.all_eq_true, Bool.and_eq_true, decide_eq_true_eq] at h
  exact ⟨hc, fun r => polyOk_of_okTo (h r (List.mem_finRange r)).1,
    fun r => (h r (List.mem_finRange r)).2⟩

/-- A busy PRE in EX17 with values at the ends of their ranges, each tag, and a YKEYGEN held. -/
def w17 : State :=
  { (((withP e17 [(1, [1, 2, 3, 4, 5, 6, 7, 8], .ct1), (2, [1, 1], .ct2), (3, [14, 1], .over),
      (4, mono 15, .ct1), (6, mono 8, .plain), (7, mono 7, .ct1),
      (8, [1, 0, 0, 0, 0, 0, 0, 0, 1], .plain), (9, [5], .plain)]).setS 1 4).setS 3 16) with
    busy := true, curcmd := 0x70000000 }

theorem w17_inv : Inv w17 := inv_of_okState ex17_valid (by decide +kernel)

/-- A busy PRE in EXY with the keys and ciphertexts of programs P1 and P5. -/
def wY : State := { y5 with busy := true }

theorem wY_inv : Inv wY := inv_of_okState exy_valid (by decide +kernel)

/-- The draws of a failing key candidate: `f = []`. -/
def zeros : List Int := [0, 0, 0, 0, 0, 0, 0, 0]

theorem witness_ResetInputClearsEveryElement :
    ({ w17 with inputs := [.reset] } : State).inputs = .reset :: [] := rfl

theorem witness_ResetMeetsInvariants : e17.Valid ∧ exy.Valid := ⟨ex17_valid, exy_valid⟩

theorem witness_StepRunsTheDecodedCommand :
    w17.busy = true ∧ decode w17.curcmd = .ok (.ykeygen 0) ∧
    (Instr.ykeygen 0).wellFormed = true ∧ w17.inputs = [] ∧
    ({ w17 with inputs := [.unitStep] } : State).inputs = .unitStep :: [] := by decide

theorem witness_DecodeOfEncode : (Instr.psplitk 15 15 63 63).wellFormed = true := by decide

theorem witness_EncodeOfDecode : decode 0x36FF0FFF = .ok (.psplitk 15 15 63 63) := by decide

/-- An unassigned opcode beside an assigned one, a reserved bit set and none set. -/
theorem witness_WordErrorsComplete :
    ({ w17 with curcmd := 0x19000000 } : State).busy = true ∧ w17.UnitStepNext [] ∧
    ({ w17 with inputs := [.unitStep, .reset] } : State).UnitStepNext [.reset] ∧
    bits 0x19000000 31 24 = 0x19 ∧ bits 0x18100000 31 24 = 0x18 ∧
    reservedMask 0x18 = some 0x00F00FFF ∧
    (0x18100000 : Word) &&& BitVec.ofNat 32 0x00F00FFF ≠ 0 ∧
    (0x180FF000 : Word) &&& BitVec.ofNat 32 0x00F00FFF = 0 :=
  ⟨rfl, .inl ⟨rfl, rfl⟩, .inr rfl, by decide, by decide, by decide, by decide, by decide⟩

/-- Every command with range checks, just outside its range. -/
theorem witness_RangeErrorsComeBeforeAbort :
    rangeError w17 (.pmono 0 16) = some .operandRange ∧
    rangeError w17 (.pgetc 0 1 16) = some .operandRange ∧
    rangeError w17 (.psetc 0 1 16) = some .operandRange ∧
    rangeError w17 (.psplit 15 1 3) = some .regRange ∧
    rangeError w17 (.psplit 14 1 0) = some .operandRange ∧
    rangeError w17 (.psplit 14 1 5) = some .operandRange ∧
    rangeError w17 (.psplit 14 6 3) = some .operandRange ∧
    rangeError w17 (.psplitk 13 1 3 2) = some .regRange ∧
    rangeError w17 (.psplitk 12 1 1 2) = some .operandRange ∧
    rangeError w17 (.ykeygen 12) = some .regRange := by decide +kernel

theorem witness_AbortRequestEndsCommand :
    rangeError { w17 with abreq := true } (.ykeygen 11) = none ∧
    ({ w17 with abreq := true } : State).abreq = true := by decide

theorem witness_OneStepCommandsComplete :
    ({ w17 with curcmd := 0x10123000 } : State).busy = true ∧
    ({ w17 with curcmd := 0x10123000 } : State).UnitStepNext [] ∧
    ({ w17 with curcmd := 0x10123000, inputs := [.unitStep] } : State).UnitStepNext [] ∧
    ∀ i, decode ({ w17 with curcmd := 0x10123000 } : State).curcmd = .ok i →
      isKeygen i = false := by
  refine ⟨rfl, .inl ⟨rfl, rfl⟩, .inr rfl, fun i h => ?_⟩
  have hd : decode (0x10123000 : Word) = .ok (.fadd 1 2 3) := by decide
  rw [show ({ w17 with curcmd := 0x10123000 } : State).curcmd = (0x10123000 : Word) from rfl, hd]
    at h
  obtain rfl := Except.ok.inj h
  rfl

/-- The state `exec` answers. -/
def after (i : Instr) (s : State) : State :=
  match exec i s with
  | .next t => t
  | .fault _ => s
  | .refused _ => s

/-- A completion without error, one with, and one that writes KGTRIES. -/
theorem witness_CompletionRecord :
    (w17.busy = true ∧ exec (.fadd 1 2 3) w17 = .next (after (.fadd 1 2 3) w17) ∧
      (after (.fadd 1 2 3) w17).busy = false ∧ (after (.fadd 1 2 3) w17).err = .noError) ∧
    (exec (.finv 1 0) w17 = .next (after (.finv 1 0) w17) ∧
      (after (.finv 1 0) w17).busy = false ∧ (after (.finv 1 0) w17).err ≠ .noError) ∧
    (let s := { w17 with abreq := true, kgcount := 3 };
      exec (.ykeygen 0) s = .next (after (.ykeygen 0) s) ∧
      (after (.ykeygen 0) s).busy = false ∧ (after (.ykeygen 0) s).kgtries ≠ s.kgtries) := by
  refine ⟨⟨rfl, rfl, ?_⟩, ⟨rfl, ?_⟩, rfl, ?_⟩ <;> decide +kernel

theorem witness_InfallibleCommands :
    w17.abreq = false ∧
    (match Instr.ymul 0 1 2 .dflt with
      | .finv .. | .fdiv .. | .pmono .. | .pgetc .. | .psetc .. | .psplit .. | .psplitk ..
      | .pmulf .. | .pinv .. | .ykeygen .. => False
      | _ => True) := ⟨rfl, trivial⟩

/-- A failing pass of YKEYGEN with DONE, NOISEW and DEPTHX at 1, and a refused host read. -/
theorem witness_RunningCommandShowsNothing :
    (let s := { drawing w17 zeros with done := true, noisew := true, depthx := true };
      let t := after (.ykeygen 0) s;
      s.busy = true ∧ step s = .next t ∧ t.busy = true ∧ s.UnitStepNext [] ∧
      t.done = true ∧ t.noisew = true ∧ t.depthx = true) ∧
    (let s := { w17 with inputs := [.read 0x100 4] };
      s.busy = true ∧ step s = .next ({ s with inputs := [] }.busRead 0x100 4) ∧
      ({ s with inputs := [] }.busRead 0x100 4).busy = true) := by
  refine ⟨⟨rfl, rfl, ?_, .inl ⟨rfl, rfl⟩, ?_, ?_, ?_⟩, rfl, rfl, ?_⟩ <;> decide +kernel

/-- A command that is no compare, and a compare that ends in an error. -/
theorem witness_OnlyComparesWriteEq :
    (exec .nop w17 = .next (after .nop w17) ∧
      (match Instr.nop with
        | .feq .. | .peq .. => (after .nop w17).err ≠ .noError
        | _ => True)) ∧
    (let s := { w17 with abreq := true };
      exec (.feq 1 1) s = .next (after (.feq 1 1) s) ∧
      (match Instr.feq 1 1 with
        | .feq .. | .peq .. => (after (.feq 1 1) s).err ≠ .noError
        | _ => True)) := by
  refine ⟨⟨rfl, trivial⟩, rfl, ?_⟩
  show (after (.feq 1 1) { w17 with abreq := true }).err ≠ .noError
  decide +kernel

theorem witness_DataIgnoresTags :
    exec (.yadd 0 1 2) w17 = .next (after (.yadd 0 1 2) w17) ∧
    exec (.yadd 0 1 2) { w17 with tag := Vector.replicate 16 .over } =
      .next (after (.yadd 0 1 2) { w17 with tag := Vector.replicate 16 .over }) := ⟨rfl, rfl⟩

theorem witness_NothingDependsOnStrategy :
    w17.cfg.Valid ∧ exec (.pmul 0 1 2 .dflt) w17 = .next (after (.pmul 0 1 2 .dflt) w17) ∧
    exec (.pmul 0 1 2 .dflt) { w17 with curstrat := .fkara } =
      .next (after (.pmul 0 1 2 .dflt) { w17 with curstrat := .fkara }) := ⟨ex17_valid, rfl, rfl⟩

theorem witness_IdleKeepsState :
    State.reset.busy = false ∧ State.reset.inputs = [] ∧
    ({ State.reset with inputs := [.unitStep] } : State).inputs = .unitStep :: [] := by decide

theorem witness_StepKeepsRegisters :
    let s := { w17 with curcmd := 0x40012000 }
    Inv s ∧ step s = .next (after (.pmul 0 1 2 .dflt) s) :=
  ⟨inv_of_okState ex17_valid (by decide +kernel), rfl⟩

theorem witness_StepKeepsKeygenCount :
    let s := drawing { w17 with kgcount := 1 } zeros
    KeygenOk s ∧ step s = .next (after (.ykeygen 0) s) :=
  ⟨fun _ => ⟨0, by decide, by decide⟩, rfl⟩

/-- The hypotheses of the unary statements: no abort requested, `q > 0`. -/
theorem witness_NopAndFieldResults : w17.abreq = false ∧ 0 < w17.cfg.q := by decide

theorem witness_FinvResult :
    Inv w17 ∧ w17.abreq = false ∧ w17.getS 0 = 0 ∧ w17.getS 3 ≠ 0 :=
  ⟨w17_inv, rfl, by decide, by decide⟩

theorem witness_FdivResult :
    Inv w17 ∧ w17.abreq = false ∧ w17.getS 0 = 0 ∧ w17.getS 3 ≠ 0 := witness_FinvResult

theorem witness_CompareResults : w17.abreq = false := rfl

theorem witness_ConstructorResults : w17.abreq = false ∧ 15 < w17.cfg.cap := by decide

theorem witness_CoefficientMoves : w17.abreq = false ∧ 0 < w17.cfg.cap ∧ 15 < w17.cfg.cap := by
  decide

theorem witness_CoefficientwiseResults : w17.abreq = false ∧ 0 < w17.cfg.q := by decide

/-- An unreduced operand, and one whose length is exactly `N`. -/
theorem witness_PreduceResult :
    Inv w17 ∧ w17.abreq = false ∧ ¬ (w17.getP 4).length ≤ w17.cfg.n ∧
    (w17.getP 1).length ≤ w17.cfg.n := by
  refine ⟨w17_inv, rfl, ?_⟩
  decide +kernel

/-- The largest chunk, and a source that fills the smallest one it fits. -/
theorem witness_PsplitResult :
    w17.abreq = false ∧ (15 : PReg).val = (14 : PReg).val + 1 ∧ 1 ≤ 4 ∧ 2 ^ 4 ≤ w17.cfg.cap ∧
    (w17.getP 4).length ≤ 2 ^ 4 ∧ (w17.getP 2).length ≤ 2 ^ 1 := by decide +kernel

theorem witness_PsplitkResult :
    w17.abreq = false ∧ (0 : PReg).val + 2 ^ 4 ≤ 16 ∧ 4 ≤ 4 ∧ 2 ^ 4 ≤ w17.cfg.cap ∧
    (w17.getP 4).length ≤ 2 ^ 4 ∧ (15 : PReg).val + 2 ^ 0 ≤ 16 ∧ (w17.getP 9).length ≤ 2 ^ 0 := by
  decide +kernel

theorem witness_ReductionCommutes : e17.Valid := ex17_valid

theorem witness_StrategySelection : Inv w17 ∧ w17.abreq = false := ⟨w17_inv, rfl⟩

theorem witness_StrategiesAgree : exy.Valid := exy_valid

theorem witness_PmulIsRingProduct : Inv w17 ∧ w17.abreq = false := ⟨w17_inv, rfl⟩

/-- The degree reaches CAP, it is CAP - 1, and an operand is zero. -/
theorem witness_PmulfResult :
    Inv w17 ∧ w17.abreq = false ∧
    (w17.getP 4 ≠ [] ∧ w17.getP 2 ≠ [] ∧
      w17.cfg.cap + 2 ≤ (w17.getP 4).length + (w17.getP 2).length) ∧
    (w17.getP 6 ≠ [] ∧ w17.getP 7 ≠ [] ∧
      (w17.getP 6).length + (w17.getP 7).length ≤ w17.cfg.cap + 1) ∧ w17.getP 5 = [] := by
  refine ⟨w17_inv, rfl, ?_⟩
  decide +kernel

theorem witness_CyclotomicWraparound : e17.Valid ∧ RingOk e17 [1, 2, 3, 4, 5, 6, 7, 8] :=
  ⟨ex17_valid, ringOk_of_okTo (by decide)⟩

theorem witness_DivisionWithRemainder :
    e17.Valid ∧ isCanon (cycloModulus 8) = true ∧ isCanon [14, 1] = true ∧
    (∀ i, coef (cycloModulus 8) i < e17.q) ∧ (∀ i, coef [14, 1] i < e17.q) ∧
    ([14, 1] : Poly) ≠ [] :=
  ⟨ex17_valid, by decide, by decide, (inRange_of_okTo (len := 9) (by decide)).1.2,
    (inRange_of_okTo (len := 2) (by decide)).1.2, by decide⟩

theorem witness_BezoutInvariant : e17.Valid ∧ RingOk e17 [14, 1] :=
  ⟨ex17_valid, ringOk_of_okTo (by decide)⟩

/-- V-I1's inverse. -/
theorem witness_PinvWritesTheInverse :
    Inv w17 ∧ w17.abreq = false ∧ RingOk w17.cfg [9, 8, 9, 8, 9, 8, 9, 8] ∧
    ringmul w17.cfg.q w17.cfg.n (w17.getP 2) [9, 8, 9, 8, 9, 8, 9, 8] = [1] :=
  ⟨w17_inv, rfl, ringOk_of_okTo (by decide), by decide +kernel⟩

/-- V-I5's zero element, V-I4's factor `X - 3`, and a nonzero constant, which shares no factor of
positive degree with anything. -/
theorem witness_PinvFailures :
    Inv w17 ∧ w17.abreq = false ∧ reduce 17 8 (w17.getP 8) = [] ∧
    (reduce 17 8 (w17.getP 3) ≠ [] ∧ PolyOk w17.cfg [14, 1] ∧ PolyOk w17.cfg [1] ∧
      PolyOk w17.cfg [11, 15, 5, 13, 10, 9, 3, 1] ∧ 0 < deg [14, 1] ∧
      full 17 [14, 1] [1] = reduce 17 8 (w17.getP 3) ∧
      full 17 [14, 1] [11, 15, 5, 13, 10, 9, 3, 1] = cycloModulus 8) ∧
    reduce 17 8 (w17.getP 9) = [5] ∧
    ¬ ∃ d u v : Poly, PolyOk w17.cfg d ∧ PolyOk w17.cfg u ∧ PolyOk w17.cfg v ∧
      0 < deg d ∧ full 17 d u = [5] ∧ full 17 d v = cycloModulus 8 := by
  refine ⟨w17_inv, rfl, by decide +kernel, ⟨by decide +kernel, polyOk_of_okTo (by decide),
    polyOk_of_okTo (by decide), polyOk_of_okTo (by decide), by decide, by decide +kernel,
    by decide +kernel⟩, by decide +kernel, ?_⟩
  rintro ⟨d, u, -, hd, hu, -, hdeg, h5, -⟩
  have : Fact (Nat.Prime 17) := ⟨by norm_num⟩
  have hdr : InRange 17 d := ⟨hd.1, hd.2.2⟩
  have hur : InRange 17 u := ⟨hu.1, hu.2.2⟩
  have h5' := congrArg (fun p => (toPoly 17 p).natDegree) h5
  have hd0 : toPoly 17 d ≠ 0 := by
    intro h
    rw [hdr.toPoly_eq_zero (by norm_num)] at h
    simp [h, deg] at hdeg
  have hu0 : toPoly 17 u ≠ 0 := by
    intro h
    rw [hur.toPoly_eq_zero (by norm_num)] at h
    simp [h, full] at h5
  have hl : (toPoly 17 [5]).natDegree = 0 := by
    simpa using (inRange_of_okTo (q := 17) (len := 1) (a := [5]) (by decide)).1.natDegree
  simp only [toPoly_full, Polynomial.natDegree_mul hd0 hu0, hl] at h5'
  have := hdr.natDegree
  simp only [deg] at hdeg
  omega

/-- The ends of each draw's set. -/
theorem witness_SamplersUseTheirDraws :
    w17.abreq = false ∧ 0 < w17.cfg.q ∧
    (∀ ds ∈ [[16, 0, 0, 0, 0, 0, 0, 16], [1, 0, 0, 0, 0, 0, 0, 1], [1, -1, 0, 0, 0, 0, 0, -1]],
      (drawing w17 (ds ++ [7])).oracle.pending = ds ++ [7] ∧ ds.length = w17.cfg.n) ∧
    (∀ d ∈ ([16, 0, 0, 0, 0, 0, 0, 16] : List Int), 0 ≤ d ∧ d < w17.cfg.q) ∧
    (∀ d ∈ ([1, 0, 0, 0, 0, 0, 0, 1] : List Int), 0 ≤ d ∧ d < w17.cfg.t) ∧
    (∀ d ∈ ([1, -1, 0, 0, 0, 0, 0, -1] : List Int),
      -(w17.cfg.gaussTail : Int) ≤ d ∧ d ≤ w17.cfg.gaussTail) ∧
    (∀ d ∈ ([1, 0, 0, 0, 0, 0, 0, 1] : List Int), d = 0 ∨ d = 1) := by decide +kernel

theorem witness_SamplesStayInTheirSets : w17.cfg.Valid ∧ w17.abreq = false := ⟨ex17_valid, rfl⟩

/-- V-Y1's second pass at `s`, with the last register group that fits. -/
def AcceptedPass (s : State) : Prop :=
  Inv s ∧ s.abreq = false ∧ (11 : PReg).val ≤ 11 ∧ (12 : PReg).val = (11 : PReg).val + 1 ∧
  (13 : PReg).val = (11 : PReg).val + 2 ∧ (14 : PReg).val = (11 : PReg).val + 3 ∧
  (15 : PReg).val = (11 : PReg).val + 4 ∧ s.oracle.pending = drawsF ++ (drawsG ++ [5]) ∧
  drawsF.length = s.cfg.n ∧ drawsG.length = s.cfg.n ∧
  (∀ d ∈ drawsF ++ drawsG, -(s.cfg.gaussTail : Int) ≤ d ∧ d ≤ s.cfg.gaussTail) ∧
  canon (drawsF.map fun d : Int => (d % (s.cfg.q : Int)).toNat) = keyF ∧
  padd s.cfg.q (pscale s.cfg.q keyF s.cfg.t) [1] = keySk ∧
  IsInverse s.cfg keyF keyFInv ∧ IsInverse s.cfg keySk keySkInv

/-- With KGCOUNT at 0 and at its saturation value. -/
theorem witness_KeygenAcceptsCandidate :
    let s := drawing wY (drawsF ++ (drawsG ++ [5]))
    (AcceptedPass s ∧ s.kgcount = 0) ∧ AcceptedPass { s with kgcount := 0xFFFFFFFF } := by
  have h : AcceptedPass (drawing wY (drawsF ++ (drawsG ++ [5]))) := by
    refine ⟨inv_of_okState exy_valid (by decide +kernel), rfl, ?_⟩
    refine ⟨by decide, by decide, by decide, by decide, by decide, rfl, rfl, rfl, by decide +kernel,
      by decide +kernel, by decide +kernel, ⟨ringOk_of_okTo (by decide), by decide +kernel⟩,
      ringOk_of_okTo (by decide), by decide +kernel⟩
  exact ⟨⟨h, rfl⟩, h⟩

theorem ringmul_nil_ne_one (q n : Nat) (b : Poly) : ringmul q n [] b ≠ [1] := by
  have h : ringmul q n [] b = [] := by
    have h0 : reduce q n [] = [] := by
      apply poly_ext (isCanon_reduce _ _ _) rfl
      intro i
      rw [reduce, coef_build]
      split <;> simp [residue, coef]
    rw [ringmul, h0]
    simp [full, h0]
  simp [h]

/-- A candidate without an inverse (`f = []`), and one with an inverse whose scaled key has none
(`f = [8]`, `2·8 + 1 = 17`); and a pass on free draws, for the lowest and the highest register
group. -/
theorem witness_KeygenRetriesCandidate :
    (let s := drawing w17 (zeros ++ [5]);
      Inv s ∧ s.abreq = false ∧ (11 : PReg).val ≤ 11 ∧ s.oracle.pending = zeros ++ [5] ∧
      zeros.length = s.cfg.n ∧
      (∀ d ∈ zeros, -(s.cfg.gaussTail : Int) ≤ d ∧ d ≤ s.cfg.gaussTail) ∧
      canon (zeros.map fun d : Int => (d % (s.cfg.q : Int)).toNat) = [] ∧
      NoInverse s.cfg []) ∧
    (let s := drawing { State.resetWith wide with busy := true } [8, 0, 0, 0, 0, 0, 0, 0];
      Inv s ∧ s.abreq = false ∧
      s.oracle.pending = [8, 0, 0, 0, 0, 0, 0, 0] ++ [] ∧
      (∀ d ∈ ([8, 0, 0, 0, 0, 0, 0, 0] : List Int),
        -(s.cfg.gaussTail : Int) ≤ d ∧ d ≤ s.cfg.gaussTail) ∧
      canon (([8, 0, 0, 0, 0, 0, 0, 0] : List Int).map fun d : Int =>
        (d % (s.cfg.q : Int)).toNat) = [8] ∧
      ringmul s.cfg.q s.cfg.n [8] [15] = [1] ∧
      padd s.cfg.q (pscale s.cfg.q [8] s.cfg.t) [1] = [] ∧
      NoInverse s.cfg []) ∧
    w17.cfg.Valid ∧ w17.abreq = false ∧ w17.oracle.pending = [] ∧
    ∀ rd ∈ [(0 : PReg), 11], rd.val ≤ 11 ∧ ∀ k ∈ [1, 2, 3, 4], ∃ r : PReg, r.val = rd.val + k := by
  refine ⟨⟨inv_of_okState ex17_valid (by decide +kernel), rfl, by decide, rfl, rfl,
    by decide +kernel, by decide +kernel, fun b _ => ringmul_nil_ne_one _ _ b⟩,
    ⟨inv_of_okState wide_valid (by decide +kernel), rfl, rfl, by decide +kernel, by decide +kernel,
    by decide +kernel, by decide +kernel, fun b _ => ringmul_nil_ne_one _ _ b⟩,
    ex17_valid, rfl, rfl, by decide⟩

/-- With pending draws, and on free draws. -/
theorem witness_YencResult :
    (let s := drawing wY (drawsS ++ (drawsE ++ [5]));
      Inv s ∧ s.abreq = false ∧ s.oracle.pending = drawsS ++ (drawsE ++ [5]) ∧
      drawsS.length = s.cfg.n ∧ drawsE.length = s.cfg.n ∧
      ∀ d ∈ drawsS ++ drawsE, -(s.cfg.gaussTail : Int) ≤ d ∧ d ≤ s.cfg.gaussTail) ∧
    wY.cfg.Valid ∧ wY.abreq = false ∧ wY.oracle.pending = [] :=
  ⟨⟨inv_of_okState exy_valid (by decide +kernel), rfl, rfl, rfl, rfl, by decide +kernel⟩,
    exy_valid, rfl, rfl⟩

/-- Fresh and product ciphertexts: every tag case of NOISEW. -/
theorem witness_DecryptResults :
    Inv wY ∧ wY.abreq = false ∧ wY.getTag 8 = .ct1 ∧ wY.getTag 12 = .ct2 :=
  ⟨wY_inv, rfl, by decide, by decide⟩

theorem witness_HomomorphicResults :
    Inv w17 ∧ w17.abreq = false ∧ w17.getTag 0 = .plain ∧ w17.getTag 1 = .ct1 ∧
    w17.getTag 2 = .ct2 ∧ w17.getTag 3 = .over :=
  ⟨w17_inv, rfl, by decide, by decide, by decide, by decide⟩

/-- V-Y2: the keys of V-Y1, the message `[1]` in P6, and its draws. -/
theorem witness_DecryptionUndoesEncryption :
    let s := drawing wY (drawsS ++ (drawsE ++ []))
    let g := canon (drawsG.map fun d : Int => (d % (s.cfg.q : Int)).toNat)
    let q := s.cfg.q
    let n := s.cfg.n
    let t : Int := s.cfg.t
    let m := fun i => (coef (s.getP 6) i : Int)
    let sk := fun i => t * lift s.cfg keyF i + if i = 0 then 1 else 0
    let noise := fun j => intMul n (lift s.cfg g) (fun i => drawsS.getD i 0) j +
      intMul n sk (fun i => drawsE.getD i 0) j + intMul n (lift s.cfg keyF) m j
    Inv s ∧ s.abreq = false ∧ (2 : PReg) ≠ 5 ∧ s.oracle.pending = drawsS ++ (drawsE ++ []) ∧
    drawsS.length = n ∧ drawsE.length = n ∧
    (∀ d ∈ drawsS ++ drawsE, -(s.cfg.gaussTail : Int) ≤ d ∧ d ≤ s.cfg.gaussTail) ∧
    RingOk s.cfg keyF ∧ RingOk s.cfg g ∧ RingOk s.cfg keySkInv ∧ RingOk s.cfg (s.getP 6) ∧
    s.getP 2 = padd q (pscale q keyF s.cfg.t) [1] ∧ ringmul q n (s.getP 2) keySkInv = [1] ∧
    s.getP 4 = pscale q (ringmul q n g keySkInv) s.cfg.t ∧
    ∀ j < n, |t * noise j + m j| ≤ ((q : Int) - 1) / 2 := by
  refine ⟨inv_of_okState exy_valid (by decide +kernel), rfl, by decide, rfl, rfl, rfl,
    by decide +kernel, ringOk_of_okTo (by decide), ringOk_of_okTo (by decide +kernel),
    ringOk_of_okTo (by decide), ringOk_of_okTo (by decide +kernel), by decide +kernel,
    by decide +kernel, by decide +kernel, by decide +kernel⟩

/-- V-Y3's and V-Y5's numbers. -/
def v1 (j : Nat) : Int := [17, 2, -5, -1, -10, 20, 2, 3].getD j 0
def v2 (j : Nat) : Int := [10, -1, -1, 0, 0, -2, -4, -2].getD j 0

theorem witness_ProductDecryption :
    let q := wY.cfg.q
    let n := wY.cfg.n
    let t : Int := wY.cfg.t
    let m1 := fun j => ([1, 0, 1, 1, 0, 0, 0, 1] : List Int).getD j 0
    let m2 := fun j => ([0, 1, 1] : List Int).getD j 0
    Inv wY ∧ wY.abreq = false ∧ (2 : PReg) ≠ 12 ∧
    (∀ j < n, coef (ringmul q n (wY.getP 2) (wY.getP 8)) j = residue q (v1 j)) ∧
    (∀ j < n, coef (ringmul q n (wY.getP 2) (wY.getP 9)) j = residue q (v2 j)) ∧
    (∀ j < n, v1 j % t = m1 j % t ∧ v2 j % t = m2 j % t) ∧
    ∀ j < n, |intMul n v1 v2 j| ≤ ((q : Int) - 1) / 2 := by
  refine ⟨wY_inv, rfl, by decide, by decide +kernel, by decide +kernel, by decide +kernel,
    by decide +kernel⟩

theorem witness_CmdWrite :
    (∀ s ∈ [State.reset, w17],
      ({ s with inputs := [.write 0x010 (leBytes 4 0x10123000)] } : State).inputs =
        .write 0x010 (leBytes 4 (0x10123000 : Word).toNat) :: []) ∧
    State.reset.busy = false ∧ w17.busy = true := by decide +kernel

/-- CTRL with MULSTRAT 3 and ABORT, and STATUS with every bit set and with none. -/
theorem witness_CtrlAndStatusWrites :
    ({ w17 with inputs := [.write 0x008 (leBytes 4 0xF)] } : State).inputs =
      .write 0x008 (leBytes 4 (0xF : Word).toNat) :: [] ∧
    ({ w17 with inputs := [.write 0x00C (leBytes 4 0xFFFFFFFF)] } : State).inputs =
      .write 0x00C (leBytes 4 (0xFFFFFFFF : Word).toNat) :: [] ∧
    ({ w17 with inputs := [.write 0x00C (leBytes 4 0)] } : State).inputs =
      .write 0x00C (leBytes 4 (0 : Word).toNat) :: [] := by decide +kernel

theorem witness_ReadsHaveNoSideEffects :
    ({ w17 with inputs := [.read 0x00C 4] } : State).inputs = .read 0x00C 4 :: [] ∧
    ({ w17 with inputs := [.read 0x00C 2] } : State).inputs = .read 0x00C 2 :: [] := by decide

/-- A wrong size and a misaligned access on both sides of 0x800, and the first and last aligned
address of every unmapped range, for EX17 (COEF_BYTES 4, CAP 16). -/
theorem witness_BadAccessesAreRefused :
    w17.cfg.Valid ∧ w17.cfg.coefBytes = 4 ∧ w17.cfg.cap = 16 ∧
    (∀ a ∈ [0x01C, 0x03C, 0x064, 0x0FC, 0x180, 0x7FC, 0x804, 0xFFC, 0x1040, 0x17FC, 0x1840,
        0x00FFFFFC, 0x01000040, 0x010FFFFC, 0x02F00040, 0x02FFFFFC, 0x03000000, 0xFFFFFFFC],
      (0x01C ≤ a ∧ a < 0x040) ∨ (0x064 ≤ a ∧ a < 0x100) ∨ (0x180 ≤ a ∧ a < 0x800) ∨
      (0x800 < a ∧ a < 0x1000) ∨ (0x1000 + 16 * 4 ≤ a ∧ a < 0x1800) ∨
      (0x1800 + 16 * 4 ≤ a ∧ a < 0x01000000) ∨
      (0x01000000 ≤ a ∧ 16 * 4 ≤ a % 0x00100000) ∨ 0x03000000 ≤ a) ∧
    (∀ a ∈ [0x002, 0x7FE, 0x802, 0x01100002], a % (if a < 0x800 then 4 else 4) ≠ 0) ∧
    (∀ a ∈ [0x00C, 0x800], 2 ≠ if a < 0x800 then 4 else 4) ∧
    ({ w17 with inputs := [.read 0x01C 4] } : State).inputs = .read 0x01C 4 :: [] ∧
    ({ w17 with inputs := [.write 0x01C [1, 2, 3, 4]] } : State).inputs =
      .write 0x01C [1, 2, 3, 4] :: [] := by
  refine ⟨ex17_valid, ?_⟩
  decide +kernel

/-- EX17 with a Karatsuba threshold `k`, which no rule bounds from above. -/
def withKmin (k : Nat) : Config := { e17 with kmin := k }

theorem withKmin_valid {k : Nat} (h : 1 ≤ k) : (withKmin k).Valid := by
  obtain ⟨h1, h2, h3, h4, h5, -, h7⟩ := ex17_valid
  exact ⟨h1, h2, h3, h4, h5, h, h7⟩

/-- A row without a bound where KMIN does not fit 32 bits, the bounded row at its largest value, and a
write to a read-only register and to CFG_Q. -/
theorem witness_ControlRegisterReads :
    (withKmin (2 ^ 32)).Valid ∧ (withKmin (2 ^ 32 - 1)).Valid ∧
    (withKmin (2 ^ 32 - 1)).kmin < 2 ^ 32 ∧
    ({ State.resetWith (withKmin (2 ^ 32)) with inputs := [.read (BitVec.ofNat 32 0x000) 4] }
      : State).inputs = .read (BitVec.ofNat 32 0x000) 4 :: [] ∧
    ({ State.resetWith (withKmin (2 ^ 32 - 1)) with
      inputs := [.read (BitVec.ofNat 32 0x050) 4] } : State).inputs =
      .read (BitVec.ofNat 32 0x050) 4 :: [] ∧
    ({ w17 with inputs := [.write (BitVec.ofNat 32 0x000) [1, 2, 3, 4]] } : State).inputs =
      .write (BitVec.ofNat 32 0x000) [1, 2, 3, 4] :: [] ∧
    ({ w17 with inputs := [.read 0x800 4] } : State).inputs =
      .read 0x800 w17.cfg.coefBytes :: [] ∧
    ({ w17 with inputs := [.write 0x800 [1, 2, 3, 4]] } : State).inputs =
      .write 0x800 [1, 2, 3, 4] :: [] := by
  refine ⟨withKmin_valid (by norm_num), withKmin_valid (by norm_num), ?_⟩
  decide +kernel

/-- The ends of both refused ranges. -/
theorem witness_BusyRefusesDataAccess :
    w17.busy = true ∧
    (∀ a ∈ [0x100, 0x17C, 0x1000, 0xFFFFFFFC],
      (0x100 ≤ (BitVec.ofNat 32 a).toNat ∧ (BitVec.ofNat 32 a).toNat < 0x180) ∨
        0x1000 ≤ (BitVec.ofNat 32 a).toNat) ∧
    ({ w17 with inputs := [.read 0x100 4] } : State).inputs = .read 0x100 4 :: [] ∧
    ({ w17 with inputs := [.write 0xFFFFFFFC [0, 0, 0, 0]] } : State).inputs =
      .write 0xFFFFFFFC [0, 0, 0, 0] :: [] := by decide +kernel

/-- The last coefficient of the last register, the largest accepted value and the smallest
refused one. -/
theorem witness_UnsignedCoefficientWindow :
    e17.Valid ∧ (withP e17 []).busy = false ∧ 15 < e17.cap ∧ 16 < 256 ^ e17.coefBytes ∧
    16 < e17.q ∧ 17 < 256 ^ e17.coefBytes ∧ e17.q ≤ 17 ∧
    coefAddr e17 false 15 15 = 0x01F0003C ∧
    ({ State.reset with inputs := [.read (coefAddr e17 false 15 15) 4] } : State).inputs =
      .read (coefAddr e17 false 15 15) e17.coefBytes :: [] ∧
    (∀ v ∈ [16, 17],
      ({ State.reset with inputs := [.write (coefAddr e17 false 15 15) (leBytes 4 v)] }
        : State).inputs = .write (coefAddr e17 false 15 15) (leBytes e17.coefBytes v) :: []) := by
  refine ⟨ex17_valid, ?_⟩
  decide +kernel

/-- Both ends of the accepted range, and the values just outside it. -/
theorem witness_SignedCoefficientWindow :
    e17.Valid ∧ State.reset.busy = false ∧ 15 < e17.cap ∧
    coefAddr e17 true 15 15 = 0x02F0003C ∧
    (∀ v ∈ ([-9, -8, 8, 9] : List Int),
      2 * v ≥ -(256 ^ e17.coefBytes : Int) ∧ 2 * v < (256 ^ e17.coefBytes : Int)) ∧
    ((-9 : Int) < -(((e17.q : Int) - 1) / 2) ∧ ((e17.q : Int) - 1) / 2 < 9) ∧
    (-(((e17.q : Int) - 1) / 2) ≤ (-8 : Int) ∧ (8 : Int) ≤ ((e17.q : Int) - 1) / 2) ∧
    ({ State.reset with inputs := [.write (coefAddr e17 true 15 15) [0xF8, 0xFF, 0xFF, 0xFF]] }
      : State).inputs = .write (coefAddr e17 true 15 15)
        (leBytes e17.coefBytes ((-8 : Int) % (256 ^ e17.coefBytes : Int)).toNat) :: [] := by
  refine ⟨ex17_valid, ?_⟩
  decide +kernel

theorem witness_ScalarWindows :
    e17.Valid ∧ State.reset.busy = false ∧ 17 < 256 ^ e17.coefBytes ∧ ¬ 17 < e17.q ∧ 16 < e17.q ∧
    scalarAddr e17 false 15 = 0x103C ∧ scalarAddr e17 true 15 = 0x183C ∧
    |(-8 : Int)| ≤ ((e17.q : Int) - 1) / 2 ∧ ¬ |(9 : Int)| ≤ ((e17.q : Int) - 1) / 2 ∧
    (2 * (-8 : Int) ≥ -(256 ^ e17.coefBytes : Int) ∧ 2 * (9 : Int) < (256 ^ e17.coefBytes : Int)) ∧
    ({ State.reset with inputs := [.write (scalarAddr e17 true 15) [0xF8, 0xFF, 0xFF, 0xFF]] }
      : State).inputs = .write (scalarAddr e17 true 15)
        (leBytes e17.coefBytes ((-8 : Int) % (256 ^ e17.coefBytes : Int)).toNat) :: [] := by
  refine ⟨ex17_valid, ?_⟩
  decide +kernel

theorem witness_LengthAndTagRegisters :
    State.reset.busy = false ∧
    ({ State.reset with inputs := [.read (BitVec.ofNat 32 (0x100 + 4 * (15 : PReg).val)) 4] }
      : State).inputs = .read (BitVec.ofNat 32 (0x100 + 4 * (15 : PReg).val)) 4 :: [] ∧
    ({ State.reset with inputs := [.write (BitVec.ofNat 32 0x13C) [1, 2, 3, 4]] } : State).inputs =
      .write (BitVec.ofNat 32 (0x100 + 4 * (15 : PReg).val)) [1, 2, 3, 4] :: [] ∧
    ({ State.reset with inputs := [.write (BitVec.ofNat 32 0x17C) (leBytes 4 0xFFFFFFFF)] }
      : State).inputs = .write (BitVec.ofNat 32 (0x140 + 4 * (15 : PReg).val))
        (leBytes 4 (0xFFFFFFFF : Word).toNat) :: [] := by
  decide +kernel

end Sys2Proof.Tests
end

section
/-! Every step goes on to a next state of the same configuration (00_scope.md R2, 20_memory.md R64,
60_exceptions.md R300): one lemma per layer of the step, each from the lemma that says what that
layer can do. -/

namespace Sys2Proof.Machine

variable {s t u : State}

/-! ### Commands -/

theorem SameBut.cfg (h : SameBut s u) : u.cfg = s.cfg := by
  rw [SameBut] at h
  rw [h]

/-- The frame of R313 keeps the configuration if the command's own execution does. -/
theorem runCommand_cfg (c : Option ErrCode) (r : Except ErrCode State)
    (hr : ∀ u, r = .ok u → u.cfg = s.cfg) : (s.runCommand c r).cfg = s.cfg := by
  obtain ⟨e, -, ht⟩ | ⟨-, -, ht⟩ | ⟨e, -, -, -, ht⟩ | ⟨u, -, -, hu, ht⟩ :=
    runCommand_cases c r rfl <;> rw [ht, State.complete_cfg]
  exact hr u hu

@[simp] theorem keygenPass_cfg (rd : PReg) : (s.keygenPass rd).cfg = s.cfg := by
  obtain ⟨o, h⟩ | ⟨o, f, fi, sk, ski, pk, h⟩ := keygenPass_cases (s := s) rd <;> simp [h]

/-- YKEYGEN ends by its group check, by an abort, or makes a pass. -/
theorem exec_keygen_cfg (rd : PReg) (h : exec (.ykeygen rd) s = .next t) : t.cfg = s.cfg := by
  rw [exec_keygen] at h
  cases h
  split
  · exact State.complete_cfg ..
  · split
    · exact State.complete_cfg ..
    · exact keygenPass_cfg rd

theorem exec_cfg (i : Instr) (h : exec i s = .next t) : t.cfg = s.cfg := by
  cases hk : isKeygen i with
  | false =>
    obtain ⟨r, hr, hsame, -⟩ := exec_shape i s hk
    cases hr.symm.trans h
    exact runCommand_cfg _ _ fun u hu => (hsame u hu).cfg
  | true =>
    cases i with
    | ykeygen rd => exact exec_keygen_cfg rd h
    | _ => cases hk

/-! ### Host accesses -/

@[simp] theorem busRead_cfg (addr : BitVec 32) (n : Nat) : (s.busRead addr n).cfg = s.cfg := by
  obtain ⟨-, h⟩ | ⟨tgt, -, h⟩ := busRead_cases (s := s) addr n <;> simp [h]

@[simp] theorem writeCmd_cfg (w : Word) : (s.writeCmd w).cfg = s.cfg := by
  unfold State.writeCmd
  split
  · rfl
  · exact State.accept_cfg s w

@[simp] theorem writeCsr_cfg (r : Csr) (v : Word) : (s.writeCsr r v).cfg = s.cfg := by
  cases r with
  | cmd => exact writeCmd_cfg v
  | _ => rfl

theorem writeTarget_cfg {tgt : Target} {bs : List Byte} (h : s.writeTarget tgt bs = some u) :
    u.cfg = s.cfg := by
  obtain ⟨r, -, rfl⟩ | ⟨-, rfl⟩ | ⟨sg, r, v, -, -, rfl⟩ | ⟨sg, p, i, v, -, -, rfl⟩ :=
    writeTarget_cases h
  · exact writeCsr_cfg r _
  · rfl
  · exact State.setS_cfg s r v
  · exact State.setP_cfg s p _

@[simp] theorem busWrite_cfg (addr : BitVec 32) (bs : List Byte) :
    (s.busWrite addr bs).cfg = s.cfg := by
  obtain h | ⟨tgt, u, -, hu, h⟩ := busWrite_cases (s := s) addr bs
  · rw [h, State.busError_cfg]
  · rw [h, ← writeTarget_cfg hu]

/-! ### The step -/

/-- A command, a word that is no command, and an idle unit all go on. -/
theorem unitStep_goes_on (s : State) : ∃ t, s.unitStep = .next t ∧ t.cfg = s.cfg := by
  cases hb : s.busy with
  | false => exact ⟨s, unitStep_idle hb, rfl⟩
  | true =>
    rw [unitStep_busy hb]
    cases hd : decode s.curcmd with
    | error e => exact ⟨_, runWord_error hd, State.complete_cfg s _⟩
    | ok i =>
      obtain ⟨t, ht⟩ := exec_next i s
      exact ⟨t, (runWord_ok hd).trans ht, exec_cfg i ht⟩

theorem perform_goes_on (e : Event) (s : State) : ∃ t, s.perform e = .next t ∧ t.cfg = s.cfg := by
  cases e with
  | read addr n => exact ⟨_, rfl, busRead_cfg addr n⟩
  | write addr bs => exact ⟨_, rfl, busWrite_cfg addr bs⟩
  | reset => exact ⟨_, rfl, rfl⟩
  | unitStep => exact unitStep_goes_on s

/-- Settles O17: a step is a unit step or one event's effect, and each of them goes on. -/
theorem everyStepGoesOn : Obligations.EveryStepGoesOn := by
  intro s
  obtain ⟨-, h⟩ | ⟨e, es, -, h⟩ := step_eq s
  · rw [h]
    exact unitStep_goes_on s
  · rw [h]
    exact perform_goes_on e { s with inputs := es }

end Sys2Proof.Machine
end

section
/-! What a valid configuration's parameters satisfy (00_scope.md R2). -/

namespace Sys2Proof

variable {c : Config}

theorem Config.Valid.q_prime (h : c.Valid) : c.q.Prime := by
  obtain ⟨-, ⟨hq, -⟩, -⟩ := h
  exact hq

theorem Config.Valid.q_pos (h : c.Valid) : 0 < c.q := h.q_prime.pos

theorem Config.Valid.one_lt_q (h : c.Valid) : 1 < c.q := h.q_prime.one_lt

theorem Config.Valid.t_bounds (h : c.Valid) : 2 ≤ c.t ∧ c.t < c.q ∧ c.t < 2 ^ 32 := by
  obtain ⟨-, -, ht, -⟩ := h
  exact ht

theorem Config.Valid.coefBytes_cases (h : c.Valid) :
    c.coefBytes = 4 ∨ c.coefBytes = 8 ∨ c.coefBytes = 16 := by
  obtain ⟨-, -, -, -, -, -, -, hb, -⟩ := h
  exact hb

theorem Config.Valid.qbits_lt (h : c.Valid) : c.qbits < 2 ^ 32 := by
  have hb := h.coefBytes_cases
  obtain ⟨-, -, -, -, -, -, -, -, hqb, -⟩ := h
  omega

theorem Config.Valid.logN_le (h : c.Valid) : c.logN ≤ 15 := by
  obtain ⟨⟨-, hn⟩, -⟩ := h
  exact hn

theorem Config.Valid.flatk_le (h : c.Valid) : c.flatk ≤ 15 := by
  have hn := h.logN_le
  obtain ⟨-, -, -, -, -, -, hk, -⟩ := h
  omega

theorem Config.n_pos (c : Config) : 0 < c.n := Nat.two_pow_pos c.logN

theorem Config.n_lt_cap (c : Config) : c.n < c.cap := by
  have := c.n_pos
  unfold Config.cap
  omega

theorem Config.Valid.n_le (h : c.Valid) : c.n ≤ 2 ^ 15 :=
  Nat.pow_le_pow_right (by decide) h.logN_le

end Sys2Proof
end

section
/-! The values that commands compute are fit for a polynomial register of a valid configuration:
canonical, in capacity, coefficients in `[0, q)` (10_state.md R21, R22). -/

namespace Sys2Proof.Machine

variable {c : Config}

/-! ### From range and length to `PolyOk` -/

theorem InRange.polyOk {a : Poly} (h : InRange c.q a) (hl : a.length ≤ c.cap) : PolyOk c a :=
  ⟨h.canon, hl, h.lt⟩

/-- A value of the ring in reduced form fits a register. -/
theorem InRange.polyOk_of_length_le_n {a : Poly} (h : InRange c.q a) (hl : a.length ≤ c.n) :
    PolyOk c a :=
  h.polyOk (hl.trans c.n_lt_cap.le)

theorem polyOk_nil (hc : c.Valid) : PolyOk c [] := (inRange_nil hc.q_pos).polyOk (Nat.zero_le _)

theorem polyOk_one (hc : c.Valid) : PolyOk c [1] :=
  (inRange_one hc.one_lt_q).polyOk_of_length_le_n c.n_pos

theorem polyOk_mono (hc : c.Valid) {k : Nat} (hk : k < c.cap) : PolyOk c (mono k) :=
  (inRange_mono hc.one_lt_q k).polyOk ((length_mono k).trans_le hk)

theorem polyOk_setCoef {a : Poly} {i v : Nat} (ha : PolyOk c a) (hi : i < c.cap) (hv : v < c.q) :
    PolyOk c (setCoef c.cap a i v) := by
  obtain ⟨-, hl, hlt⟩ := ha
  exact (inRange_setCoef hlt _ _ _ hi hv).polyOk (length_setCoef_le _ _ _ _ hl)

theorem polyOk_padd (hc : c.Valid) {a b : Poly} (ha : a.length ≤ c.cap) (hb : b.length ≤ c.cap) :
    PolyOk c (padd c.q a b) :=
  (inRange_padd hc.q_pos a b).polyOk ((length_padd_le _ _ _).trans (max_le ha hb))

theorem polyOk_psub (hc : c.Valid) {a b : Poly} (ha : a.length ≤ c.cap) (hb : b.length ≤ c.cap) :
    PolyOk c (psub c.q a b) :=
  (inRange_psub hc.q_pos a b).polyOk ((length_psub_le _ _ _).trans (max_le ha hb))

theorem polyOk_pneg (hc : c.Valid) {a : Poly} (ha : a.length ≤ c.cap) : PolyOk c (pneg c.q a) :=
  (inRange_pneg hc.q_pos a).polyOk ((length_pneg_le _ _).trans ha)

theorem polyOk_pscale (hc : c.Valid) {a : Poly} (k : Nat) (ha : a.length ≤ c.cap) :
    PolyOk c (pscale c.q a k) :=
  (inRange_pscale hc.q_pos a k).polyOk ((length_pscale_le _ _ _).trans ha)

theorem polyOk_reduce (hc : c.Valid) (a : Poly) : PolyOk c (reduce c.q c.n a) :=
  (inRange_reduce hc.q_pos c.n a).polyOk_of_length_le_n (length_reduce_le _ _ _)

theorem polyOk_piece (hc : c.Valid) {a : Poly} (ha : PolyOk c a) (i : Nat) {l : Nat}
    (hl : l ≤ c.cap) : PolyOk c (piece a i l) := by
  obtain ⟨-, -, hlt⟩ := ha
  exact (inRange_piece hc.q_pos hlt i l).polyOk ((length_piece_le _ _ _).trans hl)

/-- PMULF's capacity check (42_multiply.md R201) leaves the products that fit. -/
theorem polyOk_full (hc : c.Valid) {a b : Poly}
    (h : ¬ (0 < a.length ∧ 0 < b.length ∧ (c.cap : Int) ≤ deg a + deg b)) :
    PolyOk c (full c.q a b) := by
  refine (inRange_full hc.q_pos a b).polyOk ?_
  by_cases h0 : a.length = 0 ∨ b.length = 0
  · rw [full, if_pos h0]
    exact Nat.zero_le _
  · have hl := length_full_le c.q a b
    unfold deg at h
    omega

/-! ### Products -/

/-- Every strategy ends with a fold into the ring (42_multiply.md R204 to R206). -/
theorem ringProduct_eq_reduce (st : MulStrat) (a b : Poly) :
    ∃ x, ringProduct st c a b = reduce c.q c.n x := by
  cases st <;> exact ⟨_, rfl⟩

theorem polyOk_ringProduct (hc : c.Valid) (st : MulStrat) (a b : Poly) :
    PolyOk c (ringProduct st c a b) := by
  obtain ⟨x, hx⟩ := ringProduct_eq_reduce (c := c) st a b
  rw [hx]
  exact polyOk_reduce hc x

/-! ### Inverses -/

/-- The Euclidean loop keeps what each pass keeps. -/
theorem EeaInv.loop {q n : Nat} (hq : q.Prime) {a : Poly} (fuel : Nat) {e : EeaState}
    (h : EeaInv q n a e) : EeaInv q n a (eeaLoop q fuel e) := by
  induction fuel generalizing e with
  | zero => exact h
  | succ fuel ih =>
    rw [eeaLoop]
    split
    · exact h
    · rename_i hne
      obtain ⟨hpass, -⟩ := EeaInv.pass hq a e h hne
      exact ih hpass

/-- The Bezout coefficient that `eea` answers is a reduced value (43_inversion.md R231). -/
theorem length_eea_le {q n : Nat} (hq : q.Prime) (hn : 0 < n) {a : Poly} (ha : InRange q a)
    (hl : a.length ≤ n) : (eea q n a).2.length ≤ n := by
  have h := (EeaInv.start hq.one_lt hn a ha hl).loop hq a.length
  have h2 := h.l2
  have h3 := h.l3
  show (eeaLoop q a.length (eeaStart n a)).yPrev.length ≤ n
  omega

/-- An inverse that PINV's computation answers fits a register. -/
theorem polyOk_ringInverse (hc : c.Valid) {x b : Poly} (h : ringInverse c.q c.n x = .ok b) :
    PolyOk c b := by
  unfold ringInverse at h
  dsimp only at h
  split at h
  · cases h
  · split at h
    · cases h
    · cases h
      have hl := length_eea_le hc.q_prime c.n_pos (inRange_reduce hc.q_pos c.n x)
        (length_reduce_le _ _ _)
      exact polyOk_pscale hc _ (hl.trans c.n_lt_cap.le)

/-! ### Samples -/

theorem length_take (k : Nat) (o : Oracle) : (Oracle.take k o).1.length = k := by
  induction k generalizing o with
  | zero => rfl
  | succ k ih => simp [Oracle.take, ih]

theorem inRange_canon {q : Nat} (hq : 0 < q) {l : List Nat} (h : ∀ x ∈ l, x < q) :
    InRange q (canon l) := by
  refine ⟨isCanon_canon l, fun i => ?_⟩
  rw [coef_canon]
  by_cases hi : i < l.length
  · exact h _ (coef_mem l i hi)
  · rwa [coef_eq_zero l i (Nat.le_of_not_lt hi)]

theorem polyOk_sample (hc : c.Valid) {f : Int → Nat} (hf : ∀ d, f d < c.q) (o : Oracle) :
    PolyOk c (sample c f o).1 := by
  have hr : InRange c.q (sample c f o).1 := inRange_canon hc.q_pos fun x hx => by
    obtain ⟨d, -, rfl⟩ := List.mem_map.mp hx
    exact hf d
  refine hr.polyOk_of_length_le_n ((length_canon_le _).trans ?_)
  rw [List.length_map, length_take]

/-- A draw from `[0, m)` is a residue when `m ≤ q` (44_sampling.md R250). -/
theorem drawBelow_lt {m q : Nat} (hm : 0 < m) (hmq : m ≤ q) (d : Int) : drawBelow m d < q :=
  (residue_lt hm d).trans_le hmq

theorem gaussCoef_lt (hc : c.Valid) (d : Int) : gaussCoef c d < c.q := residue_lt hc.q_pos _

theorem polyOk_sampleG (hc : c.Valid) (o : Oracle) : PolyOk c (sampleG c o).1 :=
  polyOk_sample hc (gaussCoef_lt hc) o

/-! ### Keys, ciphertexts and messages -/

theorem polyOk_scaledKey (hc : c.Valid) {f : Poly} (hf : PolyOk c f) :
    PolyOk c (scaledKey c f) := by
  obtain ⟨-, hl, -⟩ := hf
  obtain ⟨-, h1, -⟩ := polyOk_one hc
  exact polyOk_padd hc ((length_pscale_le _ _ _).trans hl) h1

/-- Everything a candidate that is a key brings: its inverse, the scaled key and that one's
inverse (45_yashe.md R271). -/
theorem keyCandidate_eq_some {f fi sk ski : Poly} (h : keyCandidate c f = some (fi, sk, ski)) :
    ringInverse c.q c.n f = .ok fi ∧ sk = scaledKey c f ∧
      ringInverse c.q c.n (scaledKey c f) = .ok ski := by
  unfold keyCandidate at h
  split at h
  · cases h
  · rename_i fi' hfi
    split at h
    · cases h
    · rename_i ski' hski
      cases h
      exact ⟨hfi, rfl, hski⟩

theorem polyOk_publicKey (hc : c.Valid) (st : MulStrat) (g ski : Poly) :
    PolyOk c (publicKey st c g ski) := by
  obtain ⟨-, hl, -⟩ := polyOk_ringProduct hc st g ski
  exact polyOk_pscale hc _ hl

theorem polyOk_encryptPoly (hc : c.Valid) (st : MulStrat) (m h s : Poly) {e : Poly}
    (he : PolyOk c e) : PolyOk c (encryptPoly st c m h s e) := by
  obtain ⟨-, hle, -⟩ := he
  obtain ⟨-, hlp, -⟩ := polyOk_ringProduct hc st (reduce c.q c.n h) s
  obtain ⟨-, hlm, -⟩ := polyOk_reduce hc m
  obtain ⟨-, hls, -⟩ := polyOk_padd hc hlp ((length_pscale_le c.q e c.t).trans hle)
  exact polyOk_padd hc hls hlm

/-- A decrypted message has coefficients below `t`, and `t < q` (45_yashe.md R274). -/
theorem polyOk_decodeMessage (hc : c.Valid) (w : Poly) : PolyOk c (decodeMessage c w) := by
  obtain ⟨ht, htq, -⟩ := hc.t_bounds
  refine InRange.polyOk_of_length_le_n ⟨isCanon_build _ _, fun i => ?_⟩ (length_build_le _ _)
  rw [decodeMessage, coef_build]
  split
  · exact (residue_lt (by omega) _).trans htq
  · exact hc.q_pos

end Sys2Proof.Machine
end

section
/-! What a command's execution writes: one of five kinds of write, with values that fit their
registers. The claims about what every command keeps (10_state.md R22, R26) are read off these
kinds, so that the case split over the commands is made once. -/

namespace Sys2Proof.Machine

variable {s t : State}

/-! ### The invariant and single writes -/

theorem Inv.valid (h : Inv s) : s.cfg.Valid := by
  obtain ⟨hc, -⟩ := h
  exact hc

theorem Inv.getP_ok (h : Inv s) (r : PReg) : PolyOk s.cfg (s.getP r) := by
  obtain ⟨-, hp, -⟩ := h
  exact hp r

theorem Inv.length_getP_le (h : Inv s) (r : PReg) : (s.getP r).length ≤ s.cfg.cap := by
  obtain ⟨-, hl, -⟩ := h.getP_ok r
  exact hl

theorem Inv.coef_getP_lt (h : Inv s) (r : PReg) (i : Nat) : coef (s.getP r) i < s.cfg.q := by
  obtain ⟨-, -, hlt⟩ := h.getP_ok r
  exact hlt i

theorem Inv.getS_lt (h : Inv s) (r : SReg) : s.getS r < s.cfg.q := by
  obtain ⟨-, -, hs⟩ := h
  exact hs r

/-- The register invariant reads the configuration and the two register files only. -/
theorem Inv.of_registers_eq (h : Inv s) (hc : t.cfg = s.cfg) (hp : t.p = s.p)
    (hsc : t.sc = s.sc) : Inv t := by
  unfold Inv State.getP State.getS
  rw [hc, hp, hsc]
  exact h

theorem Inv.complete (h : Inv s) (e : ErrCode) : Inv (s.complete e) := h.of_registers_eq rfl rfl rfl

theorem Inv.setS (h : Inv s) (r : SReg) {v : Nat} (hv : v < s.cfg.q) : Inv (s.setS r v) := by
  obtain ⟨hc, hp, hs⟩ := h
  refine ⟨hc, hp, fun x => ?_⟩
  rw [State.setS_getS]
  split
  · exact hv
  · exact hs x

theorem Inv.setP (h : Inv s) (r : PReg) {v : Poly} (hv : PolyOk s.cfg v) : Inv (s.setP r v) := by
  obtain ⟨hc, hp, hs⟩ := h
  refine ⟨hc, fun x => ?_, hs⟩
  rw [State.setP_getP]
  split
  · exact hv
  · exact hp x

theorem Inv.setPT (h : Inv s) (r : PReg) {v : Poly} (g : Tag) (hv : PolyOk s.cfg v) :
    Inv (s.setPT r v g) :=
  (h.setP r hv).of_registers_eq rfl rfl rfl

theorem Inv.setGroup {vs : List Poly} {b : Nat} (h : Inv s) (hv : ∀ v ∈ vs, PolyOk s.cfg v) :
    Inv (s.setGroup b vs) := by
  induction vs generalizing s b with
  | nil => exact h
  | cons v vs ih =>
    exact ih (h.setPT _ _ (hv v (List.mem_cons_self ..)))
      fun w hw => hv w (List.mem_cons_of_mem _ hw)

/-! ### The kinds of write -/

/-- The command is one of the two compares (10_state.md R26). -/
def isCompare : Instr → Bool
  | .feq _ _ => true
  | .peq _ _ => true
  | _ => false

theorem isCompare_iff (i : Instr) :
    isCompare i = true ↔ (∃ ra rb, i = .feq ra rb) ∨ ∃ ra rb, i = .peq ra rb := by
  cases i <;> simp [isCompare]

/-- `Wrote i s u`: the execution of `i` in `s` wrote what makes `s` into `u`. A value is known to
fit its register when the registers it was computed from are well kept. -/
inductive Wrote (i : Instr) (s : State) : State → Prop where
  | nothing : Wrote i s s
  | flag (b : Bool) (hi : isCompare i = true) : Wrote i s (s.setEq b)
  | scalar (r : SReg) (v : Nat) (hv : Inv s → v < s.cfg.q) : Wrote i s (s.setS r v)
  /-- one polynomial, with whatever its command does to tags, sticky flags and the oracle -/
  | poly (r : PReg) (v : Poly) (hv : Inv s → PolyOk s.cfg v) (g : Vector Tag 16) (n d : Bool)
      (o : Oracle) : Wrote i s { s.setP r v with tag := g, noisew := n, depthx := d, oracle := o }
  | group (b : Nat) (vs : List Poly) (hv : Inv s → ∀ v ∈ vs, PolyOk s.cfg v) :
      Wrote i s (s.setGroup b vs)

/-- A write of fitting values keeps the registers well kept. -/
theorem Wrote.inv {i : Instr} {u : State} (h : Wrote i s u) (hs : Inv s) : Inv u := by
  cases h with
  | nothing => exact hs
  | flag b => exact hs.of_registers_eq rfl rfl rfl
  | scalar r v hv => exact hs.setS r (hv hs)
  | poly r v hv => exact (hs.setP r (hv hs)).of_registers_eq rfl rfl rfl
  | group b vs hv => exact hs.setGroup (hv hs)

/-- Only a compare's write reaches EQ. -/
theorem Wrote.eq_flag {i : Instr} {u : State} (h : Wrote i s u) (hi : isCompare i = false) :
    u.eq = s.eq := by
  cases h with
  | flag b hc => rw [hi] at hc; cases hc
  | group b vs => exact State.setGroup_eq vs b s
  | _ => rfl

/-- A command that runs in the frame of 60_exceptions.md R313 and, past its range checks, makes
one of the five kinds of write or none. -/
def RunsWriting (i : Instr) (s : State) : Prop :=
  ∃ r, exec i s = .next (s.runCommand (rangeError s i) r) ∧
    ∀ u, rangeError s i = none → r = .ok u → Wrote i s u

theorem runsWriting_of_ok {i : Instr} {u : State}
    (hx : exec i s = .next (s.runCommand (rangeError s i) (.ok u)))
    (hu : rangeError s i = none → Wrote i s u) : RunsWriting i s :=
  ⟨.ok u, hx, fun _ hc hr => by cases hr; exact hu hc⟩

/-- A command whose operands may make it fail instead. -/
theorem runsWriting_of_ite {i : Instr} {u : State} {p : Prop} [Decidable p] {e : ErrCode}
    (hx : exec i s = .next (s.runCommand (rangeError s i) (if p then .error e else .ok u)))
    (hu : ¬ p → Wrote i s u) : RunsWriting i s := by
  refine ⟨_, hx, fun v _ hr => ?_⟩
  split at hr
  · cases hr
  · rename_i hp
    cases hr
    exact hu hp

theorem runsWriting_of_scalar {i : Instr} (r : SReg) (v : Nat)
    (hx : exec i s = .next (s.runCommand (rangeError s i) (.ok (s.setS r v))))
    (hv : rangeError s i = none → Inv s → v < s.cfg.q) : RunsWriting i s :=
  runsWriting_of_ok hx fun hc => .scalar r v (hv hc)

theorem runsWriting_of_poly {i : Instr} (r : PReg) (v : Poly) (g : Tag)
    (hx : exec i s = .next (s.runCommand (rangeError s i) (.ok (s.setPT r v g))))
    (hv : rangeError s i = none → Inv s → PolyOk s.cfg v) : RunsWriting i s :=
  runsWriting_of_ok hx fun hc => .poly r v (hv hc) _ _ _ _

/-! ### The range checks that bound a written value -/

theorem lt_cap_of_check {c : Config} {k : Nat}
    (h : (if c.cap ≤ k then some ErrCode.operandRange else none) = none) : k < c.cap := by
  split at h
  · cases h
  · omega

theorem two_pow_le_cap_of_psplit {rd ra : PReg} {k : Nat}
    (h : rangeError s (.psplit rd ra k) = none) : 2 ^ k ≤ s.cfg.cap := by
  simp only [rangeError] at h
  split at h
  · cases h
  · split at h
    · cases h
    · omega

theorem two_pow_le_cap_of_psplitk {rd ra : PReg} {k l : Nat}
    (h : rangeError s (.psplitk rd ra k l) = none) : 2 ^ k ≤ s.cfg.cap := by
  simp only [rangeError] at h
  split at h
  · cases h
  · split at h
    · cases h
    · omega

theorem le_eleven_of_ykeygen {rd : PReg} (h : rangeError s (.ykeygen rd) = none) :
    rd.val ≤ 11 := by
  simp only [rangeError] at h
  split at h
  · cases h
  · omega

/-! ### Every command -/

theorem exec_runsWriting (i : Instr) (s : State) (h : isKeygen i = false) : RunsWriting i s := by
  cases i with
  | nop => exact runsWriting_of_ok rfl fun _ => .nothing
  -- the field unit
  | fadd rd ra rb => exact runsWriting_of_scalar rd _ rfl fun _ hs => fieldAdd_lt hs.valid.q_pos _ _
  | fsub rd ra rb => exact runsWriting_of_scalar rd _ rfl fun _ hs => fieldSub_lt hs.valid.q_pos _ _
  | fmul rd ra rb => exact runsWriting_of_scalar rd _ rfl fun _ hs => fieldMul_lt hs.valid.q_pos _ _
  | fneg rd ra => exact runsWriting_of_scalar rd _ rfl fun _ hs => fieldNeg_lt hs.valid.q_pos _
  | finv rd ra =>
    exact runsWriting_of_ite rfl fun _ => .scalar rd _ fun hs => fieldInv_lt hs.valid.one_lt_q _
  | fdiv rd ra rb =>
    exact runsWriting_of_ite rfl fun _ => .scalar rd _ fun hs => fieldMul_lt hs.valid.q_pos _ _
  | fldi rd imm => exact runsWriting_of_scalar rd _ rfl fun _ hs => Nat.mod_lt _ hs.valid.q_pos
  | fmov rd ra => exact runsWriting_of_scalar rd _ rfl fun _ hs => hs.getS_lt ra
  | feq ra rb => exact runsWriting_of_ok rfl fun _ => .flag _ rfl
  -- the ring unit
  | pzero rd => exact runsWriting_of_poly rd _ _ rfl fun _ hs => polyOk_nil hs.valid
  | pone rd => exact runsWriting_of_poly rd _ _ rfl fun _ hs => polyOk_one hs.valid
  | pmono rd k =>
    exact runsWriting_of_poly rd _ _ rfl fun hc hs => polyOk_mono hs.valid (lt_cap_of_check hc)
  | pcopy rd ra => exact runsWriting_of_poly rd _ _ rfl fun _ hs => hs.getP_ok ra
  | pgetc rd ra k => exact runsWriting_of_scalar rd _ rfl fun _ hs => hs.coef_getP_lt ra k
  | psetc rd ra k =>
    exact runsWriting_of_ok rfl fun hc => .poly rd _
      (fun hs => polyOk_setCoef (hs.getP_ok rd) (lt_cap_of_check hc) (hs.getS_lt ra)) _ _ _ _
  | peq ra rb => exact runsWriting_of_ok rfl fun _ => .flag _ rfl
  | padd rd ra rb =>
    exact runsWriting_of_poly rd _ _ rfl fun _ hs =>
      polyOk_padd hs.valid (hs.length_getP_le ra) (hs.length_getP_le rb)
  | psub rd ra rb =>
    exact runsWriting_of_poly rd _ _ rfl fun _ hs =>
      polyOk_psub hs.valid (hs.length_getP_le ra) (hs.length_getP_le rb)
  | pneg rd ra =>
    exact runsWriting_of_poly rd _ _ rfl fun _ hs => polyOk_pneg hs.valid (hs.length_getP_le ra)
  | pscale rd ra rb =>
    exact runsWriting_of_poly rd _ _ rfl fun _ hs => polyOk_pscale hs.valid _ (hs.length_getP_le ra)
  | preduce rd ra => exact runsWriting_of_poly rd _ _ rfl fun _ hs => polyOk_reduce hs.valid _
  | psplit rd ra k =>
    refine runsWriting_of_ok (by rw [← checkSplit_eq]; rfl) fun hc => .group _ _ fun hs v hv => ?_
    have hl : 2 ^ k / 2 ≤ s.cfg.cap := (Nat.div_le_self _ _).trans (two_pow_le_cap_of_psplit hc)
    obtain rfl | rfl : v = _ ∨ v = _ := by simpa using hv
    · exact polyOk_piece hs.valid (hs.getP_ok ra) _ hl
    · exact polyOk_piece hs.valid (hs.getP_ok ra) _ hl
  | psplitk rd ra k l =>
    refine runsWriting_of_ok (by rw [← checkSplitK_eq]; rfl) fun hc => .group _ _ fun hs v hv => ?_
    obtain ⟨j, -, rfl⟩ := List.mem_map.mp hv
    exact polyOk_piece hs.valid (hs.getP_ok ra) _
      ((Nat.div_le_self _ _).trans (two_pow_le_cap_of_psplitk hc))
  -- the multiplier and the inversion engine
  | pmul rd ra rb st =>
    exact runsWriting_of_poly rd _ _ rfl fun _ hs => polyOk_ringProduct hs.valid _ _ _
  | pmulf rd ra rb =>
    exact runsWriting_of_ite rfl fun hfit =>
      .poly rd _ (fun hs => polyOk_full hs.valid hfit) _ _ _ _
  | pinv rd ra =>
    refine ⟨_, rfl, fun u _ hu => ?_⟩
    split at hu
    · cases hu
    · rename_i b hb
      cases hu
      exact .poly rd b (fun hs => polyOk_ringInverse hs.valid hb) _ _ _ _
  -- the samplers
  | sampu rd =>
    exact runsWriting_of_ok rfl fun _ => .poly rd _
      (fun hs => polyOk_sample hs.valid (drawBelow_lt hs.valid.q_pos le_rfl) _) _ _ _ _
  | sampt rd =>
    refine runsWriting_of_ok rfl fun _ => .poly rd _ (fun hs => ?_) _ _ _ _
    obtain ⟨ht, htq, -⟩ := hs.valid.t_bounds
    exact polyOk_sample hs.valid (drawBelow_lt (by omega) htq.le) _
  | sampg rd =>
    exact runsWriting_of_ok rfl fun _ => .poly rd _ (fun hs => polyOk_sampleG hs.valid _) _ _ _ _
  | sampb rd =>
    exact runsWriting_of_ok rfl fun _ => .poly rd _
      (fun hs => polyOk_sample hs.valid (drawBelow_lt two_pos hs.valid.one_lt_q) _) _ _ _ _
  -- the ciphertext operators
  | ykeygen rd => cases h
  | yenc rd ra rb =>
    exact runsWriting_of_ok rfl fun _ => .poly rd _
      (fun hs => polyOk_encryptPoly hs.valid _ _ _ _ (polyOk_sampleG hs.valid _)) _ _ _ _
  | ydec rd ra rb =>
    exact runsWriting_of_ok rfl fun _ =>
      .poly rd _ (fun hs => polyOk_decodeMessage hs.valid _) _ _ _ _
  | ydecm rd ra rb =>
    exact runsWriting_of_ok rfl fun _ =>
      .poly rd _ (fun hs => polyOk_decodeMessage hs.valid _) _ _ _ _
  | yadd rd ra rb =>
    exact runsWriting_of_ok rfl fun _ => .poly rd _ (fun hs => polyOk_reduce hs.valid _) _ _ _ _
  | ymul rd ra rb st =>
    exact runsWriting_of_ok rfl fun _ =>
      .poly rd _ (fun hs => polyOk_ringProduct hs.valid _ _ _) _ _ _ _

/-- Everything a command other than YKEYGEN can do: complete with an error, having written nothing,
or complete without one after its write. -/
theorem exec_cases {i : Instr} (hk : isKeygen i = false) (h : exec i s = .next t) :
    (∃ e, t = s.complete e) ∨ ∃ u, Wrote i s u ∧ t = u.complete .noError := by
  obtain ⟨r, hr, hw⟩ := exec_runsWriting i s hk
  cases hr.symm.trans h
  obtain ⟨e, -, ht⟩ | ⟨-, -, ht⟩ | ⟨e, -, -, -, ht⟩ | ⟨u, hc, -, hu, ht⟩ :=
    runCommand_cases (rangeError s i) r rfl
  · exact .inl ⟨e, ht⟩
  · exact .inl ⟨.aborted, ht⟩
  · exact .inl ⟨e, ht⟩
  · exact .inr ⟨u, hw u hc hu, ht⟩

/-! ### YKEYGEN -/

/-- A pass whose candidate is no key counts the try and keeps the draws (45_yashe.md R271). -/
theorem keygenPass_of_none (rd : PReg)
    (hk : keyCandidate s.cfg (sampleG s.cfg s.oracle).1 = none) :
    s.keygenPass rd =
      { s with kgcount := satInc s.kgcount, oracle := (sampleG s.cfg s.oracle).2 } := by
  simp only [State.keygenPass, hk]

/-- A pass whose candidate is a key writes the group of five (45_yashe.md R271). -/
theorem keygenPass_of_some (rd : PReg) {fi sk ski : Poly}
    (hk : keyCandidate s.cfg (sampleG s.cfg s.oracle).1 = some (fi, sk, ski)) :
    s.keygenPass rd =
      (State.setGroup { s with
        kgcount := satInc s.kgcount, kgtries := satInc s.kgcount,
        oracle := (sampleG s.cfg (sampleG s.cfg s.oracle).2).2 } rd
        [(sampleG s.cfg s.oracle).1, fi, sk, ski, publicKey s.curstrat s.cfg
          (sampleG s.cfg (sampleG s.cfg s.oracle).2).1 ski]).complete .noError := by
  simp only [State.keygenPass, hk]

theorem Inv.keygenPass (h : Inv s) (rd : PReg) : Inv (s.keygenPass rd) := by
  have hc := h.valid
  have hf := polyOk_sampleG hc s.oracle
  rcases hk : keyCandidate s.cfg (sampleG s.cfg s.oracle).1 with - | ⟨fi, sk, ski⟩
  · rw [keygenPass_of_none rd hk]
    exact h.of_registers_eq rfl rfl rfl
  · obtain ⟨hfi, rfl, hski⟩ := keyCandidate_eq_some hk
    rw [keygenPass_of_some rd hk]
    refine Inv.complete (Inv.setGroup ?_ fun v hv => ?_) _
    · exact h.of_registers_eq rfl rfl rfl
    simp only [List.mem_cons, List.not_mem_nil, or_false] at hv
    obtain rfl | rfl | rfl | rfl | rfl := hv
    · exact hf
    · exact polyOk_ringInverse hc hfi
    · exact polyOk_scaledKey hc hf
    · exact polyOk_ringInverse hc hski
    · exact polyOk_publicKey hc _ _ _

/-- Everything a unit step of YKEYGEN can do: fail its group check, see an abort, or make a pass. -/
theorem exec_keygen_cases {rd : PReg} (h : exec (.ykeygen rd) s = .next t) :
    (∃ e, t = s.complete e) ∨
    t = State.complete { s with kgtries := s.kgcount } .aborted ∨
    (rangeError s (.ykeygen rd) = none ∧ t = s.keygenPass rd) := by
  rw [exec_keygen] at h
  cases hc : rangeError s (.ykeygen rd) with
  | some e =>
    rw [hc] at h
    cases h
    exact .inl ⟨e, rfl⟩
  | none =>
    rw [hc] at h
    cases ha : s.abreq with
    | true => rw [ha] at h; cases h; exact .inr (.inl rfl)
    | false => rw [ha] at h; cases h; exact .inr (.inr ⟨rfl, rfl⟩)

end Sys2Proof.Machine
end

section
/-! Invariants of the step (20_memory.md R75, 60_exceptions.md R313): what a property has to survive
so that every step keeps it, said once; then the register invariant (10_state.md R22) and the one of
KGCOUNT (R38) each survive it. -/

namespace Sys2Proof.Machine

variable {s t u : State}

/-- What an access reaches is what its address names. -/
theorem targetOf_of_reach {addr : BitVec 32} {n : Nat} {tgt : Target}
    (h : s.reach addr n = some tgt) : targetOf s.cfg addr.toNat n = some tgt := by
  unfold State.reach at h
  split at h
  · cases h
  · rename_i tgt' ht
    split at h
    · cases h
    · rw [ht, h]

/-- `t` holds the same registers, command word and KGCOUNT as `s`: it differs from `s` in records of
completion, bus and schedule only. -/
structure SameRegisters (s t : State) : Prop where
  cfg : t.cfg = s.cfg
  p : t.p = s.p
  sc : t.sc = s.sc
  curcmd : t.curcmd = s.curcmd
  kgcount : t.kgcount = s.kgcount

/-- What `P` has to survive to be kept by every step. -/
structure StepInvariant (P : State → Prop) : Prop where
  records : ∀ {s t}, P s → SameRegisters s t → P t
  command : ∀ {s t} i, decode s.curcmd = .ok i → exec i s = .next t → P s → P t
  write : ∀ {s u tgt n bs}, targetOf s.cfg n bs.length = some tgt →
    s.writeTarget tgt bs = some u → P s → P u
  reset : ∀ {s}, P s → P s.resetInput

namespace StepInvariant

variable {P : State → Prop}

theorem keeps_unitStep (h : StepInvariant P) (hs : P s) (ht : s.unitStep = .next t) : P t := by
  cases hb : s.busy with
  | false =>
    cases (unitStep_idle hb).symm.trans ht
    exact hs
  | true =>
    rw [unitStep_busy hb] at ht
    cases hd : decode s.curcmd with
    | ok i => exact h.command i hd ((runWord_ok hd).symm.trans ht) hs
    | error e =>
      cases (runWord_error hd).symm.trans ht
      exact h.records hs ⟨rfl, rfl, rfl, rfl, rfl⟩

theorem keeps_busRead (h : StepInvariant P) (hs : P s) (addr : BitVec 32) (n : Nat) :
    P (s.busRead addr n) := by
  obtain ⟨-, hr⟩ | ⟨tgt, -, hr⟩ := busRead_cases (s := s) addr n
  all_goals rw [hr]; exact h.records hs ⟨rfl, rfl, rfl, rfl, rfl⟩

theorem keeps_busWrite (h : StepInvariant P) (hs : P s) (addr : BitVec 32) (bs : List Byte) :
    P (s.busWrite addr bs) := by
  obtain hw | ⟨tgt, u, hr, hu, hw⟩ := busWrite_cases (s := s) addr bs
  · rw [hw]
    exact h.records hs ⟨rfl, rfl, rfl, rfl, rfl⟩
  · rw [hw]
    exact h.records (h.write (targetOf_of_reach hr) hu hs) ⟨rfl, rfl, rfl, rfl, rfl⟩

theorem keeps_perform (h : StepInvariant P) (hs : P s) (e : Event)
    (ht : s.perform e = .next t) : P t := by
  cases e with
  | read addr n => cases ht; exact h.keeps_busRead hs addr n
  | write addr bs => cases ht; exact h.keeps_busWrite hs addr bs
  | reset => cases ht; exact h.reset hs
  | unitStep => exact h.keeps_unitStep hs ht

theorem keeps_step (h : StepInvariant P) (hs : P s) (ht : step s = .next t) : P t := by
  obtain ⟨-, hstep⟩ | ⟨e, es, -, hstep⟩ := step_eq s
  · exact h.keeps_unitStep hs (hstep.symm.trans ht)
  · have hs' : P { s with inputs := es } := h.records hs ⟨rfl, rfl, rfl, rfl, rfl⟩
    exact h.keeps_perform hs' e (hstep.symm.trans ht)

end StepInvariant

/-! ### Well-kept registers -/

theorem exec_keeps_inv (i : Instr) (hs : Inv s) (h : exec i s = .next t) : Inv t := by
  cases hk : isKeygen i with
  | false =>
    obtain ⟨e, rfl⟩ | ⟨u, hu, rfl⟩ := exec_cases hk h
    · exact hs.complete e
    · exact (hu.inv hs).complete _
  | true =>
    cases i with
    | ykeygen rd =>
      obtain ⟨e, rfl⟩ | rfl | ⟨-, rfl⟩ := exec_keygen_cases h
      · exact hs.complete e
      · exact hs.of_registers_eq rfl rfl rfl
      · exact hs.keygenPass rd
    | _ => cases hk

/-- No control register holds a polynomial or a scalar (10_state.md R28). -/
theorem writeCsr_keeps_inv (hs : Inv s) (r : Csr) (v : Word) : Inv (s.writeCsr r v) := by
  cases r with
  | cmd =>
    show Inv (s.writeCmd v)
    unfold State.writeCmd
    split
    all_goals exact hs.of_registers_eq rfl rfl rfl
  | _ => exact hs.of_registers_eq rfl rfl rfl

/-- A host write stores only a residue, at an index below CAP (20_memory.md R66 to R70). -/
theorem writeTarget_keeps_inv {tgt : Target} {n : Nat} {bs : List Byte} (hs : Inv s)
    (ht : targetOf s.cfg n bs.length = some tgt) (hu : s.writeTarget tgt bs = some u) : Inv u := by
  have hq := hs.valid.q_pos
  obtain ⟨r, -, rfl⟩ | ⟨-, rfl⟩ | ⟨sg, r, v, -, hv, rfl⟩ | ⟨sg, p, i, v, rfl, hv, rfl⟩ :=
    writeTarget_cases hu
  · exact writeCsr_keeps_inv hs r _
  · exact hs
  · exact hs.setS r (viewValue_lt hq hv)
  · exact hs.setP p (polyOk_setCoef (hs.getP_ok p) (targetOf_coeff_lt ht) (viewValue_lt hq hv))

/-- Reset empties the polynomial registers and zeroes the scalars (70_reset_and_hazards.md R341). -/
theorem inv_resetInput (hs : Inv s) : Inv s.resetInput := by
  refine ⟨hs.valid, fun r => ?_, fun r => ?_⟩
  · have hr : s.resetInput.getP r = [] := by simp [State.getP, State.resetInput, State.resetWith]
    rw [hr]
    exact polyOk_nil hs.valid
  · have hr : s.resetInput.getS r = 0 := by simp [State.getS, State.resetInput, State.resetWith]
    rw [hr]
    exact hs.valid.q_pos

theorem inv_stepInvariant : StepInvariant Inv where
  records hs h := hs.of_registers_eq h.cfg h.p h.sc
  command i _ h hs := exec_keeps_inv i hs h
  write ht hu hs := writeTarget_keeps_inv hs ht hu
  reset hs := inv_resetInput hs

/-- Settles O19: the invariant survives each command, each host write and reset, and reads nothing
else that a step writes. -/
theorem stepKeepsRegisters : Obligations.StepKeepsRegisters :=
  fun _ _ hs h => inv_stepInvariant.keeps_step hs h

/-! ### The condition flag -/

@[simp] theorem keygenPass_eq_flag (rd : PReg) : (s.keygenPass rd).eq = s.eq := by
  obtain ⟨o, h⟩ | ⟨o, f, fi, sk, ski, pk, h⟩ := keygenPass_cases (s := s) rd <;> simp [h]

/-- Only a compare that completes without error writes EQ (10_state.md R26). -/
theorem exec_eq_flag {i : Instr} (h : exec i s = .next t)
    (hi : isCompare i = true → t.err ≠ .noError) : t.eq = s.eq := by
  cases hk : isKeygen i with
  | false =>
    obtain ⟨e, rfl⟩ | ⟨u, hu, rfl⟩ := exec_cases hk h
    · rfl
    · cases hc : isCompare i with
      | false => exact hu.eq_flag hc
      | true => exact absurd rfl (hi hc)
  | true =>
    cases i with
    | ykeygen rd =>
      obtain ⟨e, rfl⟩ | rfl | ⟨-, rfl⟩ := exec_keygen_cases h
      · rfl
      · rfl
      · exact keygenPass_eq_flag rd
    | _ => cases hk

/-- Settles O14: of the kinds of write a command makes, only the compares' reaches EQ. -/
theorem onlyComparesWriteEq : Obligations.OnlyComparesWriteEq := by
  intro s t i h hi
  refine exec_eq_flag h fun hc => ?_
  obtain ⟨ra, rb, rfl⟩ | ⟨ra, rb, rfl⟩ := (isCompare_iff i).mp hc
  · exact hi
  · exact hi

/-! ### KGCOUNT -/

theorem KeygenOk.of_eq (h : KeygenOk s) (hk : t.kgcount = s.kgcount) (hc : t.curcmd = s.curcmd) :
    KeygenOk t := by
  unfold KeygenOk
  rw [hk, hc]
  exact h

theorem keygenOk_of_kgcount_zero (h : s.kgcount = 0) : KeygenOk s := fun hne => absurd h hne

@[simp] theorem keygenPass_curcmd (rd : PReg) : (s.keygenPass rd).curcmd = s.curcmd := by
  obtain ⟨o, h⟩ | ⟨o, f, fi, sk, ski, pk, h⟩ := keygenPass_cases (s := s) rd <;> simp [h]

/-- A command other than YKEYGEN writes neither KGCOUNT nor CURCMD. -/
theorem Wrote.keygenOk {i : Instr} (h : Wrote i s u) (hs : KeygenOk s) : KeygenOk u := by
  cases h with
  | group b vs => exact hs.of_eq (State.setGroup_kgcount vs b s) (State.setGroup_curcmd vs b s)
  | _ => exact hs.of_eq rfl rfl

/-- YKEYGEN counts a pass only past its group check, where CURCMD holds its word (log entry 7). -/
theorem exec_keeps_keygenOk (i : Instr) (hd : decode s.curcmd = .ok i) (h : exec i s = .next t)
    (hs : KeygenOk s) : KeygenOk t := by
  cases hk : isKeygen i with
  | false =>
    obtain ⟨e, rfl⟩ | ⟨u, hu, rfl⟩ := exec_cases hk h
    · exact hs.of_eq rfl rfl
    · exact (hu.keygenOk hs).of_eq rfl rfl
  | true =>
    cases i with
    | ykeygen rd =>
      obtain ⟨e, rfl⟩ | rfl | ⟨hr, rfl⟩ := exec_keygen_cases h
      · exact hs.of_eq rfl rfl
      · exact hs.of_eq rfl rfl
      · exact fun _ => ⟨rd, le_eleven_of_ykeygen hr, (keygenPass_curcmd rd).symm ▸ hd⟩
    | _ => cases hk

/-- A host write leaves KGCOUNT and CURCMD, but that an accepted command word clears KGCOUNT
(10_state.md R33). -/
theorem writeTarget_keeps_keygenOk {tgt : Target} {bs : List Byte}
    (hu : s.writeTarget tgt bs = some u) (hs : KeygenOk s) : KeygenOk u := by
  obtain ⟨r, -, rfl⟩ | ⟨-, rfl⟩ | ⟨sg, r, v, -, -, rfl⟩ | ⟨sg, p, i, v, -, -, rfl⟩ :=
    writeTarget_cases hu
  · cases r with
    | cmd =>
      show KeygenOk (s.writeCmd _)
      unfold State.writeCmd
      split
      · exact hs.of_eq rfl rfl
      · exact keygenOk_of_kgcount_zero rfl
    | _ => exact hs.of_eq rfl rfl
  all_goals exact hs.of_eq rfl rfl

theorem keygenOk_stepInvariant : StepInvariant KeygenOk where
  records hs h := hs.of_eq h.kgcount h.curcmd
  command := exec_keeps_keygenOk
  write _ := writeTarget_keeps_keygenOk
  reset _ := keygenOk_of_kgcount_zero rfl

/-- Settles O20: KGCOUNT is counted only by a YKEYGEN past its check, and cleared when the next word
is accepted. -/
theorem stepKeepsKeygenCount : Obligations.StepKeepsKeygenCount :=
  fun _ _ hs h => keygenOk_stepInvariant.keeps_step hs h

end Sys2Proof.Machine
end

section
/-! Two runs of one command from states that differ in tags only: they write the same data
(10_state.md R24, 45_yashe.md R280). Tags flow into tags, NOISEW and DEPTHX and nowhere else. -/

namespace Sys2Proof.Machine

variable {s s' t u : State}

/-- `s'` differs from `s` at most in what tags can reach: the tags and the two flags raised from
them. -/
def SameData (s s' : State) : Prop :=
  ∃ (g : Vector Tag 16) (n d : Bool), s' = { s with tag := g, noisew := n, depthx := d }

theorem SameData.complete (h : SameData s s') (e : ErrCode) :
    SameData (s.complete e) (s'.complete e) := by
  obtain ⟨g, n, d, rfl⟩ := h
  exact ⟨g, n, d, rfl⟩

theorem SameData.setGroup (h : SameData s s') (b : Nat) (vs : List Poly) :
    SameData (s.setGroup b vs) (s'.setGroup b vs) := by
  induction vs generalizing s s' b with
  | nil => exact h
  | cons v vs ih =>
    obtain ⟨g, n, d, rfl⟩ := h
    exact ih ⟨g.set (Fin.ofNat 16 b) .plain, n, d, rfl⟩ (b + 1)

/-- Two results of one command: the same error, or states with the same data. -/
inductive SameResult : Except ErrCode State → Except ErrCode State → Prop where
  | error (e : ErrCode) : SameResult (.error e) (.error e)
  | ok {u u' : State} (h : SameData u u') : SameResult (.ok u) (.ok u')

theorem SameResult.ite {p : Prop} [Decidable p] {e : ErrCode} (h : SameData u t) :
    SameResult (if p then .error e else .ok u) (if p then .error e else .ok t) := by
  split
  · exact .error e
  · exact .ok h

/-- The frame of R313 asks no tag whether a command completes, is aborted or fails. -/
theorem SameData.runCommand (h : SameData s s') (c : Option ErrCode)
    {r r' : Except ErrCode State} (hr : SameResult r r') :
    SameData (s.runCommand c r) (s'.runCommand c r') := by
  cases c with
  | some e => exact h.complete e
  | none =>
    cases ha : s.abreq with
    | true =>
      have ha' : s'.abreq = true := by obtain ⟨g, n, d, rfl⟩ := h; exact ha
      rw [runCommand_abort r ha, runCommand_abort r' ha']
      exact h.complete _
    | false =>
      have ha' : s'.abreq = false := by obtain ⟨g, n, d, rfl⟩ := h; exact ha
      cases hr with
      | error e =>
        rw [runCommand_error e ha, runCommand_error e ha']
        exact h.complete e
      | ok hu =>
        rw [runCommand_ok _ ha, runCommand_ok _ ha']
        exact hu.complete _

theorem SameData.keygenPass (h : SameData s s') (rd : PReg) :
    SameData (s.keygenPass rd) (s'.keygenPass rd) := by
  obtain ⟨g, n, d, hs'⟩ := h
  rcases hk : keyCandidate s.cfg (sampleG s.cfg s.oracle).1 with - | ⟨fi, sk, ski⟩
  · have hk' : keyCandidate s'.cfg (sampleG s'.cfg s'.oracle).1 = none := by rw [hs']; exact hk
    rw [keygenPass_of_none rd hk, keygenPass_of_none rd hk', hs']
    exact ⟨g, n, d, rfl⟩
  · have hk' : keyCandidate s'.cfg (sampleG s'.cfg s'.oracle).1 = some (fi, sk, ski) := by
      rw [hs']; exact hk
    rw [keygenPass_of_some rd hk, keygenPass_of_some rd hk', hs']
    exact (SameData.setGroup ⟨g, n, d, rfl⟩ _ _).complete _

theorem SameData.execYkeygen (h : SameData s s') (rd : PReg) :
    ∃ t u, exec (.ykeygen rd) s = .next t ∧ exec (.ykeygen rd) s' = .next u ∧ SameData t u := by
  refine ⟨_, _, rfl, rfl, ?_⟩
  cases checkKeyGroup rd with
  | some e => exact h.complete e
  | none =>
    have ha : s'.abreq = s.abreq := by obtain ⟨g, n, d, rfl⟩ := h; rfl
    show SameData (if s.abreq then _ else _) (if s'.abreq then _ else _)
    rw [ha]
    split
    · obtain ⟨g, n, d, rfl⟩ := h
      exact ⟨g, n, d, rfl⟩
    · exact h.keygenPass rd

/-- PINV where its computation fails (43_inversion.md R230). -/
theorem exec_pinv_of_error (rd : PReg) {ra : PReg} {e : ErrCode}
    (h : ringInverse s.cfg.q s.cfg.n (s.getP ra) = .error e) :
    exec (.pinv rd ra) s = .next (s.runCommand none (.error e)) := by
  simp only [exec, execPinv, h]

/-- PINV where its computation answers an inverse. -/
theorem exec_pinv_of_ok (rd : PReg) {ra : PReg} {b : Poly}
    (h : ringInverse s.cfg.q s.cfg.n (s.getP ra) = .ok b) :
    exec (.pinv rd ra) s = .next (s.runCommand none (.ok (s.setPT rd b .plain))) := by
  simp only [exec, execPinv, h]

/-- A command's two runs stay together. -/
theorem SameData.exec (h : SameData s s') (i : Instr) :
    ∃ t u, exec i s = .next t ∧ exec i s' = .next u ∧ SameData t u := by
  have hs := h
  obtain ⟨g, n, d, rfl⟩ := h
  cases i with
  | finv rd ra => exact ⟨_, _, rfl, rfl, hs.runCommand none (.ite ⟨_, _, _, rfl⟩)⟩
  | fdiv rd ra rb => exact ⟨_, _, rfl, rfl, hs.runCommand none (.ite ⟨_, _, _, rfl⟩)⟩
  | pmulf rd ra rb => exact ⟨_, _, rfl, rfl, hs.runCommand none (.ite ⟨_, _, _, rfl⟩)⟩
  | pinv rd ra =>
    rcases hi : ringInverse s.cfg.q s.cfg.n (s.getP ra) with e | b
    · exact ⟨_, _, exec_pinv_of_error rd hi, exec_pinv_of_error rd hi,
        hs.runCommand none (.error e)⟩
    · exact ⟨_, _, exec_pinv_of_ok rd hi, exec_pinv_of_ok rd hi,
        hs.runCommand none (.ok ⟨_, _, _, rfl⟩)⟩
  | psplit rd ra k => exact ⟨_, _, rfl, rfl, hs.runCommand _ (.ok (hs.setGroup _ _))⟩
  | psplitk rd ra k l => exact ⟨_, _, rfl, rfl, hs.runCommand _ (.ok (hs.setGroup _ _))⟩
  | ykeygen rd => exact hs.execYkeygen rd
  | _ => exact ⟨_, _, rfl, rfl, hs.runCommand _ (.ok ⟨_, _, _, rfl⟩)⟩

/-- Settles O15: the two runs differ in what tags can reach only. -/
theorem dataIgnoresTags : Obligations.DataIgnoresTags := by
  intro s t u g i ht hu
  have hs : SameData s { s with tag := g } := ⟨g, s.noisew, s.depthx, rfl⟩
  obtain ⟨t', u', ht', hu', h⟩ := hs.exec i
  cases ht'.symm.trans ht
  cases hu'.symm.trans hu
  obtain ⟨g', n, d, rfl⟩ := h
  exact ⟨rfl, rfl, rfl, rfl, rfl, rfl, rfl, rfl⟩

end Sys2Proof.Machine
end

section
/-! The control, status and configuration registers (10_state.md R28 to R37, 20_memory.md R72): one
lemma each for a read and a write of the register at an offset, then each register's row. -/

namespace Sys2Proof.Machine

variable {s : State}

/-! ### Bits of a word -/

theorem getLsbD_eq_decide (w : Word) (i : Nat) :
    w.getLsbD i = decide (w.toNat / 2 ^ i % 2 = 1) := by
  rw [← BitVec.testBit_toNat, Nat.testBit_eq_decide_div_mod_eq]

theorem bits_one (w : Word) (i : Nat) : bits w i i = (w.getLsbD i).toNat := by
  have h : w.toNat / 2 ^ i % 2 < 2 := Nat.mod_lt _ two_pos
  rw [bits_eq, getLsbD_eq_decide, Nat.sub_self]
  by_cases h1 : w.toNat / 2 ^ i % 2 = 1
  · simp [h1]
  · simp [h1]; omega

theorem bits_one_eq_one (w : Word) (i : Nat) : (bits w i i == 1) = w.getLsbD i := by
  rw [bits_one]
  cases w.getLsbD i <;> rfl

theorem bits_one_eq_zero (w : Word) (i : Nat) : (bits w i i == 0) = !w.getLsbD i := by
  rw [bits_one]
  cases w.getLsbD i <;> rfl

/-- A two-bit field from its two bits. -/
theorem bits_two_one (w : Word) :
    bits w 2 1 = (w.getLsbD 1).toNat + 2 * (w.getLsbD 2).toNat := by
  rw [← bits_one, ← bits_one, bits_eq, bits_eq, bits_eq]
  omega

/-- The word that the bytes of a word carry over the bus (20_memory.md R62). -/
theorem ofNat_leValue_leBytes (v : Word) : BitVec.ofNat 32 (leValue (leBytes 4 v.toNat)) = v := by
  have hv : v.toNat < 256 ^ 4 := v.isLt
  rw [leValue_leBytes, Nat.mod_eq_of_lt hv, BitVec.ofNat_toNat, BitVec.setWidth_eq]

theorem getLsbD_of_digit {w : Word} {i : Nat} {b : Bool} (h : w.toNat / 2 ^ i % 2 = b.toNat) :
    w.getLsbD i = b := by
  rw [getLsbD_eq_decide, h]
  cases b <;> rfl

/-! ### Reaching a register -/

/-- `r` is the register at the aligned offset `off` of the control block (10_state.md R28). -/
abbrev RegisterAt (off : Nat) (r : Csr) : Prop := off < 0x800 ∧ off % 4 = 0 ∧ csrAt off = some r

/-- The register at an aligned offset below 0x800, whatever the configuration (10_state.md R28). -/
theorem targetOf_csr (c : Config) {off : Nat} {r : Csr}
    (hr : RegisterAt off r) :
    targetOf c (BitVec.ofNat 32 off).toNat 4 = some (.csr r) := by
  obtain ⟨hlt, h4, hat⟩ := hr
  have ho : (BitVec.ofNat 32 off).toNat = off := by
    rw [BitVec.toNat_ofNat, Nat.mod_eq_of_lt (by omega)]
  rw [ho, targetOf, if_pos hlt, if_pos ⟨rfl, h4⟩, hat]
  rfl

theorem reach_csr {off : Nat} {r : Csr} (hr : RegisterAt off r)
    (hb : s.busy = false ∨ Target.isData (.csr r) = false) :
    s.reach (BitVec.ofNat 32 off) 4 = some (.csr r) := by
  have hd : (s.busy && Target.isData (.csr r)) = false := by
    obtain h | h := hb
    · rw [h, Bool.false_and]
    · rw [h, Bool.and_false]
  unfold State.reach
  rw [targetOf_csr s.cfg hr]
  simp only [hd, Bool.false_eq_true, if_false]

theorem step_read_csr {off : Nat} (r : Csr) {es : List Event} (hr : RegisterAt off r)
    (hb : s.busy = false ∨ Target.isData (.csr r) = false)
    (h : s.inputs = .read (BitVec.ofNat 32 off) 4 :: es) :
    step s = .next { s with
      inputs := es, response := some ⟨false, leBytes 4 (s.csrWord r).toNat⟩ } := by
  have hreach : State.reach { s with inputs := es } (BitVec.ofNat 32 off) 4 = some (.csr r) :=
    reach_csr hr hb
  rw [step_cons _ _ h, State.perform, State.busRead, hreach]
  cases r <;> rfl

theorem step_write_csr {off : Nat} (r : Csr) {data : List Byte} {es : List Event}
    (hr : RegisterAt off r) (hl : data.length = 4)
    (hb : s.busy = false ∨ Target.isData (.csr r) = false)
    (h : s.inputs = .write (BitVec.ofNat 32 off) data :: es) :
    step s = .next { State.writeCsr { s with inputs := es } r (BitVec.ofNat 32 (leValue data)) with
      response := some ⟨false, []⟩ } := by
  have hreach : State.reach { s with inputs := es } (BitVec.ofNat 32 off) data.length =
      some (.csr r) := by
    rw [hl]
    exact reach_csr hr hb
  rw [step_cons _ _ h, State.perform, State.busWrite, hreach]
  rfl

/-- A read of a register, where `v` is what it holds. -/
theorem step_read_value {off v : Nat} {r : Csr} {es : List Event} (hr : RegisterAt off r)
    (hb : s.busy = false ∨ Target.isData (.csr r) = false) (hv : (s.csrWord r).toNat = v)
    (h : s.inputs = .read (BitVec.ofNat 32 off) 4 :: es) :
    step s = .next { s with inputs := es, response := some ⟨false, leBytes 4 v⟩ } := by
  rw [step_read_csr r hr hb h, hv]

/-- A write that the register ignores (20_memory.md R72). -/
theorem step_write_ignored {off : Nat} {r : Csr} {data : List Byte} {es : List Event}
    (hr : RegisterAt off r) (hl : data.length = 4)
    (hb : s.busy = false ∨ Target.isData (.csr r) = false)
    (hw : ∀ (u : State) (x : Word), u.writeCsr r x = u)
    (h : s.inputs = .write (BitVec.ofNat 32 off) data :: es) :
    step s = .next { s with inputs := es, response := some ⟨false, []⟩ } := by
  rw [step_write_csr r hr hl hb h, hw]

/-! ### CTRL and STATUS -/

theorem code_le_nine (e : ErrCode) : e.code ≤ 9 := by cases e <;> decide

/-- Each field of STATUS fits its digits (10_state.md R32). -/
theorem status_digits_le (s : State) :
    s.err.code ≤ 9 ∧ s.busy.toNat ≤ 1 ∧ s.done.toNat ≤ 1 ∧ s.eq.toNat ≤ 1 ∧ s.noisew.toNat ≤ 1 ∧
      s.depthx.toNat ≤ 1 ∧ s.cmdovr.toNat ≤ 1 ∧ s.hosterr.toNat ≤ 1 :=
  ⟨code_le_nine _, Bool.toNat_le _, Bool.toNat_le _, Bool.toNat_le _, Bool.toNat_le _,
    Bool.toNat_le _, Bool.toNat_le _, Bool.toNat_le _⟩

theorem toNat_statusWord (s : State) : s.statusWord.toNat =
    s.busy.toNat + s.done.toNat * 2 + s.err.code * 2 ^ 4 + s.eq.toNat * 2 ^ 8 +
      s.noisew.toNat * 2 ^ 9 + s.depthx.toNat * 2 ^ 10 + s.cmdovr.toNat * 2 ^ 11 +
      s.hosterr.toNat * 2 ^ 12 := by
  have hb := status_digits_le s
  rw [State.statusWord, BitVec.toNat_ofNat, Nat.mod_eq_of_lt (by omega)]

theorem toNat_ctrlWord (s : State) : s.ctrlWord.toNat = s.ie.toNat + s.mulstrat.code * 2 := by
  have := s.ie.toNat_le
  have : s.mulstrat.code ≤ 2 := by cases s.mulstrat <;> decide
  rw [State.ctrlWord, BitVec.toNat_ofNat, Nat.mod_eq_of_lt (by omega)]

/-- Settles O52: each field of the STATUS word is its digits (10_state.md R32). -/
theorem statusBits : Obligations.StatusBits := by
  intro s
  have hw := toNat_statusWord s
  have hc := toNat_ctrlWord s
  have hb := status_digits_le s
  have hi := s.ie.toNat_le
  have hdone : s.statusWord.getLsbD 1 = s.done := getLsbD_of_digit (by omega)
  have hie : s.ctrlWord.getLsbD 0 = s.ie := getLsbD_of_digit (by omega)
  have hfield : ∀ i n, (s.statusWord.extractLsb' i n).toNat = s.statusWord.toNat / 2 ^ i % 2 ^ n :=
    fun i n => by rw [BitVec.extractLsb'_toNat, Nat.shiftRight_eq_div_pow]
  have herr : (s.statusWord.extractLsb' 4 4).toNat = s.err.code := by rw [hfield]; omega
  refine ⟨getLsbD_of_digit (by omega), hdone, BitVec.eq_of_toNat_eq ?_, ?_,
    getLsbD_of_digit (by omega), getLsbD_of_digit (by omega), getLsbD_of_digit (by omega),
    getLsbD_of_digit (by omega), getLsbD_of_digit (by omega), BitVec.eq_of_toNat_eq ?_, ?_⟩
  · rw [hfield, show BitVec.toNat 0 = 0 from rfl]; omega
  · rw [herr]; cases s.err <;> rfl
  · rw [hfield, show BitVec.toNat 0 = 0 from rfl]; omega
  · rw [hie, hdone]; rfl

/-- Settles O51: a CTRL write takes IE and a legal MULSTRAT and may request an abort; a STATUS write
clears the bits written as 1 (10_state.md R29, R32). -/
theorem ctrlAndStatusWrites : Obligations.CtrlAndStatusWrites := by
  intro s v es
  have hl := length_leBytes 4 v.toNat
  refine ⟨fun h => ⟨_, step_write_csr .ctrl (by decide) hl (.inr rfl) h, ?_, ?_⟩,
    fun h => ⟨_, step_write_csr .status (by decide) hl (.inr rfl) h, ?_, ?_⟩⟩
  · rw [ofNat_leValue_leBytes, State.writeCsr, State.irq, State.writeCtrl, bits_one_eq_one]
  · rw [ofNat_leValue_leBytes, State.writeCsr, State.writeCtrl, bits_one_eq_one, bits_one_eq_one,
      bits_two_one]
    cases v.getLsbD 2 <;> cases v.getLsbD 1 <;> rfl
  · rw [ofNat_leValue_leBytes, State.writeCsr, State.irq, State.writeStatus, bits_one_eq_zero]
    cases v.getLsbD 1 <;> simp [State.irq]
  · simp only [ofNat_leValue_leBytes, State.writeCsr, State.writeStatus, bits_one_eq_zero]

/-! ### PLEN and PTAG -/

theorem registerAt_plen (p : PReg) : RegisterAt (0x100 + 4 * p.val) (.plen p) := by
  refine ⟨by omega, by omega, ?_⟩
  unfold csrAt
  rw [if_pos (by omega), show (0x100 + 4 * p.val - 0x100) / 4 = p.val by omega,
    Fin.ofNat_val_eq_self]

theorem registerAt_ptag (p : PReg) : RegisterAt (0x140 + 4 * p.val) (.ptag p) := by
  refine ⟨by omega, by omega, ?_⟩
  unfold csrAt
  rw [if_neg (by omega), if_pos (by omega), show (0x140 + 4 * p.val - 0x140) / 4 = p.val by omega,
    Fin.ofNat_val_eq_self]

theorem code_ofCode (v : Nat) : (Tag.ofCode v).code = v % 4 := by
  have hv : v % 4 < 4 := Nat.mod_lt _ (by decide)
  unfold Tag.ofCode
  generalize v % 4 = k at hv
  interval_cases k <;> rfl

/-- Settles O60: the PLEN and PTAG rows of the control block while idle (10_state.md R36, R37). -/
theorem lengthAndTagRegisters : Obligations.LengthAndTagRegisters := by
  intro s p v es hb
  refine ⟨step_read_value (registerAt_plen p) (.inl hb) (BitVec.toNat_ofNat _ _),
    fun data hl => step_write_ignored (registerAt_plen p) hl (.inl hb) fun _ _ => rfl,
    step_read_value (registerAt_ptag p) (.inl hb) ?_, fun h =>
      ⟨Tag.ofCode (bits v 1 0), ?_, ?_⟩⟩
  · show (BitVec.ofNat 32 (s.getTag p).code).toNat = _
    rw [BitVec.toNat_ofNat, Nat.mod_eq_of_lt (by cases s.getTag p <;> decide)]
  · rw [code_ofCode, bits_eq]
    omega
  · rw [step_write_csr (.ptag p) (registerAt_ptag p) (length_leBytes _ _) (.inl hb) h,
      ofNat_leValue_leBytes]
    rfl

/-! ### The other registers -/

theorem toNat_cfgWord (off : Nat) {v : Nat} (hv : v < 2 ^ 32) : (cfgWord off v).toNat = v := by
  rw [cfgWord, if_pos hv, BitVec.toNat_ofNat, Nat.mod_eq_of_lt hv]

/-- The read-only registers' offsets and what each holds (10_state.md R28, R30, R31, R34, R35). -/
def readOnlyRows (s : State) : List (Nat × Nat) :=
  [(0x000, 0x45594C44), (0x004, 1), (0x014, s.errcmd.toNat), (0x018, s.kgtries.toNat),
   (0x040, s.cfg.n), (0x044, s.cfg.t), (0x048, s.cfg.qbits), (0x04C, s.cfg.coefBytes),
   (0x050, s.cfg.kmin), (0x054, s.cfg.flatk), (0x058, s.cfg.gaussTail), (0x05C, 16), (0x060, 16)]

theorem readOnlyRows_spec (hc : s.cfg.Valid) {a v : Nat} (h : (a, v) ∈ readOnlyRows s) :
    ∃ r, RegisterAt a r ∧ Target.isData (.csr r) = false ∧
      ((a = 0x050 ∨ a = 0x058 → v < 2 ^ 32) → (s.csrWord r).toNat = v) ∧
      ∀ (u : State) (x : Word), u.writeCsr r x = u := by
  have hcb := hc.coefBytes_cases
  have hn := hc.n_le
  have hk := hc.flatk_le
  obtain ⟨-, -, ht⟩ := hc.t_bounds
  simp only [readOnlyRows, List.mem_cons, List.not_mem_nil, or_false, Prod.mk.injEq] at h
  obtain ⟨rfl, rfl⟩ | ⟨rfl, rfl⟩ | ⟨rfl, rfl⟩ | ⟨rfl, rfl⟩ | ⟨rfl, rfl⟩ | ⟨rfl, rfl⟩ | ⟨rfl, rfl⟩ |
    ⟨rfl, rfl⟩ | ⟨rfl, rfl⟩ | ⟨rfl, rfl⟩ | ⟨rfl, rfl⟩ | ⟨rfl, rfl⟩ | ⟨rfl, rfl⟩ := h
  · exact ⟨.id, by decide, rfl, fun _ => rfl, fun _ _ => rfl⟩
  · exact ⟨.version, by decide, rfl, fun _ => rfl, fun _ _ => rfl⟩
  · exact ⟨.errcmd, by decide, rfl, fun _ => rfl, fun _ _ => rfl⟩
  · exact ⟨.kgtries, by decide, rfl, fun _ => rfl, fun _ _ => rfl⟩
  · exact ⟨.cfgN, by decide, rfl, fun _ => toNat_cfgWord _ (by omega), fun _ _ => rfl⟩
  · exact ⟨.cfgT, by decide, rfl, fun _ => toNat_cfgWord _ ht, fun _ _ => rfl⟩
  · exact ⟨.cfgQbits, by decide, rfl, fun _ => toNat_cfgWord _ hc.qbits_lt, fun _ _ => rfl⟩
  · exact ⟨.cfgCoefBytes, by decide, rfl, fun _ => toNat_cfgWord _ (by omega), fun _ _ => rfl⟩
  · exact ⟨.cfgKmin, by decide, rfl, fun hv => toNat_cfgWord _ (hv (.inl rfl)), fun _ _ => rfl⟩
  · exact ⟨.cfgFlatk, by decide, rfl, fun _ => toNat_cfgWord _ (by omega), fun _ _ => rfl⟩
  · exact ⟨.cfgGaussTail, by decide, rfl, fun hv => toNat_cfgWord _ (hv (.inr rfl)),
      fun _ _ => rfl⟩
  · exact ⟨.cfgNpreg, by decide, rfl, fun _ => toNat_cfgWord _ (by decide), fun _ _ => rfl⟩
  · exact ⟨.cfgNsreg, by decide, rfl, fun _ => toNat_cfgWord _ (by decide), fun _ _ => rfl⟩

/-- CFG_Q is reached by an access of COEF_BYTES, which divides its offset (10_state.md R31). -/
theorem reach_cfgQ (hc : s.cfg.Valid) : s.reach 0x800 s.cfg.coefBytes = some .cfgQ := by
  have ht : targetOf s.cfg (0x800 : BitVec 32).toNat s.cfg.coefBytes = some .cfgQ := by
    have hb : 0x800 % s.cfg.coefBytes = 0 := by
      obtain h | h | h := hc.coefBytes_cases <;> rw [h]
    show targetOf s.cfg 0x800 s.cfg.coefBytes = some .cfgQ
    simp [targetOf, hb]
  unfold State.reach
  rw [ht]
  simp [Target.isData]

/-- Settles O55: each row names its register, and a register's read and write are known once. -/
theorem controlRegisterReads : Obligations.ControlRegisterReads := by
  intro s es hc mulstrat readOnly others
  have hro : readOnly = readOnlyRows s := rfl
  refine ⟨fun a v hm hv h => ?_, fun a v data hm hl h => ?_, fun h => ?_, fun data hl h => ?_⟩
  · obtain hm | hm := List.mem_append.mp hm
    · obtain ⟨r, hr, hd, hval, -⟩ := readOnlyRows_spec hc (hro ▸ hm)
      exact step_read_value hr (.inr hd) (hval hv) h
    · simp only [others, List.mem_cons, List.not_mem_nil, or_false, Prod.mk.injEq] at hm
      obtain ⟨rfl, rfl⟩ | ⟨rfl, rfl⟩ | ⟨rfl, rfl⟩ := hm
      · refine step_read_value (r := .ctrl) (by decide) (.inr rfl) ?_ h
        show s.ctrlWord.toNat = _
        have hcode : s.mulstrat.code = mulstrat := by
          simp only [mulstrat]
          cases s.mulstrat <;> rfl
        rw [toNat_ctrlWord, hcode, Nat.mul_comm]
      · exact step_read_value (r := .status) (by decide) (.inr rfl) rfl h
      · exact step_read_value (r := .cmd) (by decide) (.inr rfl) rfl h
  · obtain ⟨r, hr, hd, -, hw⟩ := readOnlyRows_spec hc (hro ▸ hm)
    exact step_write_ignored hr hl (.inr hd) hw h
  · have hreach : State.reach { s with inputs := es } 0x800 s.cfg.coefBytes = some .cfgQ :=
      reach_cfgQ (s := { s with inputs := es }) hc
    rw [step_cons _ _ h, State.perform, State.busRead, hreach]
    rfl
  · have hreach : State.reach { s with inputs := es } 0x800 data.length = some .cfgQ :=
      hl ▸ reach_cfgQ (s := { s with inputs := es }) hc
    rw [step_cons _ _ h, State.perform, State.busWrite, hreach]
    rfl

end Sys2Proof.Machine
end

section
/-! What a host access reaches (20_memory.md R61 to R64, R71): the blocks of the address map, and
one rule of the step for each answer of the bus. -/

namespace Sys2Proof.Machine

variable {s : State} {c : Config} {addr : BitVec 32} {n : Nat} {es : List Event}

/-! ### The address map -/

/-- The blocks of 10_state.md R28 that hold registers. -/
theorem csrAt_range {off : Nat} {r : Csr} (h : csrAt off = some r) :
    off < 0x01C ∨ (0x040 ≤ off ∧ off < 0x064) ∨ (0x100 ≤ off ∧ off < 0x180) := by
  unfold csrAt at h
  split at h
  · omega
  · split at h
    · omega
    · split at h
      all_goals first | omega | cases h

/-- The block at 0x100 holds PLEN and PTAG only, which are data (20_memory.md R71). -/
theorem isData_of_csrAt {off : Nat} {r : Csr} (h : csrAt off = some r) (hlo : 0x100 ≤ off) :
    Target.isData (.csr r) = true := by
  have hrange := csrAt_range h
  unfold csrAt at h
  split at h
  · cases h; rfl
  · rw [if_pos (by omega)] at h
    cases h; rfl

/-- `Mapped c a n tgt`: an access of `n` bytes at `a` has the size and the alignment of `tgt`'s
block and lies in it (20_memory.md R61, R63). -/
inductive Mapped (c : Config) (a n : Nat) : Target → Prop where
  | csr {r : Csr} (hn : n = 4) (hal : a % 4 = 0) (ha : a < 0x800) (hr : csrAt a = some r) :
      Mapped c a n (.csr r)
  | cfgQ (hn : n = c.coefBytes) (hal : a % c.coefBytes = 0) (ha : a = 0x800) : Mapped c a n .cfgQ
  | scalar {sg : Bool} {r : SReg} (hn : n = c.coefBytes) (hal : a % c.coefBytes = 0)
      (ha : (0x1000 ≤ a ∧ a < 0x1000 + 16 * c.coefBytes) ∨
        (0x1800 ≤ a ∧ a < 0x1800 + 16 * c.coefBytes)) : Mapped c a n (.scalar sg r)
  | coeff {sg : Bool} {p : PReg} {i : Nat} (hn : n = c.coefBytes) (hal : a % c.coefBytes = 0)
      (ha : 0x01000000 ≤ a ∧ a < 0x03000000) (hi : a % 2 ^ 20 / c.coefBytes < c.cap) :
      Mapped c a n (.coeff sg p i)

theorem coeffAt_eq_some {sg : Bool} {off : Nat} {tgt : Target} (h : coeffAt c sg off = some tgt) :
    off % 2 ^ 20 / c.coefBytes < c.cap ∧
      tgt = .coeff sg (Fin.ofNat 16 (off / 2 ^ 20)) (off % 2 ^ 20 / c.coefBytes) := by
  unfold coeffAt at h
  dsimp only at h
  split at h
  · rename_i hi
    exact ⟨hi, (Option.some.inj h).symm⟩
  · cases h

/-- Everything an access can name. -/
theorem mapped_of_targetOf {a : Nat} {tgt : Target} (h : targetOf c a n = some tgt) :
    Mapped c a n tgt := by
  unfold targetOf at h
  split at h
  · rename_i ha
    split at h
    · rename_i hna
      obtain ⟨hn, hal⟩ := hna
      obtain ⟨r, hr, rfl⟩ := Option.map_eq_some_iff.mp h
      exact .csr hn hal ha hr
    · cases h
  · split at h
    · cases h
    · rename_i hn
      obtain ⟨hn, hal⟩ : n = c.coefBytes ∧ a % c.coefBytes = 0 := by tauto
      split at h
      · rename_i ha
        cases h
        exact .cfgQ hn hal ha
      split at h
      · rename_i ha
        cases h
        exact .scalar hn hal (.inl ha)
      split at h
      · rename_i ha
        cases h
        exact .scalar hn hal (.inr ha)
      split at h
      · rename_i ha
        obtain ⟨hi, rfl⟩ := coeffAt_eq_some h
        rw [show (a - 0x01000000) % 2 ^ 20 = a % 2 ^ 20 by omega] at hi ⊢
        exact .coeff hn hal (by omega) hi
      split at h
      · rename_i ha
        obtain ⟨hi, rfl⟩ := coeffAt_eq_some h
        rw [show (a - 0x02000000) % 2 ^ 20 = a % 2 ^ 20 by omega] at hi ⊢
        exact .coeff hn hal (by omega) hi
      · cases h

theorem mapped_of_reach {tgt : Target} (h : s.reach addr n = some tgt) :
    Mapped s.cfg addr.toNat n tgt :=
  mapped_of_targetOf (targetOf_of_reach h)

/-! ### One step, by the bus's answer -/

theorem step_read_refused (hr : s.reach addr n = none) (h : s.inputs = .read addr n :: es) :
    step s = .next { s with
      inputs := es, response := some ⟨true, List.replicate n 0⟩, hosterr := true } := by
  have hreach : State.reach { s with inputs := es } addr n = none := hr
  rw [step_cons _ _ h, State.perform, State.busRead, hreach]
  rfl

theorem step_write_refused {data : List Byte} (hr : s.reach addr data.length = none)
    (h : s.inputs = .write addr data :: es) :
    step s = .next { s with
      inputs := es, response := some ⟨true, []⟩, hosterr := true } := by
  have hreach : State.reach { s with inputs := es } addr data.length = none := hr
  rw [step_cons _ _ h, State.perform, State.busWrite, hreach]
  rfl

theorem step_read_reached {tgt : Target} (hr : s.reach addr n = some tgt)
    (h : s.inputs = .read addr n :: es) :
    step s = .next { s with inputs := es, response := some ⟨false, s.targetBytes tgt⟩ } := by
  have hreach : State.reach { s with inputs := es } addr n = some tgt := hr
  have hbytes : State.targetBytes { s with inputs := es } tgt = s.targetBytes tgt := by
    cases tgt with
    | csr r => cases r <;> rfl
    | _ => rfl
  rw [step_cons _ _ h, State.perform, State.busRead, hreach]
  simp only [hbytes]

/-- A write that reaches a target whose view refuses its value (20_memory.md R66, R68). -/
theorem step_write_rejected {tgt : Target} {data : List Byte}
    (hr : s.reach addr data.length = some tgt)
    (hw : State.writeTarget { s with inputs := es } tgt data = none)
    (h : s.inputs = .write addr data :: es) :
    step s = .next { s with
      inputs := es, response := some ⟨true, []⟩, hosterr := true } := by
  have hreach : State.reach { s with inputs := es } addr data.length = some tgt := hr
  rw [step_cons _ _ h, State.perform, State.busWrite, hreach]
  simp only [hw]
  rfl

theorem step_write_reached {tgt : Target} {data : List Byte} {u : State}
    (hr : s.reach addr data.length = some tgt)
    (hw : State.writeTarget { s with inputs := es } tgt data = some u)
    (h : s.inputs = .write addr data :: es) :
    step s = .next { u with response := some ⟨false, []⟩ } := by
  have hreach : State.reach { s with inputs := es } addr data.length = some tgt := hr
  rw [step_cons _ _ h, State.perform, State.busWrite, hreach]
  simp only [hw]

/-! ### Reads -/

theorem length_viewBytes (c : Config) (sg : Bool) (x : Nat) :
    (viewBytes c sg x).length = c.coefBytes := by
  unfold viewBytes
  split <;> exact length_leBytes _ _

/-- A read answers as many bytes as it asked for (20_memory.md R62). -/
theorem length_targetBytes {a : Nat} {tgt : Target} (h : Mapped s.cfg a n tgt) :
    (s.targetBytes tgt).length = n := by
  cases h with
  | csr hn => exact (length_leBytes _ _).trans hn.symm
  | cfgQ hn => exact (length_leBytes _ _).trans hn.symm
  | scalar hn => exact (length_viewBytes _ _ _).trans hn.symm
  | coeff hn => exact (length_viewBytes _ _ _).trans hn.symm

/-- Settles O53: a read reaches a target, whose bytes it answers, or is refused. -/
theorem readsHaveNoSideEffects : Obligations.ReadsHaveNoSideEffects := by
  intro s addr n es h
  cases hr : s.reach addr n with
  | none => exact .inr (step_read_refused hr h)
  | some tgt =>
    exact .inl ⟨s.targetBytes tgt, length_targetBytes (mapped_of_reach hr), step_read_reached hr h⟩

/-! ### Refused accesses -/

theorem reach_eq_none_of_not_mapped (h : ∀ tgt, ¬ Mapped s.cfg addr.toNat n tgt) :
    s.reach addr n = none :=
  Option.eq_none_iff_forall_ne_some.mpr fun tgt hr => h tgt (mapped_of_reach hr)

/-- The control block takes words, the rest of the map coefficient slots (20_memory.md R63). -/
theorem Mapped.size_align {a : Nat} {tgt : Target} (h : Mapped c a n tgt) :
    n = (if a < 0x800 then 4 else c.coefBytes) ∧
      a % (if a < 0x800 then 4 else c.coefBytes) = 0 := by
  cases h with
  | csr hn hal ha => rw [if_pos ha]; exact ⟨hn, hal⟩
  | cfgQ hn hal => rw [if_neg (by omega)]; exact ⟨hn, hal⟩
  | scalar hn hal => rw [if_neg (by omega)]; exact ⟨hn, hal⟩
  | coeff hn hal => rw [if_neg (by omega)]; exact ⟨hn, hal⟩

/-- Settles O54: no block of the address map holds such an access (20_memory.md R61, R63). -/
theorem badAccessesAreRefused : Obligations.BadAccessesAreRefused := by
  intro s addr n es hc a cb wrongSize misaligned unmapped hbad
  have hcb := hc.coefBytes_cases
  have hnone : s.reach addr n = none := by
    refine reach_eq_none_of_not_mapped fun tgt hm => ?_
    obtain ⟨hsize, halign⟩ := hm.size_align
    obtain hwrong | hmis | hgap := hbad
    · exact hwrong hsize
    · exact hmis halign
    · dsimp only [unmapped, a, cb] at hgap
      cases hm with
      | csr _ _ ha hr =>
        have hrange := csrAt_range hr
        omega
      | cfgQ => omega
      | scalar => omega
      | coeff _ _ _ hi =>
        have hin : addr.toNat % 0x00100000 < s.cfg.cap * s.cfg.coefBytes :=
          (Nat.div_lt_iff_lt_mul (by omega)).mp hi
        omega
  exact ⟨step_read_refused hnone, fun data hl => step_write_refused (hl ▸ hnone)⟩

/-- The blocks from 0x100 to 0x180 and from 0x1000 up hold data only (20_memory.md R71). -/
theorem Mapped.isData {a : Nat} {tgt : Target} (h : Mapped c a n tgt)
    (ha : (0x100 ≤ a ∧ a < 0x180) ∨ 0x1000 ≤ a) : tgt.isData = true := by
  cases h with
  | csr _ _ _ hr => exact isData_of_csrAt hr (by omega)
  | cfgQ => omega
  | scalar => rfl
  | coeff => rfl

/-- Settles O56: what these addresses name is data, which a busy PRE refuses. -/
theorem busyRefusesDataAccess : Obligations.BusyRefusesDataAccess := by
  intro s addr es hb ha
  have hnone : ∀ n, s.reach addr n = none := fun n => by
    rw [reach_busy addr n hb]
    refine Option.filter_eq_none_iff.mpr fun tgt ht => ?_
    simp [(mapped_of_targetOf ht).isData ha]
  exact ⟨fun n => step_read_refused (hnone n), fun data => step_write_refused (hnone _)⟩

end Sys2Proof.Machine
end

section
/-! The coefficient and scalar windows (20_memory.md R61, R65 to R70): what their addresses name,
what their views show and take, and one access through each. -/

namespace Sys2Proof.Machine

variable {s : State} {c : Config} {es : List Event}

/-! ### The windows' addresses -/

/-- A slot's address is aligned, since every COEF_BYTES divides 16 (20_memory.md R61). -/
theorem slot_aligned (hc : c.Valid) {b : Nat} (hb : 16 ∣ b) (k : Nat) :
    (b + k * c.coefBytes) % c.coefBytes = 0 := by
  have hcb : c.coefBytes ∣ 16 := by
    obtain h | h | h := hc.coefBytes_cases <;> rw [h] <;> decide
  rw [Nat.add_mul_mod_self_right]
  exact Nat.mod_eq_zero_of_dvd (hcb.trans hb)

/-- A register's coefficients fit its part of the window (20_memory.md R61). -/
theorem coef_offset_lt (hc : c.Valid) {i : Nat} (hi : i < c.cap) : i * c.coefBytes < 2 ^ 20 := by
  have hn := hc.n_le
  have hcb := hc.coefBytes_cases
  calc i * c.coefBytes < c.cap * c.coefBytes := Nat.mul_lt_mul_of_pos_right hi (by omega)
    _ ≤ 2 ^ 16 * 2 ^ 4 := Nat.mul_le_mul (by unfold Config.cap; omega) (by omega)
    _ = 2 ^ 20 := by norm_num

/-- An aligned address in a coefficient window, `off` from its start. -/
theorem targetOf_coefWindow (hc : c.Valid) (sg : Bool) {a off : Nat} (hal : a % c.coefBytes = 0)
    (ha : a = (if sg then 0x02000000 else 0x01000000) + off) (hlt : off < 2 ^ 24) :
    targetOf c a c.coefBytes = coeffAt c sg off := by
  have hcb := hc.coefBytes_cases
  cases sg with
  | false =>
    rw [if_neg Bool.false_ne_true] at ha
    rw [targetOf, if_neg (by omega), if_neg (by omega), if_neg (by omega), if_neg (by omega),
      if_neg (by omega), if_pos (by omega), ha, Nat.add_sub_cancel_left]
  | true =>
    rw [if_pos rfl] at ha
    rw [targetOf, if_neg (by omega), if_neg (by omega), if_neg (by omega), if_neg (by omega),
      if_neg (by omega), if_neg (by omega), if_pos (by omega), ha, Nat.add_sub_cancel_left]

/-- An aligned address in a scalar window, `off` from its start. -/
theorem targetOf_scalarWindow (hc : c.Valid) (sg : Bool) {a off : Nat} (hal : a % c.coefBytes = 0)
    (ha : a = (if sg then 0x1800 else 0x1000) + off) (hlt : off < 16 * c.coefBytes) :
    targetOf c a c.coefBytes = some (.scalar sg (Fin.ofNat 16 (off / c.coefBytes))) := by
  have hcb := hc.coefBytes_cases
  cases sg with
  | false =>
    rw [if_neg Bool.false_ne_true] at ha
    rw [targetOf, if_neg (by omega), if_neg (by omega), if_neg (by omega), if_pos (by omega), ha,
      Nat.add_sub_cancel_left]
  | true =>
    rw [if_pos rfl] at ha
    rw [targetOf, if_neg (by omega), if_neg (by omega), if_neg (by omega), if_neg (by omega),
      if_pos (by omega), ha, Nat.add_sub_cancel_left]

theorem coeffAt_slot (hc : c.Valid) (sg : Bool) (p : PReg) {i : Nat} (hi : i < c.cap) :
    coeffAt c sg (p.val * 0x00100000 + i * c.coefBytes) = some (.coeff sg p i) := by
  have hcb := hc.coefBytes_cases
  have hfit := coef_offset_lt hc hi
  have hoff : (p.val * 0x00100000 + i * c.coefBytes) % 2 ^ 20 = i * c.coefBytes := by omega
  have hidx : (p.val * 0x00100000 + i * c.coefBytes) % 2 ^ 20 / c.coefBytes = i := by
    rw [hoff, Nat.mul_div_cancel _ (by omega)]
  have hreg : (p.val * 0x00100000 + i * c.coefBytes) / 2 ^ 20 = p.val := by omega
  rw [coeffAt, hidx, hreg, Fin.ofNat_val_eq_self]
  exact if_pos hi

theorem reach_coefAddr (hc : s.cfg.Valid) (hb : s.busy = false) (sg : Bool) (p : PReg) {i : Nat}
    (hi : i < s.cfg.cap) :
    s.reach (coefAddr s.cfg sg p i) s.cfg.coefBytes = some (.coeff sg p i) := by
  have hp := p.isLt
  have hfit := coef_offset_lt hc hi
  have hbase : (if sg then 0x02000000 else 0x01000000) ≤ 0x02000000 ∧
      16 ∣ (if sg then 0x02000000 else 0x01000000) := by cases sg <;> decide
  obtain ⟨hle, hdvd⟩ := hbase
  have ha : (coefAddr s.cfg sg p i).toNat = (if sg then 0x02000000 else 0x01000000) +
      p.val * 0x00100000 + i * s.cfg.coefBytes := by
    rw [coefAddr, BitVec.toNat_ofNat, Nat.mod_eq_of_lt (by omega)]
  have hal : (coefAddr s.cfg sg p i).toNat % s.cfg.coefBytes = 0 :=
    ha ▸ slot_aligned hc (by omega) i
  rw [reach_idle _ _ hb, targetOf_coefWindow hc sg hal (ha.trans (Nat.add_assoc ..)) (by omega),
    coeffAt_slot hc sg p hi]

theorem reach_scalarAddr (hc : s.cfg.Valid) (hb : s.busy = false) (sg : Bool) (r : SReg) :
    s.reach (scalarAddr s.cfg sg r) s.cfg.coefBytes = some (.scalar sg r) := by
  have hcb := hc.coefBytes_cases
  have hfit : r.val * s.cfg.coefBytes < 16 * s.cfg.coefBytes :=
    Nat.mul_lt_mul_of_pos_right r.isLt (by omega)
  have hbase : (if sg then 0x1800 else 0x1000) ≤ 0x1800 ∧
      16 ∣ (if sg then 0x1800 else 0x1000) := by cases sg <;> decide
  obtain ⟨hle, hdvd⟩ := hbase
  have ha : (scalarAddr s.cfg sg r).toNat =
      (if sg then 0x1800 else 0x1000) + r.val * s.cfg.coefBytes := by
    rw [scalarAddr, BitVec.toNat_ofNat, Nat.mod_eq_of_lt (by omega)]
  have hal : (scalarAddr s.cfg sg r).toNat % s.cfg.coefBytes = 0 := ha ▸ slot_aligned hc hdvd r.val
  rw [reach_idle _ _ hb, targetOf_scalarWindow hc sg hal ha hfit, Nat.mul_div_cancel _ (by omega),
    Fin.ofNat_val_eq_self]

/-! ### The views -/

theorem viewBytes_unsigned (c : Config) (x : Nat) :
    viewBytes c false x = leBytes c.coefBytes x := rfl

theorem viewBytes_signed (c : Config) (x : Nat) :
    viewBytes c true x = leBytes c.coefBytes (center c.q x % 256 ^ c.coefBytes).toNat := by
  simp only [viewBytes, if_true, Nat.cast_pow, Nat.cast_ofNat]

/-- A signed number in range is read back from its two's complement (20_memory.md R68). -/
theorem leSigned_leBytes (n : Nat) {v : Int} (hlo : -(256 ^ n) ≤ 2 * v) (hhi : 2 * v < 256 ^ n) :
    leSigned (leBytes n (v % 256 ^ n).toNat) = v := by
  have hcast : ((256 ^ n : Nat) : Int) = 256 ^ n := by push_cast; rfl
  have hpos : 0 < 256 ^ n := Nat.pow_pos (by decide)
  unfold leSigned
  rw [length_leBytes, leValue_leBytes, ← hcast]
  rw [← hcast] at hlo hhi
  generalize 256 ^ n = m at hlo hhi hpos
  dsimp only
  by_cases hv : 0 ≤ v
  · have hmod : v % (m : Int) = v := Int.emod_eq_of_lt hv (by omega)
    rw [hmod, Nat.mod_eq_of_lt (by omega), if_pos (by omega)]
    omega
  · have hmod : v % (m : Int) = v + m := by
      rw [← Int.add_emod_right, Int.emod_eq_of_lt (by omega) (by omega)]
    rw [hmod, Nat.mod_eq_of_lt (by omega), if_neg (by omega)]
    omega

theorem viewValue_unsigned {x : Nat} (hx : x < 256 ^ c.coefBytes) :
    viewValue c false (leBytes c.coefBytes x) = if x < c.q then some x else none := by
  simp only [viewValue, Bool.false_eq_true, if_false, leValue_leBytes, Nat.mod_eq_of_lt hx]
  by_cases hq : x < c.q
  · rw [if_neg (by omega), if_pos hq]
  · rw [if_pos (by omega), if_neg hq]

theorem viewValue_signed {v : Int} (hlo : -(256 ^ c.coefBytes) ≤ 2 * v)
    (hhi : 2 * v < 256 ^ c.coefBytes) :
    viewValue c true (leBytes c.coefBytes (v % 256 ^ c.coefBytes).toNat) =
      if |v| ≤ ((c.q : Int) - 1) / 2 then some (v % c.q).toNat else none := by
  simp only [viewValue, if_true, leSigned_leBytes _ hlo hhi, abs_le]
  by_cases hq : -(((c.q : Int) - 1) / 2) ≤ v ∧ v ≤ ((c.q : Int) - 1) / 2
  · rw [if_neg (by omega), if_pos hq]
    rfl
  · rw [if_pos (by omega), if_neg hq]

/-! ### One access through a window -/

theorem step_read_coefWindow (hc : s.cfg.Valid) (hb : s.busy = false) (sg : Bool) (p : PReg)
    {i : Nat} (hi : i < s.cfg.cap)
    (h : s.inputs = .read (coefAddr s.cfg sg p i) s.cfg.coefBytes :: es) :
    step s = .next { s with
      inputs := es, response := some ⟨false, viewBytes s.cfg sg (coef (s.getP p) i)⟩ } :=
  step_read_reached (reach_coefAddr hc hb sg p hi) h

theorem step_read_scalarWindow (hc : s.cfg.Valid) (hb : s.busy = false) (sg : Bool) (r : SReg)
    (h : s.inputs = .read (scalarAddr s.cfg sg r) s.cfg.coefBytes :: es) :
    step s = .next { s with
      inputs := es, response := some ⟨false, viewBytes s.cfg sg (s.getS r)⟩ } :=
  step_read_reached (reach_scalarAddr hc hb sg r) h

section Write

variable {data : List Byte} (hc : s.cfg.Valid) (hb : s.busy = false)
  (hl : data.length = s.cfg.coefBytes)

include hc hb hl

/-- A coefficient window writes the one coefficient and keeps the value canonical (20_memory.md R66,
R68). -/
theorem step_write_coefWindow {sg : Bool} {p : PReg} {i v : Nat} (hi : i < s.cfg.cap)
    (hv : viewValue s.cfg sg data = some v)
    (h : s.inputs = .write (coefAddr s.cfg sg p i) data :: es) :
    ∃ w, isCanon w = true ∧ (∀ j, coef w j = if j = i then v else coef (s.getP p) j) ∧
      step s = .next { s with inputs := es, response := some ⟨false, []⟩, p := s.p.set p w } := by
  have hr : s.reach (coefAddr s.cfg sg p i) data.length = some (.coeff sg p i) :=
    hl ▸ reach_coefAddr hc hb sg p hi
  refine ⟨setCoef s.cfg.cap (s.getP p) i v, isCanon_setCoef _ _ _ _,
    fun j => coef_setCoef _ _ _ _ _ hi, ?_⟩
  exact step_write_reached (es := es) hr (congrArg (Option.map _) hv) h

theorem step_write_coefWindow_refused {sg : Bool} {p : PReg} {i : Nat} (hi : i < s.cfg.cap)
    (hv : viewValue s.cfg sg data = none)
    (h : s.inputs = .write (coefAddr s.cfg sg p i) data :: es) :
    step s = .next { s with inputs := es, response := some ⟨true, []⟩, hosterr := true } := by
  have hr : s.reach (coefAddr s.cfg sg p i) data.length = some (.coeff sg p i) :=
    hl ▸ reach_coefAddr hc hb sg p hi
  exact step_write_rejected hr (congrArg (Option.map _) hv) h

theorem step_write_scalarWindow {sg : Bool} {r : SReg} {v : Nat}
    (hv : viewValue s.cfg sg data = some v)
    (h : s.inputs = .write (scalarAddr s.cfg sg r) data :: es) :
    step s = .next { s with inputs := es, response := some ⟨false, []⟩, sc := s.sc.set r v } := by
  have hr : s.reach (scalarAddr s.cfg sg r) data.length = some (.scalar sg r) :=
    hl ▸ reach_scalarAddr hc hb sg r
  exact step_write_reached (es := es) hr (congrArg (Option.map _) hv) h

theorem step_write_scalarWindow_refused {sg : Bool} {r : SReg}
    (hv : viewValue s.cfg sg data = none)
    (h : s.inputs = .write (scalarAddr s.cfg sg r) data :: es) :
    step s = .next { s with inputs := es, response := some ⟨true, []⟩, hosterr := true } := by
  have hr : s.reach (scalarAddr s.cfg sg r) data.length = some (.scalar sg r) :=
    hl ▸ reach_scalarAddr hc hb sg r
  exact step_write_rejected hr (congrArg (Option.map _) hv) h

end Write

/-- Settles O57: the window reaches its coefficient, and the view takes the values below `q`. -/
theorem unsignedCoefficientWindow : Obligations.UnsignedCoefficientWindow := by
  intro s p i v es hc hb hi hv
  have hl := length_leBytes s.cfg.coefBytes v
  have hview := viewValue_unsigned hv
  refine ⟨step_read_coefWindow hc hb false p hi, fun h => ⟨fun hge => ?_, fun hlt => ?_⟩⟩
  · rw [if_neg (by omega)] at hview
    exact step_write_coefWindow_refused hc hb hl hi hview h
  · rw [if_pos hlt] at hview
    exact step_write_coefWindow hc hb hl hi hview h

/-- Settles O58: the window reaches its coefficient, and the view takes the signed representatives,
which are the numbers of magnitude at most `(q - 1) / 2`. -/
theorem signedCoefficientWindow : Obligations.SignedCoefficientWindow := by
  intro s p i v es hc hb hi top twos hlo hhi
  have hl : (twos v).length = s.cfg.coefBytes := length_leBytes _ _
  have hview : viewValue s.cfg true (twos v) = _ := viewValue_signed hlo hhi
  refine ⟨fun h => ?_, fun h => ⟨fun hout => ?_, fun hge hle => ?_⟩⟩
  · rw [step_read_coefWindow hc hb true p hi h, viewBytes_signed]
  · rw [if_neg (by rw [abs_le]; omega)] at hview
    exact step_write_coefWindow_refused hc hb hl hi hview h
  · rw [if_pos (abs_le.mpr ⟨hge, hle⟩)] at hview
    exact step_write_coefWindow hc hb hl hi hview h

/-- Settles O59: both windows reach the scalar, and each view takes the values its rule names. -/
theorem scalarWindows : Obligations.ScalarWindows := by
  intro s r x v es hc hb hx top twos hlo hhi
  have hl : (twos v).length = s.cfg.coefBytes := length_leBytes _ _
  have hview : viewValue s.cfg true (twos v) = _ := viewValue_signed hlo hhi
  have hlx := length_leBytes s.cfg.coefBytes x
  have hviewx := viewValue_unsigned hx
  refine ⟨step_read_scalarWindow hc hb false r, fun h => ?_, fun h => ?_, fun h => ?_⟩
  · by_cases hlt : x < s.cfg.q
    · rw [if_pos hlt] at hviewx ⊢
      exact step_write_scalarWindow hc hb hlx hviewx h
    · rw [if_neg hlt] at hviewx ⊢
      exact step_write_scalarWindow_refused hc hb hlx hviewx h
  · rw [step_read_scalarWindow hc hb true r h, viewBytes_signed]
  · by_cases hle : |v| ≤ ((s.cfg.q : Int) - 1) / 2
    · rw [if_pos hle] at hview ⊢
      exact step_write_scalarWindow hc hb hl hview h
    · rw [if_neg hle] at hview ⊢
      exact step_write_scalarWindow_refused hc hb hl hview h

end Sys2Proof.Machine
end

section
/-! A running command (20_memory.md R75 to R77, 60_exceptions.md R313): what a step that leaves BUSY
at 1 keeps, event by event. -/

namespace Sys2Proof.Machine

variable {s t : State} {es : List Event}

/-! ### A unit step that leaves the command running -/

/-- Only a YKEYGEN pass that found no key leaves its command running (60_exceptions.md R313). -/
theorem exec_running {i : Instr} (h : exec i s = .next t) (ht : t.busy = true) :
    ∃ k o, t = { s with kgcount := k, oracle := o } := by
  cases hk : isKeygen i with
  | false =>
    obtain ⟨e, rfl⟩ | ⟨u, -, rfl⟩ := exec_cases hk h
    · cases ht
    · cases ht
  | true =>
    cases i with
    | ykeygen rd =>
      obtain ⟨e, rfl⟩ | rfl | ⟨-, rfl⟩ := exec_keygen_cases h
      · cases ht
      · cases ht
      · obtain ⟨o, hp⟩ | ⟨o, f, fi, sk, ski, pk, hp⟩ := keygenPass_cases (s := s) rd
        · exact ⟨_, o, hp⟩
        · rw [hp] at ht
          cases ht
    | _ => cases hk

theorem unitStep_running (hb : s.busy = true) (h : s.unitStep = .next t) (ht : t.busy = true) :
    ∃ k o, t = { s with kgcount := k, oracle := o } := by
  rw [unitStep_busy hb] at h
  cases hd : decode s.curcmd with
  | ok i => exact exec_running ((runWord_ok hd).symm.trans h) ht
  | error e =>
    cases (runWord_error hd).symm.trans h
    cases ht

theorem step_of_unitStepNext (h : s.UnitStepNext es) :
    step s = State.unitStep { s with inputs := es } := by
  obtain ⟨hi, rfl⟩ | hi := h
  · rw [step_nil hi, ← hi]
  · exact step_cons _ _ hi

/-! ### What stays hidden -/

/-- From `s` to `t` nothing of a command shows: the registers, EQ, the completion record, the
command's word and strategy are kept, and no flag of a completion is raised (20_memory.md R75,
R77). -/
def ShowsNothing (s t : State) : Prop :=
  (t.p = s.p ∧ t.sc = s.sc ∧ t.tag = s.tag ∧ t.eq = s.eq ∧ t.err = s.err ∧
    t.errcmd = s.errcmd ∧ t.kgtries = s.kgtries ∧ t.cmdreg = s.cmdreg ∧ t.curcmd = s.curcmd ∧
    t.curstrat = s.curstrat) ∧
  (t.done = true → s.done = true) ∧ (t.noisew = true → s.noisew = true) ∧
  (t.depthx = true → s.depthx = true)

/-- A step of the bus, the schedule or KEYGEN's count that keeps the three flags. -/
theorem showsNothing_of_fields (ie co ho ab : Bool) (m : MulStrat) (k : Word) (o : Oracle)
    (es : List Event) (r : Option Response) :
    ShowsNothing s { s with
      ie := ie, mulstrat := m, cmdovr := co, hosterr := ho, abreq := ab, kgcount := k, oracle := o,
      inputs := es, response := r } :=
  ⟨⟨rfl, rfl, rfl, rfl, rfl, rfl, rfl, rfl, rfl, rfl⟩, id, id, id⟩

theorem busRead_showsNothing (addr : BitVec 32) (n : Nat) : ShowsNothing s (s.busRead addr n) := by
  obtain ⟨-, h⟩ | ⟨tgt, -, h⟩ := busRead_cases (s := s) addr n
  all_goals rw [h]; exact showsNothing_of_fields ..

theorem showsNothing_writeStatus (v : Word) : ShowsNothing s (s.writeStatus v) :=
  ⟨⟨rfl, rfl, rfl, rfl, rfl, rfl, rfl, rfl, rfl, rfl⟩, Bool.and_elim_left, Bool.and_elim_left,
    Bool.and_elim_left⟩

/-- A busy PRE takes from a control register's write no command and no tag (10_state.md R33,
20_memory.md R71). -/
theorem writeCsr_showsNothing (hb : s.busy = true) {r : Csr} (hd : Target.isData (.csr r) = false)
    (v : Word) : ShowsNothing s (s.writeCsr r v) := by
  cases r with
  | status => exact showsNothing_writeStatus v
  | cmd =>
    show ShowsNothing s (s.writeCmd v)
    rw [State.writeCmd, if_pos hb]
    exact showsNothing_of_fields ..
  | ptag p => cases hd
  | _ => exact showsNothing_of_fields ..

theorem isData_of_reach_busy (hb : s.busy = true) {addr : BitVec 32} {n : Nat} {tgt : Target}
    (h : s.reach addr n = some tgt) : tgt.isData = false := by
  rw [reach_busy addr n hb] at h
  obtain ⟨-, hd⟩ := Option.filter_eq_some_iff.mp h
  simpa using hd

theorem busWrite_showsNothing (hb : s.busy = true) (addr : BitVec 32) (bs : List Byte) :
    ShowsNothing s (s.busWrite addr bs) := by
  obtain h | ⟨tgt, u, hr, hu, h⟩ := busWrite_cases (s := s) addr bs
  · rw [h]
    exact showsNothing_of_fields ..
  · rw [h]
    have hd := isData_of_reach_busy hb hr
    obtain ⟨r, rfl, rfl⟩ | ⟨rfl, rfl⟩ | ⟨sg, r, v, rfl, -⟩ | ⟨sg, p, i, v, rfl, -⟩ :=
      writeTarget_cases hu
    · exact writeCsr_showsNothing hb hd _
    · exact showsNothing_of_fields ..
    · cases hd
    · cases hd

theorem perform_showsNothing (hb : s.busy = true) {e : Event} (h : s.perform e = .next t)
    (ht : t.busy = true) : ShowsNothing s t := by
  cases e with
  | read addr n => cases h; exact busRead_showsNothing addr n
  | write addr bs => cases h; exact busWrite_showsNothing hb addr bs
  | reset => cases h; cases ht
  | unitStep =>
    obtain ⟨k, o, rfl⟩ := unitStep_running hb h ht
    exact showsNothing_of_fields ..

/-- Settles O13: each event that leaves the command running shows nothing of it, and a unit step
that does is a YKEYGEN pass that found no key. -/
theorem runningCommandShowsNothing : Obligations.RunningCommandShowsNothing := by
  intro s t hb h ht
  have hshow : ShowsNothing s t := by
    obtain ⟨hi, hs⟩ | ⟨e, es, hi, hs⟩ := step_eq s
    · exact perform_showsNothing (e := .unitStep) hb (hs.symm.trans h) ht
    · exact perform_showsNothing (s := { s with inputs := es }) hb (hs.symm.trans h) ht
  obtain ⟨hregs, hdone, hnoisew, hdepthx⟩ := hshow
  refine ⟨hregs, hdone, hnoisew, hdepthx, fun es hu => ?_⟩
  have hunit : State.unitStep { s with inputs := es } = .next t :=
    (step_of_unitStepNext hu).symm.trans h
  obtain ⟨k, o, rfl⟩ := unitStep_running (s := { s with inputs := es }) hb hunit ht
  rfl

end Sys2Proof.Machine
end

section
/-! Decoder and encoder agree (30_encoding.md R90 to R101). The commands have ten layouts of fields
between them, nearly the rows of R97's table; a fact about all words is ten facts about layouts, once
each opcode and each command is found to have its layout. -/

namespace Sys2Proof

/-! ### The layouts -/

/-- The operand fields of a command's word, with the command they make (R91 to R95); every other
bit below the opcode is reserved (R97). -/
inductive Layout where
  /-- NOP -/
  | bare (i : Instr)
  | rd (f : Fin 16 → Instr)
  | rdRa (f : Fin 16 → Fin 16 → Instr)
  /-- the compares -/
  | raRb (f : Fin 16 → Fin 16 → Instr)
  | rdRaRb (f : Fin 16 → Fin 16 → Fin 16 → Instr)
  /-- PMUL and YMUL -/
  | strat (f : Fin 16 → Fin 16 → Fin 16 → Strat → Instr)
  /-- PSPLIT -/
  | clog (f : Fin 16 → Fin 16 → Nat → Instr)
  /-- PSPLITK -/
  | clogKlog (f : Fin 16 → Fin 16 → Nat → Nat → Instr)
  /-- format I (R92) -/
  | imm20 (f : Fin 16 → Nat → Instr)
  /-- format X (R93) -/
  | idx16 (f : Fin 16 → Fin 16 → Nat → Instr)

/-- The reserved bits (R97's table). -/
def Layout.mask : Layout → Nat
  | .bare _ => 0x00FFFFFF
  | .rd _ => 0x000FFFFF
  | .rdRa _ => 0x0000FFFF
  | .raRb _ => 0x00F00FFF
  | .rdRaRb _ => 0x00000FFF
  | .strat _ => 0x00000FFC
  | .clog _ => 0x0000F03F
  | .clogKlog _ => 0x0000F000
  | .imm20 _ | .idx16 _ => 0

/-- The test that the reserved fields are 0, as the decoder makes it. -/
def Layout.clear (w : Word) : Layout → Bool
  | .bare _ => bits w 23 0 == 0
  | .rd _ => bits w 19 0 == 0
  | .rdRa _ => bits w 15 0 == 0
  | .raRb _ => bits w 23 20 == 0 && bits w 11 0 == 0
  | .rdRaRb _ => bits w 11 0 == 0
  | .strat _ => bits w 11 2 == 0
  | .clog _ => bits w 15 12 == 0 && bits w 5 0 == 0
  | .clogKlog _ => bits w 15 12 == 0
  | .imm20 _ | .idx16 _ => true

/-- The command that a word's fields make. -/
def Layout.read (w : Word) : Layout → Instr
  | .bare i => i
  | .rd f => f (fieldRd w)
  | .rdRa f => f (fieldRd w) (fieldRa w)
  | .raRb f => f (fieldRa w) (fieldRb w)
  | .rdRaRb f => f (fieldRd w) (fieldRa w) (fieldRb w)
  | .strat f => f (fieldRd w) (fieldRa w) (fieldRb w) (fieldStrat w)
  | .clog f => f (fieldRd w) (fieldRa w) (bits w 11 6)
  | .clogKlog f => f (fieldRd w) (fieldRa w) (bits w 11 6) (bits w 5 0)
  | .imm20 f => f (fieldRd w) (bits w 19 0)
  | .idx16 f => f (fieldRd w) (fieldRa w) (bits w 15 0)

/-- `w` is the word with opcode `opc` whose fields hold the operands of `i`; a register field that
the layout does not have is 0 (R101). -/
inductive Layout.Writes (opc : Nat) : Layout → Instr → Word → Prop
  | bare {i w} (hw : formatR opc 0 0 0 0 = w) : Writes opc (.bare i) i w
  | rd {f w} {rd : Fin 16} (hw : formatR opc rd 0 0 0 = w) : Writes opc (.rd f) (f rd) w
  | rdRa {f w} {rd ra : Fin 16} (hw : formatR opc rd ra 0 0 = w) :
      Writes opc (.rdRa f) (f rd ra) w
  | raRb {f w} {ra rb : Fin 16} (hw : formatR opc 0 ra rb 0 = w) :
      Writes opc (.raRb f) (f ra rb) w
  | rdRaRb {f w} {rd ra rb : Fin 16} (hw : formatR opc rd ra rb 0 = w) :
      Writes opc (.rdRaRb f) (f rd ra rb) w
  | strat {f w} {rd ra rb : Fin 16} {st : Strat} (hw : formatR opc rd ra rb st.code = w) :
      Writes opc (.strat f) (f rd ra rb st) w
  | clog {f w k} {rd ra : Fin 16} (hk : k < 2 ^ 6) (hw : formatR opc rd ra 0 (k * 2 ^ 6) = w) :
      Writes opc (.clog f) (f rd ra k) w
  | clogKlog {f w k l} {rd ra : Fin 16} (hk : k < 2 ^ 6) (hl : l < 2 ^ 6)
      (hw : formatR opc rd ra 0 (k * 2 ^ 6 + l) = w) : Writes opc (.clogKlog f) (f rd ra k l) w
  | imm20 {f w n} {rd : Fin 16} (hn : n < 2 ^ 20) (hw : formatI opc rd n = w) :
      Writes opc (.imm20 f) (f rd n) w
  | idx16 {f w n} {rd ra : Fin 16} (hn : n < 2 ^ 16) (hw : formatX opc rd ra n = w) :
      Writes opc (.idx16 f) (f rd ra n) w

/-- The opcode map (R96). -/
def layoutOf : Nat → Option Layout
  | 0x00 => some (.bare .nop)
  | 0x10 => some (.rdRaRb .fadd)
  | 0x11 => some (.rdRaRb .fsub)
  | 0x12 => some (.rdRaRb .fmul)
  | 0x13 => some (.rdRa .fneg)
  | 0x14 => some (.rdRa .finv)
  | 0x15 => some (.rdRaRb .fdiv)
  | 0x16 => some (.imm20 .fldi)
  | 0x17 => some (.rdRa .fmov)
  | 0x18 => some (.raRb .feq)
  | 0x20 => some (.rd .pzero)
  | 0x21 => some (.rd .pone)
  | 0x22 => some (.imm20 .pmono)
  | 0x23 => some (.rdRa .pcopy)
  | 0x24 => some (.idx16 .pgetc)
  | 0x25 => some (.idx16 .psetc)
  | 0x26 => some (.raRb .peq)
  | 0x30 => some (.rdRaRb .padd)
  | 0x31 => some (.rdRaRb .psub)
  | 0x32 => some (.rdRa .pneg)
  | 0x33 => some (.rdRaRb .pscale)
  | 0x34 => some (.rdRa .preduce)
  | 0x35 => some (.clog .psplit)
  | 0x36 => some (.clogKlog .psplitk)
  | 0x40 => some (.strat .pmul)
  | 0x41 => some (.rdRaRb .pmulf)
  | 0x50 => some (.rdRa .pinv)
  | 0x60 => some (.rd .sampu)
  | 0x61 => some (.rd .sampt)
  | 0x62 => some (.rd .sampg)
  | 0x63 => some (.rd .sampb)
  | 0x70 => some (.rd .ykeygen)
  | 0x71 => some (.rdRaRb .yenc)
  | 0x72 => some (.rdRaRb .ydec)
  | 0x73 => some (.rdRaRb .ydecm)
  | 0x74 => some (.rdRaRb .yadd)
  | 0x75 => some (.strat .ymul)
  | _ => none

/-! ### The opcode map is the model's -/

/-- The decoder looks the opcode up, tests the reserved fields and reads the others (R100). -/
theorem decode_eq (w : Word) : decode w = match layoutOf (bits w 31 24) with
    | none => .error .illegalOpcode
    | some l => ifReserved (l.clear w) (l.read w) := by
  unfold decode
  generalize bits w 31 24 = opc
  split
  case h_38 => simp only [layoutOf]
  all_goals rfl

variable {opc : Nat} {l : Layout} {i : Instr} {w : Word}

theorem reservedMask_of_layoutOf (h : layoutOf opc = some l) : reservedMask opc = some l.mask := by
  unfold layoutOf at h
  split at h <;> cases h <;> rfl

/-- R98's ranges are the opcodes that have no command. -/
theorem layoutOf_eq_none_iff : layoutOf opc = none ↔ ¬ (opc = 0x00 ∨ (0x10 ≤ opc ∧ opc ≤ 0x18) ∨
    (0x20 ≤ opc ∧ opc ≤ 0x26) ∨ (0x30 ≤ opc ∧ opc ≤ 0x36) ∨ (0x40 ≤ opc ∧ opc ≤ 0x41) ∨
    opc = 0x50 ∨ (0x60 ≤ opc ∧ opc ≤ 0x63) ∨ (0x70 ≤ opc ∧ opc ≤ 0x75)) := by
  unfold layoutOf
  split
  case h_38 => simp only [imp_false, true_iff] at *; omega
  all_goals simp

/-- The encoder writes every well-formed command by the layout of its opcode. -/
theorem exists_writes_encode (h : i.wellFormed = true) :
    ∃ opc l, l.Writes opc i (encode i) ∧ layoutOf opc = some l ∧ opc < 256 := by
  cases i with
  | nop => exact ⟨_, _, .bare rfl, rfl, by decide⟩
  | pzero | pone | sampu | sampt | sampg | sampb | ykeygen => exact ⟨_, _, .rd rfl, rfl, by decide⟩
  | fneg | finv | fmov | pcopy | pneg | preduce | pinv => exact ⟨_, _, .rdRa rfl, rfl, by decide⟩
  | feq | peq => exact ⟨_, _, .raRb rfl, rfl, by decide⟩
  | fadd | fsub | fmul | fdiv | padd | psub | pscale | pmulf | yenc | ydec | ydecm | yadd =>
    exact ⟨_, _, .rdRaRb rfl, rfl, by decide⟩
  | pmul | ymul => exact ⟨_, _, .strat rfl, rfl, by decide⟩
  | psplit => exact ⟨_, _, .clog (of_decide_eq_true h) rfl, rfl, by decide⟩
  | psplitk =>
    obtain ⟨hk, hl⟩ := (Bool.and_eq_true _ _).mp h
    exact ⟨_, _, .clogKlog (of_decide_eq_true hk) (of_decide_eq_true hl) rfl, rfl, by decide⟩
  | fldi | pmono => exact ⟨_, _, .imm20 (of_decide_eq_true h) rfl, rfl, by decide⟩
  | pgetc | psetc => exact ⟨_, _, .idx16 (of_decide_eq_true h) rfl, rfl, by decide⟩

/-- What the layout of an opcode writes is well-formed, and the encoder writes the same. -/
theorem encode_of_writes (hl : layoutOf opc = some l) (h : l.Writes opc i w) :
    i.wellFormed = true ∧ encode i = w := by
  unfold layoutOf at hl
  split at hl <;> cases hl <;> cases h <;> refine ⟨?_, ‹_›⟩
  all_goals simp [Instr.wellFormed, -Nat.reducePow, *]

/-! ### Words and their fields -/

theorem fieldRd_val (w : Word) : (fieldRd w).val = bits w 23 20 :=
  Nat.mod_eq_of_lt (Nat.mod_lt _ (by decide))

theorem fieldRa_val (w : Word) : (fieldRa w).val = bits w 19 16 :=
  Nat.mod_eq_of_lt (Nat.mod_lt _ (by decide))

theorem fieldRb_val (w : Word) : (fieldRb w).val = bits w 15 12 :=
  Nat.mod_eq_of_lt (Nat.mod_lt _ (by decide))

theorem fieldStrat_code (w : Word) : (fieldStrat w).code = bits w 1 0 := by
  have h : bits w 1 0 < 4 := Nat.mod_lt _ (by decide)
  unfold fieldStrat
  split <;> simp only [imp_false, Strat.code] at * <;> omega

theorem fieldStrat_eq {st : Strat} (h : bits w 1 0 = st.code) : fieldStrat w = st := by
  unfold fieldStrat
  rw [h]
  cases st <;> rfl

/-! The wider fields are made of the fields of format R. -/

theorem bits_15_0 (w : Word) : bits w 15 0 = fieldRb w * 2 ^ 12 + bits w 11 0 := by
  simp only [fieldRb_val, bits_eq]
  omega

theorem bits_19_0 (w : Word) :
    bits w 19 0 = fieldRa w * 2 ^ 16 + (fieldRb w * 2 ^ 12 + bits w 11 0) := by
  simp only [fieldRa_val, fieldRb_val, bits_eq]
  omega

theorem bits_23_0 (w : Word) :
    bits w 23 0 = fieldRd w * 2 ^ 20 + (fieldRa w * 2 ^ 16 + (fieldRb w * 2 ^ 12 + bits w 11 0)) := by
  simp only [fieldRd_val, fieldRa_val, fieldRb_val, bits_eq]
  omega

theorem bits_11_6 (w : Word) : bits w 11 6 = bits w 11 0 / 2 ^ 6 := by
  simp only [bits_eq]
  omega

theorem bits_5_0 (w : Word) : bits w 5 0 = bits w 11 0 % 2 ^ 6 := by
  simp only [bits_eq]
  omega

theorem bits_11_2 (w : Word) : bits w 11 2 = bits w 11 0 / 2 ^ 2 := by
  simp only [bits_eq]
  omega

theorem bits_1_0 (w : Word) : bits w 1 0 = bits w 11 0 % 2 ^ 2 := by
  simp only [bits_eq]
  omega

/-- A word is its fields of format R. -/
theorem formatR_fields (w : Word) :
    formatR (bits w 31 24) (fieldRd w) (fieldRa w) (fieldRb w) (bits w 11 0) = w := by
  have hw := w.isLt
  apply BitVec.eq_of_toNat_eq
  simp only [fieldRd_val, fieldRa_val, fieldRb_val, bits_eq]
  rw [toNat_formatR] <;> omega

theorem formatI_fields (w : Word) : formatI (bits w 31 24) (fieldRd w) (bits w 19 0) = w := by
  have hw := w.isLt
  apply BitVec.eq_of_toNat_eq
  simp only [fieldRd_val, bits_eq]
  rw [toNat_formatI] <;> omega

theorem formatX_fields (w : Word) :
    formatX (bits w 31 24) (fieldRd w) (fieldRa w) (bits w 15 0) = w := by
  have hw := w.isLt
  apply BitVec.eq_of_toNat_eq
  simp only [fieldRd_val, fieldRa_val, bits_eq]
  rw [toNat_formatX] <;> omega

/-- The fields of a word of format R are what was put there. -/
theorem fields_of_formatR {rd ra rb : Fin 16} {fn : Nat} (ho : opc < 256) (hfn : fn < 4096)
    (hw : formatR opc rd ra rb fn = w) : bits w 31 24 = opc ∧ fieldRd w = rd ∧ fieldRa w = ra ∧
      fieldRb w = rb ∧ bits w 11 0 = fn := by
  have hn := hw ▸ toNat_formatR ho rd.isLt ra.isLt rb.isLt hfn
  simp only [Fin.ext_iff, fieldRd_val, fieldRa_val, fieldRb_val, bits_eq, hn]
  omega

theorem fields_of_formatI {rd : Fin 16} {n : Nat} (ho : opc < 256) (h : n < 2 ^ 20)
    (hw : formatI opc rd n = w) : bits w 31 24 = opc ∧ fieldRd w = rd ∧ bits w 19 0 = n := by
  have hn := hw ▸ toNat_formatI ho rd.isLt h
  simp only [Fin.ext_iff, fieldRd_val, bits_eq, hn]
  omega

theorem fields_of_formatX {rd ra : Fin 16} {n : Nat} (ho : opc < 256) (h : n < 2 ^ 16)
    (hw : formatX opc rd ra n = w) :
    bits w 31 24 = opc ∧ fieldRd w = rd ∧ fieldRa w = ra ∧ bits w 15 0 = n := by
  have hn := hw ▸ toNat_formatX ho rd.isLt ra.isLt h
  simp only [Fin.ext_iff, fieldRd_val, fieldRa_val, bits_eq, hn]
  omega

/-! ### Reading and writing a layout -/

/-- The reserved fields are 0 when the masked bits are. -/
theorem clear_iff_mask (l : Layout) (w : Word) : l.clear w = true ↔ w.toNat &&& l.mask = 0 := by
  cases l with
  | bare => exact beq_iff_eq.trans (and_field_eq_zero (k := 0) (n := 24)).symm
  | rd => exact beq_iff_eq.trans (and_field_eq_zero (k := 0) (n := 20)).symm
  | rdRa => exact beq_iff_eq.trans (and_field_eq_zero (k := 0) (n := 16)).symm
  | rdRaRb => exact beq_iff_eq.trans (and_field_eq_zero (k := 0) (n := 12)).symm
  | strat => exact beq_iff_eq.trans (and_field_eq_zero (k := 2) (n := 10)).symm
  | clogKlog => exact beq_iff_eq.trans (and_field_eq_zero (k := 12) (n := 4)).symm
  | raRb =>
    rw [Layout.mask, and_two_fields_eq_zero (k := 20) (n := 4) (l := 0) (m := 12) (by decide)]
    simp [Layout.clear, bits_eq]
  | clog =>
    rw [Layout.mask, and_two_fields_eq_zero (k := 12) (n := 4) (l := 0) (m := 6) (by decide)]
    simp [Layout.clear, bits_eq]
  | imm20 | idx16 => simp [Layout.clear, Layout.mask]

/-- A written word has its opcode and reserved fields 0, and its layout reads its command back. -/
theorem read_of_writes (ho : opc < 256) (h : l.Writes opc i w) :
    bits w 31 24 = opc ∧ l.clear w = true ∧ l.read w = i := by
  cases h with
  | bare hw =>
    obtain ⟨hopc, hrd, hra, hrb, hfn⟩ :=
      fields_of_formatR (rd := 0) (ra := 0) (rb := 0) ho (by decide) hw
    simp [Layout.clear, Layout.read, bits_23_0, *]
  | rd hw =>
    obtain ⟨hopc, hrd, hra, hrb, hfn⟩ := fields_of_formatR (ra := 0) (rb := 0) ho (by decide) hw
    simp [Layout.clear, Layout.read, bits_19_0, *]
  | rdRa hw =>
    obtain ⟨hopc, hrd, hra, hrb, hfn⟩ := fields_of_formatR (rb := 0) ho (by decide) hw
    simp [Layout.clear, Layout.read, bits_15_0, *]
  | raRb hw =>
    obtain ⟨hopc, hrd, hra, hrb, hfn⟩ := fields_of_formatR (rd := 0) ho (by decide) hw
    simp [Layout.clear, Layout.read, ← fieldRd_val, *]
  | rdRaRb hw =>
    obtain ⟨hopc, hrd, hra, hrb, hfn⟩ := fields_of_formatR ho (by decide) hw
    simp [Layout.clear, Layout.read, *]
  | @strat _ _ _ _ _ st hw =>
    have hst := Laws.stratCode_lt st
    obtain ⟨hopc, hrd, hra, hrb, hfn⟩ := fields_of_formatR ho (by omega) hw
    have hcode : bits w 1 0 = st.code := by rw [bits_1_0, hfn]; omega
    simp [Layout.clear, Layout.read, bits_11_2, fieldStrat_eq hcode, *]
  | clog hk hw =>
    obtain ⟨hopc, hrd, hra, hrb, hfn⟩ := fields_of_formatR (rb := 0) ho (by omega) hw
    simp [Layout.clear, Layout.read, ← fieldRb_val, bits_11_6, bits_5_0, *]
  | @clogKlog _ _ k l _ _ hk hl hw =>
    obtain ⟨hopc, hrd, hra, hrb, hfn⟩ := fields_of_formatR (rb := 0) ho (by omega) hw
    have hclog : bits w 11 6 = k := by rw [bits_11_6]; omega
    have hklog : bits w 5 0 = l := by rw [bits_5_0]; omega
    simp [Layout.clear, Layout.read, ← fieldRb_val, *]
  | imm20 hn hw =>
    obtain ⟨hopc, hrd, himm⟩ := fields_of_formatI ho hn hw
    exact ⟨hopc, rfl, by rw [Layout.read, hrd, himm]⟩
  | idx16 hn hw =>
    obtain ⟨hopc, hrd, hra, hidx⟩ := fields_of_formatX ho hn hw
    exact ⟨hopc, rfl, by rw [Layout.read, hrd, hra, hidx]⟩

/-- A word with its reserved fields 0 is what its layout writes for the operands it reads. -/
theorem writes_read (hc : l.clear w = true) : l.Writes (bits w 31 24) (l.read w) w := by
  have hw := formatR_fields w
  cases l with
  | bare i =>
    have h0 : fieldRd w = 0 ∧ fieldRa w = 0 ∧ fieldRb w = 0 ∧ bits w 11 0 = 0 := by
      simpa [Layout.clear, bits_23_0] using hc
    exact .bare (by simpa [h0] using hw)
  | rd f =>
    have h0 : fieldRa w = 0 ∧ fieldRb w = 0 ∧ bits w 11 0 = 0 := by
      simpa [Layout.clear, bits_19_0] using hc
    exact .rd (by simpa [h0] using hw)
  | rdRa f =>
    have h0 : fieldRb w = 0 ∧ bits w 11 0 = 0 := by simpa [Layout.clear, bits_15_0] using hc
    exact .rdRa (by simpa [h0] using hw)
  | raRb f =>
    have h0 : fieldRd w = 0 ∧ bits w 11 0 = 0 := by
      simpa [Layout.clear, ← fieldRd_val] using hc
    exact .raRb (by simpa [h0] using hw)
  | rdRaRb f =>
    have h0 : bits w 11 0 = 0 := by simpa [Layout.clear] using hc
    exact .rdRaRb (by simpa [h0] using hw)
  | strat f =>
    have h0 : bits w 11 2 = 0 := by simpa [Layout.clear] using hc
    have hfn : bits w 11 0 = (fieldStrat w).code := by
      rw [fieldStrat_code]
      have := bits_11_2 w
      have := bits_1_0 w
      omega
    exact .strat (hfn ▸ hw)
  | clog f =>
    obtain ⟨hrb, h0⟩ : fieldRb w = 0 ∧ bits w 5 0 = 0 := by
      simpa [Layout.clear, ← fieldRb_val] using hc
    have hfn : bits w 11 0 = bits w 11 6 * 2 ^ 6 := by
      have := bits_11_6 w
      have := bits_5_0 w
      omega
    rw [hrb, hfn] at hw
    exact .clog (Nat.mod_lt _ (by decide)) hw
  | clogKlog f =>
    have hrb : fieldRb w = 0 := by simpa [Layout.clear, ← fieldRb_val] using hc
    have hfn : bits w 11 0 = bits w 11 6 * 2 ^ 6 + bits w 5 0 := by
      have := bits_11_6 w
      have := bits_5_0 w
      omega
    rw [hrb, hfn] at hw
    exact .clogKlog (Nat.mod_lt _ (by decide)) (Nat.mod_lt _ (by decide)) hw
  | imm20 f => exact .imm20 (Nat.mod_lt _ (by decide)) (formatI_fields w)
  | idx16 f => exact .idx16 (Nat.mod_lt _ (by decide)) (formatX_fields w)

/-! ### Decoder and encoder -/

theorem decode_of_layoutOf_none (h : layoutOf (bits w 31 24) = none) :
    decode w = .error .illegalOpcode := by
  rw [decode_eq, h]

theorem decode_of_clear (hl : layoutOf (bits w 31 24) = some l) (hc : l.clear w = true) :
    decode w = .ok (l.read w) := by
  simp [decode_eq, hl, ifReserved, hc]

theorem decode_of_not_clear (hl : layoutOf (bits w 31 24) = some l) (hc : l.clear w = false) :
    decode w = .error .illegalField := by
  simp [decode_eq, hl, ifReserved, hc]

/-- Everything the decoder can answer. -/
theorem layoutOf_of_decode (h : decode w = .ok i) :
    ∃ l, layoutOf (bits w 31 24) = some l ∧ l.clear w = true ∧ l.read w = i := by
  cases hl : layoutOf (bits w 31 24) with
  | none => cases h.symm.trans (decode_of_layoutOf_none hl)
  | some l =>
    cases hc : l.clear w with
    | false => cases h.symm.trans (decode_of_not_clear hl hc)
    | true => exact ⟨l, rfl, hc, Except.ok.inj ((decode_of_clear hl hc).symm.trans h)⟩

/-- Settles O5: the layout that writes the command reads it back. -/
theorem decodeOfEncode : Obligations.DecodeOfEncode := by
  intro i hi
  obtain ⟨opc, l, hw, hl, ho⟩ := exists_writes_encode hi
  obtain ⟨hopc, hc, hr⟩ := read_of_writes ho hw
  rw [decode_of_clear (hopc ▸ hl) hc, hr]

/-- Settles O6: what the layout reads from a word with its reserved fields 0, it writes back. -/
theorem encodeOfDecode : Obligations.EncodeOfDecode := by
  intro w i h
  obtain ⟨l, hl, hc, rfl⟩ := layoutOf_of_decode h
  exact encode_of_writes hl (writes_read hc)

theorem decode_of_encode_eq (hi : i.wellFormed = true) (h : encode i = w) : decode w = .ok i :=
  h ▸ decodeOfEncode i hi

/-- Settles O4: each example word is the encoding of its well-formed command. -/
theorem exampleWordsDecode : Obligations.ExampleWordsDecode := by
  refine ⟨?_, ?_, ?_, ?_, ?_, ?_, ?_, ?_, ?_, ?_, ?_, ?_⟩
  all_goals exact decode_of_encode_eq rfl rfl

/-- The masked bits of the word itself, as R97's table has them. -/
theorem and_ofNat_mask_eq_zero (w : Word) (l : Layout) :
    w &&& BitVec.ofNat 32 l.mask = 0 ↔ l.clear w = true := by
  have hm : l.mask < 2 ^ 32 := by cases l <;> simp [Layout.mask]
  rw [clear_iff_mask, ← BitVec.toNat_inj, BitVec.toNat_and, BitVec.toNat_ofNat,
    Nat.mod_eq_of_lt hm]
  rfl

end Sys2Proof
end

section
/-! The errors found before a command runs (30_encoding.md R97, R98, R100; 60_exceptions.md R303):
the word's own, then the range checks. -/

namespace Sys2Proof.Machine

variable {s : State} {es : List Event}

/-- A word that is no command completes with its error and writes nothing (R97, R98). -/
theorem step_of_decode_error (hb : s.busy = true) (hu : s.UnitStepNext es) {e : DecodeError}
    (h : decode s.curcmd = .error e) :
    step s = .next (State.failed { s with inputs := es } (decodeErrorCode e)) := by
  rw [step_of_unitStepNext hu, unitStep_busy (s := { s with inputs := es }) hb,
    runWord_error (s := { s with inputs := es }) h, complete_error _ (by cases e <;> decide)]

/-- Settles O7: an unassigned opcode has no layout, and the mask of an assigned one is the reserved
fields of its layout. -/
theorem wordErrorsComplete : Obligations.WordErrorsComplete := by
  intro s es hb hu
  refine ⟨fun ha => ?_, fun ha => ?_⟩
  · exact step_of_decode_error hb hu (decode_of_layoutOf_none (layoutOf_eq_none_iff.mpr ha))
  · obtain ⟨l, hl⟩ := Option.ne_none_iff_exists'.mp fun hn => layoutOf_eq_none_iff.mp hn ha
    refine ⟨l.mask, reservedMask_of_layoutOf hl, fun hm => ?_, fun hm => ?_⟩
    · have hc : l.clear s.curcmd = false := by
        rwa [Ne, and_ofNat_mask_eq_zero, Bool.not_eq_true] at hm
      exact step_of_decode_error hb hu (decode_of_not_clear hl hc)
    · exact ⟨_, decode_of_clear hl ((and_ofNat_mask_eq_zero _ _).mp hm)⟩

/-- The range checks end a command with REG_RANGE or OPERAND_RANGE (R301). -/
theorem rangeError_ne_noError {i : Instr} {e : ErrCode} (h : rangeError s i = some e) :
    e ≠ .noError := by
  unfold rangeError at h
  repeat' split at h
  all_goals cases h <;> decide

/-- Settles O8: the frame every command runs in answers a failed range check before it looks at an
abort request. -/
theorem rangeErrorsComeBeforeAbort : Obligations.RangeErrorsComeBeforeAbort := by
  intro s i e h
  have hs : s.complete e = s.failed e := complete_error e (rangeError_ne_noError h)
  cases hk : isKeygen i with
  | false =>
    obtain ⟨r, hx, -⟩ := exec_shape i s hk
    rw [hx, h, runCommand_check, hs]
  | true =>
    cases i with
    | ykeygen rd => simp only [exec_keygen, h, hs]
    | _ => cases hk

end Sys2Proof.Machine
end

section
/-! The inverse of a nonzero residue (40_field.md R124): the model's power is it, and it is the only
one. -/

namespace Sys2Proof.Machine

variable {q a : Nat}

/-- The inverse of R124, stated on residues, is the inverse in `ZMod q`. -/
theorem mul_mod_eq_one_iff (hq : 1 < q) (x : Nat) :
    a * x % q = 1 ↔ (a : ZMod q) * (x : ZMod q) = 1 := by
  have h := ZMod.natCast_eq_natCast_iff' (a * x) 1 q
  rw [Nat.mod_eq_of_lt hq] at h
  rw [← h, Nat.cast_mul, Nat.cast_one]

theorem one_le_of_mul_mod_eq_one {x : Nat} (h : a * x % q = 1) : 1 ≤ x := by
  refine Nat.one_le_iff_ne_zero.mpr fun hx => ?_
  rw [hx, Nat.mul_zero, Nat.zero_mod] at h
  omega

/-- Two inverses of one residue are equal: `x = x * (a * y) = (x * a) * y = y`. -/
theorem eq_of_mul_mod_eq_one (hq : 1 < q) {x y : Nat} (hx : x < q) (hy : y < q)
    (hax : a * x % q = 1) (hay : a * y % q = 1) : x = y := by
  rw [mul_mod_eq_one_iff hq] at hax hay
  exact eq_of_cast_eq hx hy (left_inv_eq_right_inv (mul_comm (a : ZMod q) x ▸ hax) hay)

theorem fieldInv_spec (hq : q.Prime) (ha : a < q) (h0 : a ≠ 0) :
    1 ≤ fieldInv q a ∧ fieldInv q a < q ∧ a * fieldInv q a % q = 1 :=
  have h : a * fieldInv q a % q = 1 :=
    (mul_mod_eq_one_iff hq.one_lt _).mpr (cast_fieldInv hq a (cast_ne_zero_of_lt ha h0))
  ⟨one_le_of_mul_mod_eq_one h, fieldInv_lt hq.one_lt a, h⟩

end Sys2Proof.Machine
end

section
/-! The field unit's inverse, division and compare (40_field.md R124, R125, R128), and the ring
unit's compare (41_poly_ring.md R156). -/

namespace Sys2Proof.Machine

variable {s : State}

/-- A command without range checks whose operands may make it fail, when no abort is pending. -/
theorem runCommand_ite {p : Prop} [Decidable p] (e : ErrCode) (u : State) (ha : s.abreq = false)
    (he : e ≠ .noError) :
    s.runCommand none (if p then .error e else .ok u) =
      if p then s.failed e else u.complete .noError := by
  by_cases hp : p
  · rw [if_pos hp, if_pos hp, runCommand_error e ha, complete_error e he]
  · rw [if_neg hp, if_neg hp, runCommand_ok u ha]

theorem exec_finv (rd ra : SReg) (ha : s.abreq = false) :
    exec (.finv rd ra) s = .next (if s.getS ra = 0 then s.failed .zeroDivisor
      else s.finishedS rd (fieldInv s.cfg.q (s.getS ra))) :=
  congrArg Host.Outcome.next (runCommand_ite _ _ ha (by decide))

theorem exec_fdiv (rd ra rb : SReg) (ha : s.abreq = false) :
    exec (.fdiv rd ra rb) s = .next (if s.getS rb = 0 then s.failed .zeroDivisor
      else s.finishedS rd (s.getS ra * fieldInv s.cfg.q (s.getS rb) % s.cfg.q)) :=
  congrArg Host.Outcome.next (runCommand_ite _ _ ha (by decide))

/-- Settles O22: the value FINV writes is an inverse, and a residue has only one. -/
theorem finvResult : Obligations.FinvResult := by
  intro s rd ra hs ha
  have hq := hs.valid.q_prime
  refine ⟨fun h0 => ?_, fun h0 => ?_⟩
  · rw [exec_finv rd ra ha, if_pos h0]
  · obtain ⟨hpos, hlt, hmul⟩ := fieldInv_spec hq (hs.getS_lt ra) h0
    refine ⟨_, ⟨hpos, hlt, hmul⟩, fun y _ hy hay => ?_, ?_⟩
    · exact eq_of_mul_mod_eq_one hq.one_lt hy hlt hay hmul
    · rw [exec_finv rd ra ha, if_neg h0]

/-- Settles O23: the product is with the divisor's inverse, and only the divisor is tested. -/
theorem fdivResult : Obligations.FdivResult := by
  intro s rd ra rb hs ha
  refine ⟨fun h0 => ?_, fun h0 => ?_⟩
  · rw [exec_fdiv rd ra rb ha, if_pos h0]
  · refine ⟨_, fieldInv_spec hs.valid.q_prime (hs.getS_lt rb) h0, ?_⟩
    rw [exec_fdiv rd ra rb ha, if_neg h0]

/-- Stored values, canonical or not, are equal when their lengths and coefficients are (R156). -/
theorem poly_eq_iff (a b : Poly) :
    a = b ↔ a.length = b.length ∧ ∀ i < a.length, coef a i = coef b i := by
  refine ⟨fun h => h ▸ ⟨rfl, fun _ _ => rfl⟩, fun ⟨hl, hc⟩ => ?_⟩
  refine List.ext_getElem hl fun i ha hb => ?_
  simpa [coef, ha, hb] using hc i ha

/-- Both compares are a write of EQ (10_state.md R26). -/
theorem runCommand_setEq (b : Bool) (ha : s.abreq = false) :
    s.runCommand none (.ok (s.setEq b)) = { s.finished with eq := b } :=
  runCommand_ok _ ha

theorem exec_feq (ra rb : SReg) (ha : s.abreq = false) :
    exec (.feq ra rb) s = .next { s.finished with eq := s.getS ra == s.getS rb } :=
  congrArg Host.Outcome.next (runCommand_setEq _ ha)

theorem exec_peq (ra rb : PReg) (ha : s.abreq = false) :
    exec (.peq ra rb) s = .next { s.finished with eq := s.getP ra == s.getP rb } :=
  congrArg Host.Outcome.next (runCommand_setEq _ ha)

/-- Settles O24: each compare writes EQ, and equal lists are equal in length and coefficients. -/
theorem compareResults : Obligations.CompareResults := by
  intro s a b x y ha
  refine ⟨?_, ?_⟩
  · rw [exec_feq a b ha, beq_eq_decide]
  · rw [exec_peq x y ha, beq_eq_decide, decide_eq_decide.mpr (poly_eq_iff _ _)]

end Sys2Proof.Machine
end

section
/-! The ring unit (41_poly_ring.md R150 to R164): the value each command writes, coefficient by
coefficient, the registers it goes to, and that the linear operations commute with reduction. -/

namespace Sys2Proof.Machine

variable {s : State}

/-! ### Commands that pass their checks -/

/-- A command that passes its range checks, sees no abort request and has no error of its own
completes with what it wrote (60_exceptions.md R313). -/
theorem exec_of_ok {i : Instr} {u : State}
    (hx : exec i s = .next (s.runCommand (rangeError s i) (.ok u)))
    (hr : rangeError s i = none) (ha : s.abreq = false) :
    exec i s = .next (u.complete .noError) := by
  rw [hx, hr, runCommand_ok u ha]

theorem polyResult_eq (rd : PReg) (v : Poly) (g : Tag) (ha : s.abreq = false) :
    s.polyResult rd v g = .next (s.finishedP rd v g) :=
  congrArg Host.Outcome.next (runCommand_ok _ ha)

/-- A write of a value without its tag is one that writes the tag it had (R155). -/
theorem setP_complete (r : PReg) (v : Poly) :
    (s.setP r v).complete .noError = s.finishedP r v (s.getTag r) := by
  have htag : s.tag.set r (s.getTag r) = s.tag := Vector.set_getElem_self _
  rw [State.finishedP, htag]
  rfl

theorem rangeError_psplit {rd ra : PReg} {clog : Nat} (hrd : rd.val ≠ 15) (hc : 1 ≤ clog)
    (hcap : 2 ^ clog ≤ s.cfg.cap) (hl : (s.getP ra).length ≤ 2 ^ clog) :
    rangeError s (.psplit rd ra clog) = none := by
  rw [rangeError, if_neg hrd, if_neg (by omega)]

theorem rangeError_psplitk {rd ra : PReg} {clog klog : Nat} (hrd : rd.val + 2 ^ klog ≤ 16)
    (hk : klog ≤ clog) (hcap : 2 ^ clog ≤ s.cfg.cap) (hl : (s.getP ra).length ≤ 2 ^ clog) :
    rangeError s (.psplitk rd ra clog klog) = none := by
  rw [rangeError, if_neg (by omega), if_neg (by omega)]

/-! ### Constructors, copy and single coefficients -/

theorem mono_eq (k : Nat) : mono k = List.replicate k 0 ++ [1] :=
  canon_eq_self (by simp [isCanon])

/-- Settles O25: each constructor writes a fixed value, which for PMONO is already canonical. -/
theorem constructorResults : Obligations.ConstructorResults := by
  intro s rd ra k ha
  refine ⟨polyResult_eq rd [] .plain ha, polyResult_eq rd [1] .plain ha, fun hk => ?_,
    polyResult_eq rd (s.getP ra) (s.getTag ra) ha⟩
  rw [← mono_eq, ← setPT_complete]
  exact exec_of_ok rfl (if_neg hk.not_ge) ha

/-- Settles O26: an index below CAP passes the check, and PSETC's write leaves the tag alone. -/
theorem coefficientMoves : Obligations.CoefficientMoves := by
  intro s p r idx ha hidx
  refine ⟨?_, setCoef s.cfg.cap (s.getP p) idx (s.getS r), isCanon_setCoef _ _ _ _,
    fun j => coef_setCoef _ _ _ _ j hidx, ?_⟩
  · rw [← setS_complete]
    exact exec_of_ok rfl (if_neg hidx.not_ge) ha
  · rw [← setP_complete]
    exact exec_of_ok rfl (if_neg hidx.not_ge) ha

/-! ### Coefficient-wise operations -/

/-- The residue of a signed number, as the Euclidean remainder of 00_scope.md R5. -/
theorem natCast_residue {q : Nat} (hq : 0 < q) (v : Int) : (residue q v : Int) = v % q :=
  Int.toNat_of_nonneg (Int.emod_nonneg v (by omega))

/-- Settles O27: each command writes the value of a primitive, whose coefficients are known. -/
theorem coefficientwiseResults : Obligations.CoefficientwiseResults := by
  intro s rd ra rb rc ha hq
  refine ⟨⟨padd s.cfg.q (s.getP ra) (s.getP rb), isCanon_padd _ _ _, coef_padd _ _ _, ?_⟩,
    ⟨psub s.cfg.q (s.getP ra) (s.getP rb), isCanon_psub _ _ _, fun i => ?_, ?_⟩,
    ⟨pneg s.cfg.q (s.getP ra), isCanon_pneg _ _, fun i => ?_, ?_⟩,
    ⟨pscale s.cfg.q (s.getP ra) (s.getS rc), isCanon_pscale _ _ _, coef_pscale _ _ _, ?_⟩⟩
  · exact polyResult_eq rd _ .plain ha
  · rw [coef_psub]
    exact natCast_residue hq _
  · exact polyResult_eq rd _ .plain ha
  · rw [coef_pneg]
    exact natCast_residue hq _
  · exact polyResult_eq rd _ .plain ha
  · exact polyResult_eq rd _ .plain ha

/-! ### Reduction -/

theorem foldTerm_of_lt {n : Nat} (a : Poly) {i : Nat} (hi : i < n) : foldTerm n a i = coef a i := by
  rw [foldTerm, Nat.div_eq_of_lt hi, if_pos rfl]

theorem foldTerm_add_left {n : Nat} (a : Poly) {i : Nat} (hi : i < n) :
    foldTerm n a (n + i) = -(coef a (n + i) : Int) := by
  rw [foldTerm, Nat.add_div_left i (by omega), Nat.div_eq_of_lt hi, if_neg (by decide)]

/-- The fold may be summed to any bound past the stored length: the terms there are 0. -/
theorem foldSum_eq_sum_range (n : Nat) {a : Poly} {m : Nat} (hm : a.length ≤ m) (j : Nat) :
    foldSum n a j = ∑ i ∈ Finset.range m, if i % n = j then foldTerm n a i else 0 := by
  rw [foldSum_eq]
  refine Finset.sum_subset (Finset.range_mono hm) fun i _ hi => ?_
  have hzero : coef a i = 0 := coef_eq_zero a i (by simpa using hi)
  simp [foldTerm, hzero]

/-- A value that fits a register (10_state.md R21) folds once: its upper half is subtracted. -/
theorem foldSum_of_length_le {n : Nat} {a : Poly} (ha : a.length ≤ 2 * n) {j : Nat} (hj : j < n) :
    foldSum n a j = (coef a j : Int) - coef a (j + n) := by
  have lower : ∑ i ∈ Finset.range n, (if i % n = j then foldTerm n a i else 0) = coef a j := by
    rw [Finset.sum_eq_single_of_mem j (Finset.mem_range.mpr hj), if_pos (Nat.mod_eq_of_lt hj),
      foldTerm_of_lt a hj]
    intro i hi hij
    rw [if_neg (by rwa [Nat.mod_eq_of_lt (Finset.mem_range.mp hi)])]
  have upper : ∑ i ∈ Finset.range n, (if (n + i) % n = j then foldTerm n a (n + i) else 0) =
      -(coef a (n + j) : Int) := by
    rw [Finset.sum_eq_single_of_mem j (Finset.mem_range.mpr hj),
      if_pos (by rw [Nat.add_mod_left, Nat.mod_eq_of_lt hj]), foldTerm_add_left a hj]
    intro i hi hij
    rw [if_neg (by rwa [Nat.add_mod_left, Nat.mod_eq_of_lt (Finset.mem_range.mp hi)])]
  rw [foldSum_eq_sum_range n (by omega : a.length ≤ n + n), Finset.sum_range_add, lower, upper,
    Nat.add_comm n j]
  rfl

theorem coef_reduce_of_length_le {q n : Nat} (hq : 0 < q) {a : Poly} (ha : a.length ≤ 2 * n)
    {j : Nat} (hj : j < n) :
    (coef (reduce q n a) j : Int) = ((coef a j : Int) - coef a (j + n)) % q := by
  rw [coef_reduce, if_pos hj, natCast_residue hq, foldSum_of_length_le ha hj]

theorem ringOk_reduce {c : Config} (hc : c.Valid) (a : Poly) : RingOk c (reduce c.q c.n a) :=
  ⟨isCanon_reduce _ _ _, length_reduce_le _ _ _, coef_reduce_lt hc.q_pos a⟩

theorem PolyOk.inRange {c : Config} {a : Poly} (h : PolyOk c a) : InRange c.q a := by
  obtain ⟨hcanon, -, hlt⟩ := h
  exact ⟨hcanon, hlt⟩

/-- Settles O28: a register's value has at most two coefficients for each index of the result. -/
theorem preduceResult : Obligations.PreduceResult := by
  intro s rd ra hs ha
  have hc := hs.valid
  refine ⟨reduce s.cfg.q s.cfg.n (s.getP ra), ringOk_reduce hc _, fun j hj => ?_, fun hl => ?_,
    polyResult_eq rd _ _ ha⟩
  · exact coef_reduce_of_length_le hc.q_pos (hs.length_getP_le ra) hj
  · exact reduce_eq_self hc.one_lt_q s.cfg.n_pos (hs.getP_ok ra).inRange hl

theorem toRing_psub {q : Nat} (hq : 0 < q) (n : Nat) (a b : Poly) :
    toRing q n (psub q a b) = toRing q n a - toRing q n b := by
  simp [toRing, toPoly_psub hq]

theorem toRing_pneg {q : Nat} (hq : 0 < q) (n : Nat) (a : Poly) :
    toRing q n (pneg q a) = -toRing q n a := by
  simp [toRing, toPoly_pneg hq]

/-- The reduced form of a value is the one reduced value of its ring element. -/
theorem reduce_eq_of_toRing_eq {q n : Nat} (hq : 1 < q) (hn : 0 < n) {a b : Poly}
    (hb : InRange q b) (hl : b.length ≤ n) (h : toRing q n a = toRing q n b) : reduce q n a = b :=
  calc reduce q n a = reduce q n b := (reduce_eq_iff hq hn a b).mpr h
    _ = b := reduce_eq_self hq hn hb hl

/-- Settles O31: both sides are reduced values, and reducing the operands first does not change the
ring element. -/
theorem reductionCommutes : Obligations.ReductionCommutes := by
  intro c a b k hc
  have hq := hc.q_pos
  have hn := c.n_pos
  have la := length_reduce_le c.q c.n a
  have lb := length_reduce_le c.q c.n b
  refine ⟨reduce_eq_of_toRing_eq hc.one_lt_q hn (inRange_padd hq _ _)
      ((length_padd_le _ _ _).trans (max_le la lb)) ?_,
    reduce_eq_of_toRing_eq hc.one_lt_q hn (inRange_psub hq _ _)
      ((length_psub_le _ _ _).trans (max_le la lb)) ?_,
    reduce_eq_of_toRing_eq hc.one_lt_q hn (inRange_pneg hq _)
      ((length_pneg_le _ _).trans la) ?_,
    reduce_eq_of_toRing_eq hc.one_lt_q hn (inRange_pscale hq _ _)
      ((length_pscale_le _ _ _).trans la) ?_⟩
  · rw [toRing_padd, toRing_padd, toRing_reduce hq hn, toRing_reduce hq hn]
  · rw [toRing_psub hq, toRing_psub hq, toRing_reduce hq hn, toRing_reduce hq hn]
  · rw [toRing_pneg hq, toRing_pneg hq, toRing_reduce hq hn]
  · rw [toRing_pscale, toRing_pscale, toRing_reduce hq hn]

/-! ### Splitting -/

/-- The two halves of a value of at most `2 * h` coefficients make it up (R162). -/
theorem coef_eq_coef_halves {a : Poly} {h : Nat} (ha : a.length ≤ 2 * h) (i : Nat) :
    coef a i = if i < h then coef (piece a 0 h) i else coef (piece a h h) (i - h) := by
  by_cases hi : i < h
  · rw [if_pos hi, coef_piece, if_pos hi, Nat.zero_add]
  · rw [if_neg hi, coef_piece, Nat.add_sub_of_le (by omega)]
    by_cases hi' : i - h < h
    · rw [if_pos hi']
    · rw [if_neg hi', coef_eq_zero a i (by omega)]

/-- A group of two registers, named as they are (R162). -/
theorem setGroup_pair_complete {rd rd' : PReg} (h : rd'.val = rd.val + 1) (v w : Poly) :
    (s.setGroup rd [v, w]).complete .noError = { s.finished with
      p := (s.p.set rd v).set rd' w, tag := (s.tag.set rd .plain).set rd' .plain } := by
  have h0 : Fin.ofNat 16 rd.val = rd := Fin.ofNat_val_eq_self rd
  have h1 : Fin.ofNat 16 (rd.val + 1) = rd' := by rw [← h]; exact Fin.ofNat_val_eq_self rd'
  rw [State.setGroup, State.setGroup, State.setGroup, h0, h1]
  rfl

/-- Settles O29: the two pieces of half the chunk make up the source, whose length fits the chunk. -/
theorem psplitResult : Obligations.PsplitResult := by
  intro s rd rd' ra clog ha hrd hc hcap hl
  have hhalf : 2 ^ clog / 2 = 2 ^ (clog - 1) := Nat.pow_div hc (by decide)
  have hdouble : 2 ^ clog = 2 * 2 ^ (clog - 1) := (mul_pow_sub_one (by omega) 2).symm
  refine ⟨piece (s.getP ra) 0 (2 ^ (clog - 1)), piece (s.getP ra) (2 ^ (clog - 1)) (2 ^ (clog - 1)),
    isCanon_piece _ _ _, isCanon_piece _ _ _, length_piece_le _ _ _, length_piece_le _ _ _,
    coef_eq_coef_halves (hdouble ▸ hl), ?_⟩
  rw [← setGroup_pair_complete hrd, ← hhalf]
  refine exec_of_ok ?_ (rangeError_psplit (by omega) hc hcap hl) ha
  rw [← checkSplit_eq]
  rfl

/-- A command that writes a group changes the polynomial registers, their tags and the completion
record only. -/
theorem setGroup_complete_frame (b : Nat) (vs : List Poly) :
    (s.setGroup b vs).complete .noError = { s.finished with
      p := (s.setGroup b vs).p, tag := (s.setGroup b vs).tag } := by
  apply State.ext <;> simp [State.finished]

theorem setGroup_map_range_getP {b n : Nat} (f : Nat → Poly) (h : b + n ≤ 16) (x : PReg) :
    (s.setGroup b ((List.range n).map f)).getP x =
      if b ≤ x.val ∧ x.val < b + n then f (x.val - b) else s.getP x := by
  rw [State.setGroup_getP _ _ _ _ (by simpa using h), List.length_map, List.length_range]
  by_cases hx : b ≤ x.val ∧ x.val < b + n
  · have hi : x.val - b < n := by omega
    rw [if_pos hx, if_pos hx]
    simp [hi]
  · rw [if_neg hx, if_neg hx]

theorem setGroup_map_range_getTag {b n : Nat} (f : Nat → Poly) (h : b + n ≤ 16) (x : PReg) :
    (s.setGroup b ((List.range n).map f)).getTag x =
      if b ≤ x.val ∧ x.val < b + n then .plain else s.getTag x := by
  rw [State.setGroup_getTag _ _ _ _ (by simpa using h), List.length_map, List.length_range]

/-- PSPLITK's pieces of `2 ^ (clog - klog)` coefficients each (R163). -/
theorem exec_psplitk {rd ra : PReg} {clog klog : Nat} (ha : s.abreq = false)
    (hr : rangeError s (.psplitk rd ra clog klog) = none) (hk : klog ≤ clog) :
    exec (.psplitk rd ra clog klog) s = .next ((s.setGroup rd ((List.range (2 ^ klog)).map fun j =>
      piece (s.getP ra) (j * 2 ^ (clog - klog)) (2 ^ (clog - klog)))).complete .noError) := by
  rw [← Nat.pow_div hk (by decide)]
  refine exec_of_ok ?_ hr ha
  rw [← checkSplitK_eq]
  rfl

/-- Settles O30: register `rd + j` takes piece `j`, and a register outside the group its old
value. -/
theorem psplitkResult : Obligations.PsplitkResult := by
  intro s rd ra clog klog ha hrd hk hcap hl
  refine ⟨_, exec_psplitk ha (rangeError_psplitk hrd hk hcap hl) hk,
    setGroup_complete_frame _ _, fun r hr => ?_, fun r hr => ?_⟩
  · rw [State.complete_getP, State.complete_getTag, setGroup_map_range_getP _ hrd,
      setGroup_map_range_getTag _ hrd, if_pos hr, if_pos hr]
    exact ⟨isCanon_piece _ _ _, rfl, coef_piece _ _ _⟩
  · rw [State.complete_getP, State.complete_getTag, setGroup_map_range_getP _ hrd,
      setGroup_map_range_getTag _ hrd, if_neg hr, if_neg hr]
    exact ⟨rfl, rfl⟩

end Sys2Proof.Machine
end

section
/-! What a valid configuration says of FLATK (00_scope.md R2). -/

namespace Sys2Proof

theorem Config.Valid.flatk_le_logN {c : Config} (h : c.Valid) : c.flatk ≤ c.logN := by
  obtain ⟨-, -, -, -, -, -, hk, -⟩ := h
  exact hk

end Sys2Proof
end

section
/-! The ring product (42_multiply.md R200, R203 to R206): every strategy computes it, and its
coefficients are the negacyclic convolution of the operands'. -/

namespace Sys2Proof.Machine

variable {c : Config}

/-! ### The strategies -/

/-- A product computed as a polynomial, in whatever way, folds to the ring product. -/
theorem reduce_eq_ringmul (hc : c.Valid) {z a b : Poly}
    (hz : toPoly c.q z = toPoly c.q (reduce c.q c.n a) * toPoly c.q (reduce c.q c.n b)) :
    reduce c.q c.n z = ringmul c.q c.n a b := by
  refine (reduce_eq_iff hc.one_lt_q c.n_pos _ _).mpr ?_
  rw [toRing, toRing, hz, toPoly_full]

/-- Settles O33: before their last fold all three strategies hold the product of the reduced
operands, which the two Karatsuba strategies can take apart since they fit `N` coefficients. -/
theorem strategiesAgree : Obligations.StrategiesAgree := by
  intro c st a b hc
  have ha : (reduce c.q c.n a).length ≤ 2 ^ c.logN := length_reduce_le _ _ _
  have hb : (reduce c.q c.n b).length ≤ 2 ^ c.logN := length_reduce_le _ _ _
  cases st with
  | naive => rfl
  | rkara => exact reduce_eq_ringmul hc (toPoly_kara hc.q_pos c.kmin c.logN _ _ ha hb)
  | fkara =>
    exact reduce_eq_ringmul hc (toPoly_fkara hc.q_pos c.flatk c.logN hc.flatk_le_logN _ _ ha hb)

/-- In a valid configuration no product tells the strategies apart (42_multiply.md R203). -/
theorem ringProduct_strat_eq (hc : c.Valid) (st st' : MulStrat) (a b : Poly) :
    ringProduct st c a b = ringProduct st' c a b :=
  (strategiesAgree c st a b hc).trans (strategiesAgree c st' a b hc).symm

/-! ### Convolution -/

/-- The convolution sum may run over the first operand's coefficients alone. -/
theorem convolution_eq_sum_range {a : Poly} {n : Nat} (ha : a.length ≤ n) (b : Poly) (k : Nat) :
    convolution a b k =
      ∑ i ∈ Finset.range n, if i ≤ k then coef a i * coef b (k - i) else 0 := by
  rw [convolution, list_sum_range, ← Finset.sum_filter]
  have hsub : (Finset.range n).filter (· ≤ k) ⊆ Finset.range (k + 1) := fun i hi => by
    simp only [Finset.mem_filter, Finset.mem_range] at hi ⊢
    omega
  refine (Finset.sum_subset hsub fun i hi hn => ?_).symm
  simp only [Finset.mem_filter, Finset.mem_range] at hi hn
  rw [coef_eq_zero a i (by omega), Nat.zero_mul]

theorem intMul_eq_sum_range (n : Nat) (a b : Nat → Int) (j : Nat) :
    intMul n a b j = ∑ i ∈ Finset.range n,
      if i ≤ j then a i * b (j - i) else -(a i * b (n + j - i)) := list_sum_range n _

/-- For operands of degree below `n`, the lower half of the full product minus its upper half is
the negacyclic convolution: each operand index gives to exactly one of the two. -/
theorem convolution_sub_eq_intMul {n : Nat} {a b : Poly} (ha : a.length ≤ n) (hb : b.length ≤ n)
    (j : Nat) :
    (convolution a b j : Int) - convolution a b (j + n) =
      intMul n (fun i => (coef a i : Int)) (fun i => (coef b i : Int)) j := by
  rw [intMul_eq_sum_range, convolution_eq_sum_range ha, convolution_eq_sum_range ha]
  push_cast
  rw [← Finset.sum_sub_distrib]
  refine Finset.sum_congr rfl fun i hi => ?_
  have hin : i ≤ j + n := by have := Finset.mem_range.mp hi; omega
  by_cases hij : i ≤ j
  · rw [if_pos hij, if_pos hij, if_pos hin, coef_eq_zero b (j + n - i) (by omega)]
    simp
  · rw [if_neg hij, if_neg hij, if_pos hin, Nat.add_comm j n]
    simp

/-- Each coefficient of a ring product of reduced operands (42_multiply.md R200). -/
theorem coef_reduce_full {q n : Nat} (hq : 0 < q) {a b : Poly} (ha : a.length ≤ n)
    (hb : b.length ≤ n) {j : Nat} (hj : j < n) :
    (coef (reduce q n (full q a b)) j : Int) =
      intMul n (fun i => (coef a i : Int)) (fun i => (coef b i : Int)) j % q := by
  have hl : (full q a b).length ≤ 2 * n := (length_full_le q a b).trans (by omega)
  rw [coef_reduce_of_length_le hq hl hj, coef_full, coef_full, Int.natCast_mod, Int.natCast_mod,
    ← Int.sub_emod, convolution_sub_eq_intMul ha hb]

/-! ### Monomials -/

/-- Multiplying by `X^k` shifts up by `k`; what passes the top comes back negated. -/
theorem intMul_mono {n k j : Nat} (hk : k < n) (hj : j < n) (f : Nat → Int) :
    intMul n f (fun i => (coef (mono k) i : Int)) j =
      if k ≤ j then f (j - k) else -f (n + j - k) := by
  rw [intMul_eq_sum_range]
  have hother : ∀ i, (i ≤ j → j - i ≠ k) → (¬ i ≤ j → n + j - i ≠ k) →
      (if i ≤ j then f i * coef (mono k) (j - i) else -(f i * coef (mono k) (n + j - i))) = 0 := by
    intro i hlow hhigh
    by_cases hij : i ≤ j
    · rw [if_pos hij, coef_mono, if_neg (hlow hij)]
      simp
    · rw [if_neg hij, coef_mono, if_neg (hhigh hij)]
      simp
  by_cases hkj : k ≤ j
  · rw [if_pos hkj, Finset.sum_eq_single_of_mem (j - k) (Finset.mem_range.mpr (by omega)),
      if_pos (by omega), coef_mono, if_pos (by omega)]
    · simp
    · intro i hi hne
      have := Finset.mem_range.mp hi
      exact hother i (by omega) (by omega)
  · rw [if_neg hkj, Finset.sum_eq_single_of_mem (n + j - k) (Finset.mem_range.mpr (by omega)),
      if_neg (by omega), coef_mono, if_pos (by omega)]
    · simp
    · intro i hi hne
      have := Finset.mem_range.mp hi
      exact hother i (by omega) (by omega)

theorem toPoly_singleton (q x : Nat) : toPoly q [x] = Polynomial.C (x : ZMod q) := by
  simp [toPoly]

/-- `q - 1` is `-1` in the ring (42_multiply.md R209). -/
theorem toRing_neg_one {q : Nat} (hq : 0 < q) (n : Nat) : toRing q n [q - 1] = -1 := by
  rw [toRing, toPoly_singleton, Nat.cast_pred hq, ZMod.natCast_self]
  simp

theorem toRing_mono (q n k : Nat) :
    toRing q n (mono k) = Ideal.Quotient.mk _ (Polynomial.X ^ k) := by
  rw [toRing, toPoly_mono]

theorem inRange_neg_one {q : Nat} (hq : 1 < q) : InRange q [q - 1] := by
  refine ⟨?_, fun i => ?_⟩
  · simp [isCanon]; omega
  · cases i <;> simp <;> omega

/-- The product of a reduced value with `X^k`, coefficient by coefficient (42_multiply.md R208). -/
theorem coef_ringmul_mono {q n : Nat} (hq : 1 < q) {p : Poly} (hp : InRange q p)
    (hl : p.length ≤ n) {k : Nat} (hk : k < n) {j : Nat} (hj : j < n) :
    (coef (ringmul q n p (mono k)) j : Int) =
      (if k ≤ j then (coef p (j - k) : Int) else -(coef p (n + j - k) : Int)) % q := by
  have hm : (mono k).length ≤ n := (length_mono k).trans_le hk
  rw [ringmul, reduce_eq_self hq (by omega) hp hl,
    reduce_eq_self hq (by omega) (inRange_mono hq k) hm, coef_reduce_full (by omega) hl hm hj,
    intMul_mono hk hj]

/-- `X^i · X^(n-i)` is `X^n`, which is `-1` in the ring, at both ends of the range too
(42_multiply.md R209). -/
theorem ringmul_mono_mono {q n : Nat} (hq : 1 < q) (hn : 0 < n) {i : Nat} (hi : i ≤ n) :
    ringmul q n (mono i) (mono (n - i)) = [q - 1] := by
  refine toRing_inj hq hn (isCanon_ringmul _ _ _ _) (inRange_neg_one hq).canon
    (length_ringmul_le _ _ _ _) hn (inRange_ringmul (by omega) _ _ _).lt (inRange_neg_one hq).lt ?_
  rw [toRing_ringmul (by omega) hn, toRing_mono, toRing_mono, ← map_mul, ← pow_add,
    Nat.add_sub_of_le hi, mk_X_pow, toRing_neg_one (by omega)]

theorem RingOk.inRange {a : Poly} (h : RingOk c a) : InRange c.q a := by
  obtain ⟨hcanon, -, hlt⟩ := h
  exact ⟨hcanon, hlt⟩

/-- Settles O36: `X^(N-1)` is one of the monomials below `X^N`, whose shifts are known, and its top
index takes no sign; `X^N` itself is `-1`. -/
theorem cyclotomicWraparound : Obligations.CyclotomicWraparound := by
  intro c p hc hp
  have hn := c.n_pos
  have hq := hc.one_lt_q
  have hl : p.length ≤ c.n := by obtain ⟨-, hl, -⟩ := hp; exact hl
  refine ⟨fun i hi => ?_, ?_, fun i hi => ringmul_mono_mono hq hn hi⟩
  · rw [coef_ringmul_mono hq hp.inRange hl (by omega) (by omega), if_neg (by omega),
      show c.n + i - (c.n - 1) = i + 1 by omega]
  · have h := coef_ringmul_mono hq hp.inRange hl (by omega : c.n - 1 < c.n)
      (by omega : c.n - 1 < c.n)
    rw [if_pos le_rfl, Nat.sub_self, ← Int.natCast_mod, Nat.mod_eq_of_lt (hp.inRange.lt 0)] at h
    exact_mod_cast h

end Sys2Proof.Machine
end

section
/-! The multiplier commands (42_multiply.md R200 to R202): the value each one writes, and PMULF's
capacity error. -/

namespace Sys2Proof.Machine

variable {s : State}

theorem exec_pmul (rd ra rb : PReg) (strat : Strat) (ha : s.abreq = false) :
    exec (.pmul rd ra rb strat) s = .next (s.finishedP rd
      (ringProduct (selectStrat strat s.curstrat) s.cfg (s.getP ra) (s.getP rb)) .plain) :=
  polyResult_eq rd _ .plain ha

/-- Settles O34: by O33 the value is that of NAIVE, the fold of the full product. -/
theorem pmulIsRingProduct : Obligations.PmulIsRingProduct := by
  intro s rd ra rb strat hs ha
  have hc := hs.valid
  refine ⟨ringmul s.cfg.q s.cfg.n (s.getP ra) (s.getP rb), ringOk_reduce hc _, rfl,
    fun j hj => ?_, ?_⟩
  · exact coef_reduce_full hc.q_pos (length_reduce_le _ _ _) (length_reduce_le _ _ _) hj
  · rw [exec_pmul rd ra rb strat ha, strategiesAgree _ _ _ _ hc]

theorem exec_pmulf (rd ra rb : PReg) (ha : s.abreq = false) :
    exec (.pmulf rd ra rb) s = .next
      (if 0 < (s.getP ra).length ∧ 0 < (s.getP rb).length ∧
          (s.cfg.cap : Int) ≤ deg (s.getP ra) + deg (s.getP rb) then s.failed .capacity
        else s.finishedP rd (full s.cfg.q (s.getP ra) (s.getP rb)) .plain) :=
  congrArg Host.Outcome.next (runCommand_ite _ _ ha (by decide))

/-- PMULF's test of the degrees, as one of the lengths (42_multiply.md R201). -/
theorem exceeds_cap_iff (c : Config) (a b : Poly) :
    (0 < a.length ∧ 0 < b.length ∧ (c.cap : Int) ≤ deg a + deg b) ↔
      a ≠ [] ∧ b ≠ [] ∧ c.cap + 2 ≤ a.length + b.length := by
  rw [← List.length_pos_iff, ← List.length_pos_iff]
  unfold deg
  omega

/-- Over a prime modulus the top coefficients' product is not 0, so no length is lost
(42_multiply.md R201). -/
theorem length_full {q : Nat} (hq : q.Prime) {a b : Poly} (ha : InRange q a) (hb : InRange q b)
    (ha0 : a ≠ []) (hb0 : b ≠ []) : (full q a b).length = a.length + b.length - 1 := by
  have := Fact.mk hq
  have hpa : toPoly q a ≠ 0 := mt (ha.toPoly_eq_zero hq.pos).mp ha0
  have hpb : toPoly q b ≠ 0 := mt (hb.toPoly_eq_zero hq.pos).mp hb0
  have hfull := inRange_full hq.pos a b
  have hf0 : full q a b ≠ [] := mt (hfull.toPoly_eq_zero hq.pos).mpr (by
    rw [toPoly_full]
    exact mul_ne_zero hpa hpb)
  have hdeg := Polynomial.natDegree_mul hpa hpb
  rw [← toPoly_full, hfull.natDegree, ha.natDegree, hb.natDegree] at hdeg
  have := List.length_pos_iff.mpr ha0
  have := List.length_pos_iff.mpr hb0
  have := List.length_pos_iff.mpr hf0
  omega

/-- Settles O35: the two clauses are the two sides of the capacity test. -/
theorem pmulfResult : Obligations.PmulfResult := by
  intro s rd ra rb hs ha
  have hc := hs.valid
  rw [exec_pmulf rd ra rb ha]
  refine ⟨fun hbig => ?_, fun hfits => ?_⟩
  · rw [if_pos ((exceeds_cap_iff _ _ _).mpr hbig)]
  · have hnot : ¬ (0 < (s.getP ra).length ∧ 0 < (s.getP rb).length ∧
        (s.cfg.cap : Int) ≤ deg (s.getP ra) + deg (s.getP rb)) := fun h => by
      obtain ⟨ha0, hb0, hlen⟩ := (exceeds_cap_iff _ _ _).mp h
      obtain h | h | h := hfits
      · exact ha0 h
      · exact hb0 h
      · omega
    refine ⟨full s.cfg.q (s.getP ra) (s.getP rb), polyOk_full hc hnot, fun k => ?_,
      length_full hc.q_prime (hs.getP_ok ra).inRange (hs.getP_ok rb).inRange, by rw [if_neg hnot]⟩
    rw [coef_full, convolution, list_sum_range]

/-- Settles O32: the words are encodings of well-formed commands, and PMUL has no error. -/
theorem strategySelection : Obligations.StrategySelection := by
  refine ⟨⟨?_, ?_, ?_, ?_⟩, ⟨?_, ?_, ?_, ?_⟩, fun _ => ⟨rfl, rfl, rfl, rfl⟩,
    fun s rd ra rb strat _ ha => exec_pmul rd ra rb strat ha⟩
  all_goals exact decode_of_encode_eq rfl rfl

end Sys2Proof.Machine
end

section
/-! Two runs of one command that differ in the latched strategy (10_state.md R38): they stay equal
in everything else (42_multiply.md R203). -/

namespace Sys2Proof.Machine

variable {s : State} {st : MulStrat}

/-- `s` with another strategy latched. -/
def State.withStrat (s : State) (st : MulStrat) : State := { s with curstrat := st }

theorem withStrat_setGroup (st : MulStrat) (b : Nat) (vs : List Poly) (s : State) :
    (s.withStrat st).setGroup b vs = (s.setGroup b vs).withStrat st := by
  induction vs generalizing s b with
  | nil => rfl
  | cons v vs ih => exact ih (b + 1) (s.setPT (Fin.ofNat 16 b) v .plain)

/-- A command's result, with another strategy latched. -/
def resultWithStrat (st : MulStrat) (r : Except ErrCode State) : Except ErrCode State :=
  r.map (·.withStrat st)

theorem resultWithStrat_ite (st : MulStrat) {p : Prop} [Decidable p] (e : ErrCode) (u : State) :
    resultWithStrat st (if p then .error e else .ok u) =
      if p then .error e else .ok (u.withStrat st) :=
  apply_ite _ _ _ _

/-- The frame of R313 does not look at the strategy. -/
theorem withStrat_runCommand (st : MulStrat) (s : State) (c : Option ErrCode)
    (r : Except ErrCode State) :
    (s.withStrat st).runCommand c (resultWithStrat st r) = (s.runCommand c r).withStrat st := by
  cases c with
  | some e => rfl
  | none =>
    cases ha : s.abreq with
    | true => rw [runCommand_abort r ha]; exact runCommand_abort _ ha
    | false =>
      cases r with
      | error e => rw [runCommand_error e ha]; exact runCommand_error e ha
      | ok u => rw [runCommand_ok u ha]; exact runCommand_ok _ ha

/-- The command does the same whichever strategy is latched, but for the latch itself. -/
def IgnoresStrat (i : Instr) (s : State) (st : MulStrat) : Prop :=
  ∃ t, exec i s = .next t ∧ exec i (s.withStrat st) = .next (t.withStrat st)

/-- A command in the frame of R313 ignores the strategy when its result does. -/
theorem ignoresStrat_of_runCommand {i : Instr} {c : Option ErrCode} {r r' : Except ErrCode State}
    (hx : exec i s = .next (s.runCommand c r))
    (hx' : exec i (s.withStrat st) = .next ((s.withStrat st).runCommand c r'))
    (hr : r' = resultWithStrat st r) : IgnoresStrat i s st :=
  ⟨_, hx, by rw [hx', hr, withStrat_runCommand]⟩

theorem ignoresStrat_of_ok {i : Instr} {c : Option ErrCode} {u u' : State}
    (hx : exec i s = .next (s.runCommand c (.ok u)))
    (hx' : exec i (s.withStrat st) = .next ((s.withStrat st).runCommand c (.ok u')))
    (hu : u' = u.withStrat st) : IgnoresStrat i s st :=
  ignoresStrat_of_runCommand hx hx' (congrArg Except.ok hu)

/-- A command whose operands may make it fail instead. -/
theorem ignoresStrat_of_ite {i : Instr} {c : Option ErrCode} {p : Prop} [Decidable p] {e : ErrCode}
    {u : State}
    (hx : exec i s = .next (s.runCommand c (if p then .error e else .ok u)))
    (hx' : exec i (s.withStrat st) =
      .next ((s.withStrat st).runCommand c (if p then .error e else .ok (u.withStrat st)))) :
    IgnoresStrat i s st :=
  ignoresStrat_of_runCommand hx hx' (resultWithStrat_ite st e u).symm

/-- A pass of YKEYGEN uses the strategy in one place, the public key's product. -/
theorem withStrat_keygenPass (hc : s.cfg.Valid) (st : MulStrat) (rd : PReg) :
    (s.withStrat st).keygenPass rd = (s.keygenPass rd).withStrat st := by
  rcases hk : keyCandidate s.cfg (sampleG s.cfg s.oracle).1 with - | ⟨fi, sk, ski⟩
  · rw [keygenPass_of_none rd hk]
    exact keygenPass_of_none rd hk
  · have hpub : ∀ g, publicKey (s.withStrat st).curstrat (s.withStrat st).cfg g ski =
        publicKey s.curstrat s.cfg g ski :=
      fun g => congrArg (pscale s.cfg.q · s.cfg.t) (ringProduct_strat_eq hc _ _ g ski)
    rw [keygenPass_of_some rd hk, keygenPass_of_some (s := s.withStrat st) rd hk, hpub]
    exact congrArg (State.complete · .noError) (withStrat_setGroup st _ _ { s with
      kgcount := satInc s.kgcount, kgtries := satInc s.kgcount,
      oracle := (sampleG s.cfg (sampleG s.cfg s.oracle).2).2 })

theorem ignoresStrat_ykeygen (hc : s.cfg.Valid) (st : MulStrat) (rd : PReg) :
    IgnoresStrat (.ykeygen rd) s st := by
  refine ⟨_, rfl, congrArg Host.Outcome.next ?_⟩
  cases checkKeyGroup rd with
  | some e => rfl
  | none =>
    show (if s.abreq then _ else (s.withStrat st).keygenPass rd) =
      State.withStrat (if s.abreq then _ else _) st
    rw [withStrat_keygenPass hc]
    split <;> rfl

/-- PMUL, YMUL, YENC and YKEYGEN look at the strategy, and only for a product; no other command
looks at it. -/
theorem exec_ignoresStrat (hc : s.cfg.Valid) (st : MulStrat) (i : Instr) : IgnoresStrat i s st := by
  cases i with
  | finv rd ra => exact ignoresStrat_of_ite rfl rfl
  | fdiv rd ra rb => exact ignoresStrat_of_ite rfl rfl
  | pmulf rd ra rb => exact ignoresStrat_of_ite rfl rfl
  | pinv rd ra =>
    rcases hi : ringInverse s.cfg.q s.cfg.n (s.getP ra) with e | b
    · exact ignoresStrat_of_runCommand (exec_pinv_of_error rd hi) (exec_pinv_of_error rd hi) rfl
    · exact ignoresStrat_of_ok (exec_pinv_of_ok rd hi) (exec_pinv_of_ok rd hi) rfl
  | psplit rd ra k => exact ignoresStrat_of_ok rfl rfl (withStrat_setGroup _ _ _ _)
  | psplitk rd ra k l => exact ignoresStrat_of_ok rfl rfl (withStrat_setGroup _ _ _ _)
  | pmul rd ra rb field =>
    exact ignoresStrat_of_ok rfl rfl
      (congrArg ((s.withStrat st).setPT rd · .plain) (ringProduct_strat_eq hc _ _ _ _))
  | ymul rd ra rb field =>
    have hv := ringProduct_strat_eq hc (selectStrat field st) (selectStrat field s.curstrat)
    exact ignoresStrat_of_ok rfl rfl (congrArg (fun v => ((s.withStrat st).setPT rd v
      (tagMul (s.getTag ra) (s.getTag rb))).raiseDepthx _) (hv _ _))
  | yenc rd ra rb =>
    exact ignoresStrat_of_ok rfl rfl (congrArg (fun v => ((s.withStrat st).setPT rd
      (padd s.cfg.q (padd s.cfg.q v _) _) .ct1).withOracle _) (ringProduct_strat_eq hc _ _ _ _))
  | ykeygen rd => exact ignoresStrat_ykeygen hc st rd
  | _ => exact ignoresStrat_of_ok rfl rfl rfl

/-- Settles O16: the two runs end in the same state but for the strategy still latched. -/
theorem nothingDependsOnStrategy : Obligations.NothingDependsOnStrategy := by
  intro s t u st i hc ht hu
  obtain ⟨t', ht', hu'⟩ := exec_ignoresStrat hc st i
  cases ht'.symm.trans ht
  cases hu'.symm.trans hu
  rfl

end Sys2Proof.Machine
end

section
/-! Division with remainder and the Bezout invariant (43_inversion.md R231, R232), as equations
between register values. -/

namespace Sys2Proof.Machine

variable {c : Config} {q n : Nat}

theorem RingOk.length_le {a : Poly} (h : RingOk c a) : a.length ≤ c.n := by
  obtain ⟨-, hl, -⟩ := h
  exact hl

theorem deg_lt_deg_iff (a b : Poly) : deg a < deg b ↔ a.length < b.length := by
  unfold deg
  omega

/-- Settles O37: the equation holds between the polynomials, and both sides are canonical. -/
theorem divisionWithRemainder : Obligations.DivisionWithRemainder := by
  intro c u v hc hu hv hu_lt hv_lt hv0
  obtain ⟨-, -, hlen, heq⟩ := pdivmod_spec hc.q_prime u v ⟨hu, hu_lt⟩ ⟨hv, hv_lt⟩ hv0
  refine ⟨(inRange_padd hc.q_pos _ _).eq ⟨hu, hu_lt⟩ ?_, (deg_lt_deg_iff _ _).mpr hlen⟩
  rw [toPoly_padd, toPoly_full, heq]

/-- A Bezout equation between polynomials is one between the values that stand for them. -/
theorem padd_full_eq_of_bezout (hq : 1 < q) (hn : 0 < n) {a x y r : Poly} (hr : InRange q r)
    (h : modulus q n * toPoly q x + toPoly q a * toPoly q y = toPoly q r) :
    padd q (full q (cycloModulus n) x) (full q a y) = r := by
  obtain ⟨-, -, hmod⟩ := cycloModulus_spec hq hn
  refine (inRange_padd (by omega) _ _).eq hr ?_
  rw [toPoly_padd, toPoly_full, toPoly_full, hmod, h]

/-- Settles O38: the loop keeps `EeaInv`, which holds the equation of each triple. -/
theorem bezoutInvariant : Obligations.BezoutInvariant := by
  intro c a k hc ha
  have h := (EeaInv.start hc.one_lt_q c.n_pos a ha.inRange ha.length_le).loop hc.q_prime k
  exact ⟨padd_full_eq_of_bezout hc.one_lt_q c.n_pos h.gp h.prev,
    padd_full_eq_of_bezout hc.one_lt_q c.n_pos h.gc h.cur⟩

end Sys2Proof.Machine
end

section
/-! What `eea` answers (43_inversion.md R231): a greatest common divisor of the modulus and `a`, with
its Bezout coefficient. -/

namespace Sys2Proof.Machine

variable {q n : Nat} {a : Poly}

/-- The current remainder shortens at every pass, so a count as long as it lets the loop end. -/
theorem eeaLoop_rCur_eq_nil (hq : q.Prime) (fuel : Nat) {e : EeaState} (h : EeaInv q n a e)
    (hf : e.rCur.length ≤ fuel) : (eeaLoop q fuel e).rCur = [] := by
  induction fuel generalizing e with
  | zero => exact List.length_eq_zero_iff.mp (Nat.le_zero.mp hf)
  | succ fuel ih =>
    rw [eeaLoop]
    split
    · assumption
    · rename_i hne
      obtain ⟨hpass, hlt⟩ := h.pass hq a e hne
      exact ih hpass (by omega)

/-- `d` is a greatest common divisor of `X^n + 1` and `a`, and `a·y = d` in the ring. -/
structure EeaAnswer (q n : Nat) (a d y : Poly) : Prop where
  inRange : InRange q d
  ne_nil : d ≠ []
  length_le : d.length ≤ n + 1
  dvd_iff : ∀ f, f ∣ toPoly q d ↔ f ∣ modulus q n ∧ f ∣ toPoly q a
  bezout : toRing q n a * toRing q n y = toRing q n d

theorem eeaAnswer_eea (hq : q.Prime) (hn : 0 < n) (ha : InRange q a) (hl : a.length ≤ n) :
    EeaAnswer q n a (eea q n a).1 (eea q n a).2 := by
  have hstart := EeaInv.start hq.one_lt hn a ha hl
  have hend : (eeaLoop q a.length (eeaStart n a)).rCur = [] :=
    eeaLoop_rCur_eq_nil hq _ hstart le_rfl
  have h := hstart.loop hq a.length
  have hpos := h.l3
  have hlen := h.l2
  refine ⟨h.gp, List.ne_nil_of_length_pos (Nat.zero_lt_of_lt hpos), ?_, fun f => ?_, ?_⟩
  · show (eeaLoop q a.length (eeaStart n a)).rPrev.length ≤ n + 1
    omega
  · rw [← h.com f, hend, toPoly_nil, and_iff_left (dvd_zero f)]
    rfl
  · rw [toRing, toRing, ← map_mul, toRing, mk_eq_iff]
    exact ⟨-toPoly q (eeaLoop q a.length (eeaStart n a)).xPrev, by
      rw [eea, ← h.prev]
      ring⟩

end Sys2Proof.Machine
end

section
/-! Inverses in the ring (43_inversion.md R230, R233, R234): there is at most one, the elements that
have one share no factor with the modulus, and PINV's computation tells the three cases apart. -/

namespace Sys2Proof.Machine

variable {c : Config} {x b : Poly}

/-! ### Inverses -/

/-- Reduced values with the same ring element are the same. -/
theorem RingOk.eq_of_toRing_eq (hc : c.Valid) {b' : Poly} (hb : RingOk c b) (hb' : RingOk c b')
    (h : toRing c.q c.n b = toRing c.q c.n b') : b = b' :=
  toRing_inj hc.one_lt_q c.n_pos hb.inRange.canon hb'.inRange.canon hb.length_le hb'.length_le
    hb.inRange.lt hb'.inRange.lt h

theorem ringOk_one (hc : c.Valid) : RingOk c [1] :=
  ⟨(inRange_one hc.one_lt_q).canon, c.n_pos, (inRange_one hc.one_lt_q).lt⟩

theorem ringmul_eq_one_iff (hc : c.Valid) (x b : Poly) :
    ringmul c.q c.n x b = [1] ↔ toRing c.q c.n x * toRing c.q c.n b = 1 := by
  rw [← toRing_ringmul hc.q_pos c.n_pos, ← toRing_one]
  exact ⟨congrArg _, (ringOk_reduce hc _).eq_of_toRing_eq hc (ringOk_one hc)⟩

/-- Two inverses of one ring element are equal (R234): `b = b·(x·b') = (x·b)·b' = b'`. -/
theorem IsInverse.unique (hc : c.Valid) {b' : Poly} (h : IsInverse c x b)
    (h' : IsInverse c x b') : b = b' := by
  obtain ⟨hb, hxb⟩ := h
  obtain ⟨hb', hxb'⟩ := h'
  rw [ringmul_eq_one_iff hc] at hxb hxb'
  rw [mul_comm] at hxb
  exact hb.eq_of_toRing_eq hc hb' (left_inv_eq_right_inv hxb hxb')

/-! ### Shared factors -/

/-- `a` shares a factor of positive degree with the modulus (R234). -/
def SharesFactor (c : Config) (a : Poly) : Prop :=
  ∃ d u v : Poly, PolyOk c d ∧ PolyOk c u ∧ PolyOk c v ∧ 0 < deg d ∧ full c.q d u = a ∧
    full c.q d v = cycloModulus c.n

/-- A value that divides another as a polynomial has a cofactor no longer than it. -/
theorem exists_full_eq_of_dvd {q : Nat} (hq : q.Prime) {d a : Poly} (hd : InRange q d)
    (hd0 : d ≠ []) (ha : InRange q a) (h : toPoly q d ∣ toPoly q a) :
    ∃ u, InRange q u ∧ u.length ≤ a.length ∧ full q d u = a := by
  have := Fact.mk hq
  obtain ⟨hu, hr, hlt, heq⟩ := pdivmod_spec hq a d ha hd hd0
  set u := (pdivmod q a d).1
  set r := (pdivmod q a d).2
  have hr0 : r = [] := by
    by_contra hr0
    have hdvd : toPoly q d ∣ toPoly q r :=
      (dvd_add_right (dvd_mul_left _ _)).mp (heq ▸ h)
    have hle := Polynomial.natDegree_le_of_dvd hdvd (mt (hr.toPoly_eq_zero hq.pos).mp hr0)
    rw [hd.natDegree, hr.natDegree] at hle
    have := List.length_pos_iff.mpr hr0
    omega
  have hfull : full q d u = a := (inRange_full hq.pos _ _).eq ha (by
    rw [toPoly_full, ← heq, hr0, toPoly_nil, add_zero, mul_comm])
  refine ⟨u, hu, ?_, hfull⟩
  by_cases hu0 : u = []
  · rw [hu0]
    exact Nat.zero_le _
  · have hlen := length_full hq hd hu hd0 hu0
    have := List.length_pos_iff.mpr hd0
    rw [hfull] at hlen
    omega

/-- A greatest common divisor of positive degree is a shared factor. -/
theorem EeaAnswer.sharesFactor (hc : c.Valid) {a d y : Poly} (h : EeaAnswer c.q c.n a d y)
    (ha : InRange c.q a) (hl : a.length ≤ c.n) (hd : 0 < deg d) : SharesFactor c a := by
  obtain ⟨hm, hmlen, hmod⟩ := cycloModulus_spec hc.one_lt_q c.n_pos
  obtain ⟨hdm, hda⟩ := (h.dvd_iff _).mp dvd_rfl
  obtain ⟨u, hu, hul, hdu⟩ := exists_full_eq_of_dvd hc.q_prime h.inRange h.ne_nil ha hda
  obtain ⟨v, hv, hvl, hdv⟩ :=
    exists_full_eq_of_dvd hc.q_prime h.inRange h.ne_nil hm (hmod.symm ▸ hdm)
  have hcap := c.n_lt_cap
  have hlen := h.length_le
  exact ⟨d, u, v, h.inRange.polyOk (by omega), hu.polyOk (by omega), hv.polyOk (by omega), hd,
    hdu, hdv⟩

/-- A shared factor would divide `x·b - 1` and `x·b`, and so 1. -/
theorem IsInverse.not_sharesFactor (hc : c.Valid) (h : IsInverse c x b) :
    ¬ SharesFactor c (reduce c.q c.n x) := by
  have := Fact.mk hc.q_prime
  rintro ⟨d, u, v, hd, -, -, hdeg, hdu, hdv⟩
  obtain ⟨-, hxb⟩ := h
  obtain ⟨-, -, hmod⟩ := cycloModulus_spec hc.one_lt_q c.n_pos
  rw [ringmul_eq_one_iff hc, ← toRing_reduce hc.q_pos c.n_pos x, ← toRing_one, toRing, toRing,
    ← map_mul, toRing, mk_eq_iff, toPoly_one] at hxb
  have hdm : toPoly c.q d ∣ modulus c.q c.n := ⟨toPoly c.q v, by rw [← hmod, ← hdv, toPoly_full]⟩
  have hdx : toPoly c.q d ∣ toPoly c.q (reduce c.q c.n x) * toPoly c.q b :=
    Dvd.dvd.mul_right ⟨toPoly c.q u, by rw [← hdu, toPoly_full]⟩ _
  have hone : toPoly c.q d ∣ 1 := (dvd_sub_right hdx).mp (hdm.trans hxb)
  have hnat := Polynomial.natDegree_eq_zero_of_isUnit (isUnit_of_dvd_one hone)
  rw [hd.inRange.natDegree] at hnat
  unfold deg at hdeg
  omega

theorem IsInverse.reduce_ne_nil (h : IsInverse c x b) : reduce c.q c.n x ≠ [] := by
  intro hx
  obtain ⟨-, hxb⟩ := h
  have hcoef := congrArg (coef · 0) hxb
  simp [ringmul, hx, full, foldSum, residue] at hcoef

/-! ### PINV's computation -/

/-- A nonzero constant `a·y = d`, scaled by the inverse of its one coefficient, is 1. -/
theorem EeaAnswer.isInverse (hc : c.Valid) {d y : Poly}
    (h : EeaAnswer c.q c.n (reduce c.q c.n x) d y) (hy : y.length ≤ c.n) (hd : ¬ 0 < deg d) :
    IsInverse c x (pscale c.q y (fieldInv c.q (coef d 0))) := by
  have hscale := inRange_pscale hc.q_pos y (fieldInv c.q (coef d 0))
  refine ⟨⟨hscale.canon, (length_pscale_le _ _ _).trans hy, hscale.lt⟩, ?_⟩
  have hlen : d.length = 1 := by
    have := List.length_pos_iff.mpr h.ne_nil
    unfold deg at hd
    omega
  obtain ⟨d0, rfl⟩ := List.length_eq_one_iff.mp hlen
  have hd0 : (d0 : ZMod c.q) ≠ 0 :=
    cast_ne_zero_of_lt (h.inRange.lt 0) ((isCanon_iff _).mp h.inRange.canon h.ne_nil)
  have hinv := cast_fieldInv hc.q_prime d0 hd0
  rw [ringmul_eq_one_iff hc, ← toRing_reduce hc.q_pos c.n_pos x, toRing_pscale, ← mul_assoc,
    h.bezout, ← toRing_pscale, ← toRing_one, toRing, toRing, toPoly_pscale, toPoly_singleton,
    ← Polynomial.C_mul, coef_cons_zero, hinv, toPoly_one, Polynomial.C_1]

/-- Everything PINV's computation can answer, and when (R230, R233). -/
theorem ringInverse_cases (hc : c.Valid) (x : Poly) :
    (reduce c.q c.n x = [] ∧ ringInverse c.q c.n x = .error .zeroPolynomial) ∨
    (reduce c.q c.n x ≠ [] ∧ SharesFactor c (reduce c.q c.n x) ∧
      ringInverse c.q c.n x = .error .nonInvertible) ∨
    ∃ b, IsInverse c x b ∧ ringInverse c.q c.n x = .ok b := by
  have ha := inRange_reduce hc.q_pos c.n x
  have hl := length_reduce_le c.q c.n x
  have hans := eeaAnswer_eea hc.q_prime c.n_pos ha hl
  unfold ringInverse
  by_cases h0 : reduce c.q c.n x = []
  · exact .inl ⟨h0, if_pos h0⟩
  · by_cases hd : 0 < deg (eea c.q c.n (reduce c.q c.n x)).1
    · exact .inr (.inl ⟨h0, hans.sharesFactor hc ha hl hd, (if_neg h0).trans (if_pos hd)⟩)
    · exact .inr (.inr ⟨_, hans.isInverse hc (length_eea_le hc.q_prime c.n_pos ha hl) hd,
        (if_neg h0).trans (if_neg hd)⟩)

/-- PINV's computation answers exactly the inverse (R234). -/
theorem ringInverse_eq_ok_iff (hc : c.Valid) :
    ringInverse c.q c.n x = .ok b ↔ IsInverse c x b := by
  obtain ⟨h0, he⟩ | ⟨-, hs, he⟩ | ⟨b', hb', he⟩ := ringInverse_cases hc x
  · refine ⟨fun h => ?_, fun h => absurd h0 h.reduce_ne_nil⟩
    cases he.symm.trans h
  · refine ⟨fun h => ?_, fun h => absurd hs (h.not_sharesFactor hc)⟩
    cases he.symm.trans h
  · refine ⟨fun h => ?_, fun h => ?_⟩
    · cases he.symm.trans h
      exact hb'
    · rw [he, h.unique hc hb']

end Sys2Proof.Machine
end

section
/-! PINV (43_inversion.md R230, R234): its value and its two failures. -/

namespace Sys2Proof.Machine

variable {s : State}

theorem exec_pinv_failed (rd : PReg) {ra : PReg} {e : ErrCode} (ha : s.abreq = false)
    (he : e ≠ .noError) (h : ringInverse s.cfg.q s.cfg.n (s.getP ra) = .error e) :
    exec (.pinv rd ra) s = .next (s.failed e) := by
  rw [exec_pinv_of_error rd h, runCommand_error e ha, complete_error e he]

theorem exec_pinv_finished (rd : PReg) {ra : PReg} {b : Poly} (hc : s.cfg.Valid)
    (ha : s.abreq = false) (h : IsInverse s.cfg (s.getP ra) b) :
    exec (.pinv rd ra) s = .next (s.finishedP rd b .plain) := by
  rw [exec_pinv_of_ok rd ((ringInverse_eq_ok_iff hc).mpr h), runCommand_ok _ ha, setPT_complete]

/-- Settles O39: PINV's computation answers the inverse when there is one, and there is one only. -/
theorem pinvWritesTheInverse : Obligations.PinvWritesTheInverse := by
  intro s rd ra b hs ha hb hmul
  have hinv : IsInverse s.cfg (s.getP ra) b := ⟨hb, hmul⟩
  exact ⟨exec_pinv_finished rd hs.valid ha hinv,
    fun b' hb' hmul' => IsInverse.unique hs.valid ⟨hb', hmul'⟩ hinv⟩

/-- Settles O40: the three answers of PINV's computation exclude each other, since an invertible
element is not zero and shares no factor with the modulus. -/
theorem pinvFailures : Obligations.PinvFailures := by
  intro s rd ra hs ha
  have hc := hs.valid
  obtain ⟨h0, he⟩ | ⟨h0, hshared, he⟩ | ⟨b, hinv, -⟩ := ringInverse_cases hc (s.getP ra)
  · exact ⟨fun _ => exec_pinv_failed rd ha (by decide) he, fun h => absurd h0 h,
      fun h => absurd h0 h⟩
  · exact ⟨fun h => absurd h h0, fun _ _ => exec_pinv_failed rd ha (by decide) he,
      fun _ h => absurd hshared h⟩
  · have ⟨hb, hmul⟩ := hinv
    exact ⟨fun h => absurd h hinv.reduce_ne_nil,
      fun _ h => absurd h (hinv.not_sharesFactor hc),
      fun _ _ => ⟨b, hb, hmul, fun b' hb' hmul' => IsInverse.unique hc ⟨hb', hmul'⟩ hinv,
        exec_pinv_finished rd hc ha hinv⟩⟩

end Sys2Proof.Machine
end

section
/-! What a valid configuration says of GAUSS_TAIL (00_scope.md R2). -/

namespace Sys2Proof

theorem Config.Valid.two_gaussTail_lt_q {c : Config} (h : c.Valid) : 2 * c.gaussTail < c.q := by
  have hq := h.q_pos
  obtain ⟨-, -, -, -, ⟨-, htail⟩, -⟩ := h
  omega

end Sys2Proof
end

section
/-! Draws and samples (44_sampling.md R250 to R256): what the oracle's answers become, and the ring
elements they make up. -/

namespace Sys2Proof.Machine

variable {c : Config}

/-! ### Single draws -/

/-- An answer already in `[0, m)` is itself (R250). -/
theorem drawBelow_eq_toNat {m : Nat} {d : Int} (h0 : 0 ≤ d) (hm : d < m) :
    drawBelow m d = d.toNat := by
  rw [drawBelow, Int.emod_eq_of_lt h0 hm]

/-- An answer already in `[-GAUSS_TAIL, GAUSS_TAIL]` is itself (R250). -/
theorem drawG_eq_self {d : Int} (hl : -(c.gaussTail : Int) ≤ d) (hu : d ≤ c.gaussTail) :
    drawG c d = d := by
  rw [drawG, Int.emod_eq_of_lt (by omega) (by omega), Int.add_sub_cancel]

theorem gaussCoef_eq_residue {d : Int} (hl : -(c.gaussTail : Int) ≤ d) (hu : d ≤ c.gaussTail) :
    gaussCoef c d = residue c.q d := by
  rw [gaussCoef, drawG_eq_self hl hu]

theorem abs_drawG_le (d : Int) : |drawG c d| ≤ c.gaussTail := by
  have hnonneg := Int.emod_nonneg (d + c.gaussTail) (b := 2 * c.gaussTail + 1) (by omega)
  have hlt := Int.emod_lt_of_pos (d + c.gaussTail) (b := 2 * c.gaussTail + 1) (by omega)
  rw [abs_le, drawG]
  omega

/-- The signed representative of a residue is the number it stands for, where that is below half
the modulus (00_scope.md R9). -/
theorem center_residue {q : Nat} {v : Int} (h : 2 * |v| < q) : center q (residue q v) = v := by
  rcases le_or_gt 0 v with hv | hv
  · rw [abs_of_nonneg hv] at h
    rw [residue, Int.emod_eq_of_lt hv (by omega), center, if_pos (by omega), Int.toNat_of_nonneg hv]
  · rw [abs_of_neg hv] at h
    rw [residue, ← Int.add_emod_right, Int.emod_eq_of_lt (by omega) (by omega), center,
      if_neg (by omega)]
    omega

/-- The coefficient a Gaussian draw is stored as stands for the draw (R253). -/
theorem center_gaussCoef (hc : c.Valid) (d : Int) : center c.q (gaussCoef c d) = drawG c d := by
  have hdraw := abs_drawG_le (c := c) d
  have htail := hc.two_gaussTail_lt_q
  exact center_residue (by omega)

/-! ### The oracle's answers -/

/-- The next draws take the pending answers in order and consume them (log entry 3). -/
theorem take_append (ds rest : List Int) (k : Nat) :
    Oracle.take ds.length ⟨ds ++ rest, k⟩ = (ds, ⟨rest, k + ds.length⟩) := by
  induction ds generalizing k with
  | nil => rfl
  | cons d ds ih =>
    rw [List.length_cons, Oracle.take, List.cons_append, Oracle.next]
    simp only [ih, Nat.add_assoc, Nat.add_comm 1]

/-- With `N` answers pending a sample is made of them, index 0 first, and consumes them (R255,
R256). -/
theorem sample_of_pending {o : Oracle} {ds rest : List Int} (f : Int → Nat)
    (hp : o.pending = ds ++ rest) (hl : ds.length = c.n) :
    sample c f o = (canon (ds.map f), ⟨rest, o.count + c.n⟩) := by
  obtain ⟨pending, count⟩ := o
  subst hp
  rw [sample, ← hl, take_append]

/-- What holds of 0 and of every draw's coefficient holds of a sample's coefficients. -/
theorem coef_sample_of {f : Int → Nat} {P : Nat → Prop} (h0 : P 0) (hf : ∀ d, P (f d))
    (o : Oracle) (i : Nat) : P (coef (sample c f o).1 i) := by
  rw [sample, coef_canon]
  by_cases hi : i < ((Oracle.take c.n o).1.map f).length
  · obtain ⟨d, -, hd⟩ := List.mem_map.mp (coef_mem _ i hi)
    exact hd ▸ hf d
  · rwa [coef_eq_zero _ i (Nat.le_of_not_lt hi)]

/-- A sample whose draws are residues is a ring element in reduced form (R255). -/
theorem ringOk_sample (hc : c.Valid) {f : Int → Nat} (hf : ∀ d, f d < c.q) (o : Oracle) :
    RingOk c (sample c f o).1 := by
  refine ⟨isCanon_canon _, (length_canon_le _).trans ?_,
    coef_sample_of (P := (· < c.q)) hc.q_pos hf o⟩
  rw [List.length_map, length_take]

/-- Whatever the oracle answers, `sampleG()` is a Gaussian ring element (R253). -/
theorem gaussOk_sampleG (hc : c.Valid) (o : Oracle) : GaussOk c (sampleG c o).1 := by
  refine ⟨ringOk_sample hc (gaussCoef_lt hc) o, fun i => ?_⟩
  refine coef_sample_of (P := fun x => |center c.q x| ≤ c.gaussTail) ?_ (fun d => ?_) o i
  · simp [center]
  · rw [center_gaussCoef hc]
    exact abs_drawG_le d

end Sys2Proof.Machine
end

section
/-! The sampler commands (44_sampling.md R251 to R255): the value each one writes and the draws it
makes. -/

namespace Sys2Proof.Machine

variable {s : State}

/-- A sampler completes with its sample, tag PLAIN, and leaves the oracle after the draws. -/
theorem sampleResult_eq (rd : PReg) (f : Int → Nat) (ha : s.abreq = false) :
    s.sampleResult rd f = .next { s.finishedP rd (sample s.cfg f s.oracle).1 .plain with
      oracle := (sample s.cfg f s.oracle).2 } :=
  congrArg Host.Outcome.next (runCommand_ok _ ha)

/-- With `N` answers pending on which the draw is `g`, a sampler writes their values under `g` and
consumes them. -/
theorem sampleResult_of_pending (rd : PReg) {f g : Int → Nat} {ds rest : List Int}
    (ha : s.abreq = false) (hp : s.oracle.pending = ds ++ rest) (hl : ds.length = s.cfg.n)
    (hfg : ∀ d ∈ ds, f d = g d) :
    s.sampleResult rd f = .next { s.finishedP rd (canon (ds.map g)) .plain with
      oracle := ⟨rest, s.oracle.count + s.cfg.n⟩ } := by
  rw [sampleResult_eq rd f ha, sample_of_pending f hp hl, List.map_congr_left hfg]

/-- Settles O41: an answer in the draw's set is the draw, and the pending answers are the ones
taken. -/
theorem samplersUseTheirDraws : Obligations.SamplersUseTheirDraws := by
  intro s rd ds rest ha _ hp hl
  refine ⟨fun hd => ?_, fun hd => ?_, fun hd => ?_, fun hd => ?_⟩
  · refine sampleResult_of_pending (f := drawU s.cfg) rd ha hp hl fun d hmem => ?_
    obtain ⟨h0, hlt⟩ := hd d hmem
    exact drawBelow_eq_toNat h0 hlt
  · refine sampleResult_of_pending (f := drawT s.cfg) rd ha hp hl fun d hmem => ?_
    obtain ⟨h0, hlt⟩ := hd d hmem
    exact drawBelow_eq_toNat h0 hlt
  · refine sampleResult_of_pending (f := gaussCoef s.cfg) rd ha hp hl fun d hmem => ?_
    obtain ⟨hge, hle⟩ := hd d hmem
    exact gaussCoef_eq_residue hge hle
  · refine sampleResult_of_pending (f := drawB) rd ha hp hl fun d hmem => ?_
    have hbit := hd d hmem
    exact drawBelow_eq_toNat (by omega) (by omega)

/-- Settles O42: every draw is a residue in its set, and so is every coefficient of the sample. -/
theorem samplesStayInTheirSets : Obligations.SamplesStayInTheirSets := by
  intro s rd hc ha
  obtain ⟨ht2, htq, -⟩ := hc.t_bounds
  have ht : 0 < s.cfg.t := by omega
  obtain ⟨hring, hgauss⟩ := gaussOk_sampleG hc s.oracle
  refine ⟨⟨_, _, ?_, sampleResult_eq rd (drawU s.cfg) ha⟩,
    ⟨_, _, ?_, ?_, sampleResult_eq rd (drawT s.cfg) ha⟩,
    ⟨_, _, hring, hgauss, sampleResult_eq rd (gaussCoef s.cfg) ha⟩,
    ⟨_, _, ?_, ?_, sampleResult_eq rd drawB ha⟩⟩
  · exact ringOk_sample hc (drawBelow_lt hc.q_pos le_rfl) _
  · exact ringOk_sample hc (drawBelow_lt ht htq.le) _
  · exact coef_sample_of (P := (· < s.cfg.t)) ht (drawBelow_lt ht le_rfl) _
  · exact ringOk_sample hc (drawBelow_lt two_pos hc.one_lt_q) _
  · exact coef_sample_of (P := (· ≤ 1)) (by omega)
      (fun d => Nat.lt_succ_iff.mp (drawBelow_lt two_pos le_rfl d)) _

end Sys2Proof.Machine
end

section
/-! Gaussian samples as the ciphertext commands make them (44_sampling.md R253, R256): what one is
made of when its draws are pending, and how many draws it takes. -/

namespace Sys2Proof.Machine

variable {c : Config} {o : Oracle}

theorem sampleG_of_pending {ds rest : List Int} (hp : o.pending = ds ++ rest)
    (hl : ds.length = c.n) (hd : ∀ d ∈ ds, -(c.gaussTail : Int) ≤ d ∧ d ≤ c.gaussTail) :
    sampleG c o = (canon (ds.map (residue c.q)), ⟨rest, o.count + c.n⟩) := by
  have hmap : ds.map (gaussCoef c) = ds.map (residue c.q) := List.map_congr_left fun d hmem => by
    obtain ⟨hge, hle⟩ := hd d hmem
    exact gaussCoef_eq_residue hge hle
  rw [sampleG, sample_of_pending _ hp hl, hmap]

/-- Two samples in a row take their draws in that order (R256). -/
theorem two_sampleG_of_pending {ds de rest : List Int} (hp : o.pending = ds ++ (de ++ rest))
    (hls : ds.length = c.n) (hle : de.length = c.n)
    (hd : ∀ d ∈ ds ++ de, -(c.gaussTail : Int) ≤ d ∧ d ≤ c.gaussTail) :
    (sampleG c o).1 = canon (ds.map (residue c.q)) ∧
      sampleG c (sampleG c o).2 = (canon (de.map (residue c.q)), ⟨rest, o.count + 2 * c.n⟩) := by
  have hfirst := sampleG_of_pending hp hls fun d hmem => hd d (List.mem_append_left _ hmem)
  have hsecond := sampleG_of_pending (o := ⟨de ++ rest, o.count + c.n⟩) rfl hle
    fun d hmem => hd d (List.mem_append_right _ hmem)
  rw [hfirst, hsecond, two_mul, Nat.add_assoc]
  exact ⟨rfl, rfl⟩

theorem count_next (o : Oracle) : o.next.2.count = o.count + 1 := by
  obtain ⟨pending, k⟩ := o
  cases pending <;> rfl

theorem count_take (k : Nat) (o : Oracle) : (Oracle.take k o).2.count = o.count + k := by
  induction k generalizing o with
  | zero => rfl
  | succ k ih => rw [Oracle.take, ih, count_next, Nat.add_assoc, Nat.add_comm 1]

theorem count_sampleG (c : Config) (o : Oracle) : (sampleG c o).2.count = o.count + c.n :=
  count_take c.n o

theorem count_two_sampleG (c : Config) (o : Oracle) :
    (sampleG c (sampleG c o).2).2.count = o.count + 2 * c.n := by
  rw [count_sampleG, count_sampleG, two_mul, Nat.add_assoc]

end Sys2Proof.Machine
end

section
/-! Key candidates (45_yashe.md R271): a candidate is a key exactly when it and its scaled key have
inverses. -/

namespace Sys2Proof.Machine

variable {c : Config} {x f : Poly}

theorem noInverse_iff (hc : c.Valid) : NoInverse c x ↔ ∀ b, ringInverse c.q c.n x ≠ .ok b := by
  simp only [NoInverse, ne_eq, ringInverse_eq_ok_iff hc, IsInverse, not_and]

theorem keyCandidate_eq_some_iff (hc : c.Valid) {fi sk ski : Poly} :
    keyCandidate c f = some (fi, sk, ski) ↔
      IsInverse c f fi ∧ sk = scaledKey c f ∧ IsInverse c (scaledKey c f) ski := by
  rw [← ringInverse_eq_ok_iff hc, ← ringInverse_eq_ok_iff hc]
  refine ⟨keyCandidate_eq_some, ?_⟩
  rintro ⟨hf, rfl, hsk⟩
  simp only [keyCandidate, hf, hsk]

theorem keyCandidate_eq_none_iff (hc : c.Valid) :
    keyCandidate c f = none ↔ NoInverse c f ∨ NoInverse c (scaledKey c f) := by
  rw [noInverse_iff hc, noInverse_iff hc]
  constructor
  · intro hnone
    by_contra! hinv
    obtain ⟨⟨fi, hf⟩, ski, hsk⟩ := hinv
    rw [ringInverse_eq_ok_iff hc] at hf hsk
    cases hnone.symm.trans ((keyCandidate_eq_some_iff hc).mpr ⟨hf, rfl, hsk⟩)
  · intro hno
    rcases hk : keyCandidate c f with - | ⟨fi, sk, ski⟩
    · rfl
    · obtain ⟨hf, -, hsk⟩ := keyCandidate_eq_some hk
      exact (hno.elim (· fi hf) (· ski hsk)).elim

end Sys2Proof.Machine
end

section
/-! YKEYGEN (45_yashe.md R270 to R272): one pass, which counts and goes on or writes the key. -/

namespace Sys2Proof.Machine

variable {s : State} {rd r1 r2 r3 r4 : PReg}

/-- A group write begins with its lowest register. -/
theorem setGroup_cons {r : PReg} {b : Nat} (h : r.val = b) (v : Poly) (vs : List Poly) :
    s.setGroup b (v :: vs) = (s.setPT r v .plain).setGroup (b + 1) vs := by
  subst h
  rw [State.setGroup, Fin.ofNat_val_eq_self]

/-- A YKEYGEN whose group fits the register file, with no abort pending, makes a pass (R271). -/
theorem exec_keygen_pass (ha : s.abreq = false) (hrd : rd.val ≤ 11) :
    exec (.ykeygen rd) s = .next (s.keygenPass rd) := by
  have hr : rangeError s (.ykeygen rd) = none := if_neg (by omega)
  rw [exec_keygen, hr, ha]
  rfl

theorem exec_keygen_retried (hc : s.cfg.Valid) (ha : s.abreq = false) (hrd : rd.val ≤ 11) {f : Poly}
    {o : Oracle} (hf : sampleG s.cfg s.oracle = (f, o))
    (hno : NoInverse s.cfg f ∨ NoInverse s.cfg (scaledKey s.cfg f)) :
    exec (.ykeygen rd) s = .next (s.keygenRetried o) := by
  have hk : keyCandidate s.cfg (sampleG s.cfg s.oracle).1 = none := by
    rw [hf]
    exact (keyCandidate_eq_none_iff hc).mpr hno
  rw [exec_keygen_pass ha hrd, keygenPass_of_none rd hk, hf]
  rfl

theorem exec_keygen_finished (hc : s.cfg.Valid) (ha : s.abreq = false) (hrd : rd.val ≤ 11)
    (h1 : r1.val = rd.val + 1) (h2 : r2.val = rd.val + 2) (h3 : r3.val = rd.val + 3)
    (h4 : r4.val = rd.val + 4) {f fi ski g : Poly} {o : Oracle}
    (hf : (sampleG s.cfg s.oracle).1 = f)
    (hg : sampleG s.cfg (sampleG s.cfg s.oracle).2 = (g, o))
    (hfi : IsInverse s.cfg f fi) (hski : IsInverse s.cfg (scaledKey s.cfg f) ski) :
    exec (.ykeygen rd) s =
      .next (s.keygenFinished rd r1 r2 r3 r4 f fi (scaledKey s.cfg f) ski g o) := by
  have hk : keyCandidate s.cfg (sampleG s.cfg s.oracle).1 = some (fi, scaledKey s.cfg f, ski) := by
    rw [hf]
    exact (keyCandidate_eq_some_iff hc).mpr ⟨hfi, rfl, hski⟩
  rw [exec_keygen_pass ha hrd, keygenPass_of_some rd hk, hf, hg, publicKey,
    strategiesAgree _ _ _ _ hc, setGroup_cons rfl, setGroup_cons h1, setGroup_cons h2,
    setGroup_cons h3, setGroup_cons h4]
  rfl

/-- Settles O43: the candidate and the public key's sample are the pending draws, and the product
in the public key is the ring product whatever the strategy. -/
theorem keygenAcceptsCandidate : Obligations.KeygenAcceptsCandidate := by
  intro s rd r1 r2 r3 r4 df dg rest fi ski hs ha hrd h1 h2 h3 h4 hp hdf hdg hd q f g sk hfi hski
  obtain ⟨hf, hg⟩ := two_sampleG_of_pending hp hdf hdg hd
  exact exec_keygen_finished hs.valid ha hrd h1 h2 h3 h4 hf hg hfi hski

/-- Settles O44: the candidate either is a key, and the pass completes, or it is none, and the pass
only counts. -/
theorem keygenRetriesCandidate : Obligations.KeygenRetriesCandidate := by
  refine ⟨?_, ?_⟩
  · intro s rd df rest hs ha hrd hp hdf hd q f sk hno
    exact exec_keygen_retried hs.valid ha hrd (sampleG_of_pending hp hdf hd) hno
  · intro s rd r1 r2 r3 r4 hc ha hrd h1 h2 h3 h4
    rcases hk : keyCandidate s.cfg (sampleG s.cfg s.oracle).1 with - | ⟨fi, sk, ski⟩
    · have hno := (keyCandidate_eq_none_iff hc).mp hk
      exact ⟨_, (sampleG s.cfg s.oracle).2, gaussOk_sampleG hc _, .inl ⟨hno, count_sampleG _ _,
        exec_keygen_retried hc ha hrd rfl hno⟩⟩
    · obtain ⟨hfi, -, hski⟩ := (keyCandidate_eq_some_iff hc).mp hk
      exact ⟨_, (sampleG s.cfg (sampleG s.cfg s.oracle).2).2, gaussOk_sampleG hc _,
        .inr ⟨fi, ski, _, hfi, hski, gaussOk_sampleG hc _, count_two_sampleG _ _,
          exec_keygen_finished hc ha hrd h1 h2 h3 h4 rfl rfl hfi hski⟩⟩

end Sys2Proof.Machine
end

section
/-! Encryption, decryption and the homomorphic operations (45_yashe.md R273 to R277): the value, tag
and sticky flag each one writes. -/

namespace Sys2Proof.Machine

variable {s : State}

/-! ### Encryption -/

theorem exec_yenc (rd ra rb : PReg) (hc : s.cfg.Valid) (ha : s.abreq = false) {sm em : Poly}
    {o : Oracle} (hs : (sampleG s.cfg s.oracle).1 = sm)
    (he : sampleG s.cfg (sampleG s.cfg s.oracle).2 = (em, o)) :
    exec (.yenc rd ra rb) s = .next { s.finishedP rd
      (padd s.cfg.q
        (padd s.cfg.q (ringmul s.cfg.q s.cfg.n (reduce s.cfg.q s.cfg.n (s.getP rb)) sm)
          (pscale s.cfg.q em s.cfg.t))
        (reduce s.cfg.q s.cfg.n (s.getP ra))) .ct1 with oracle := o } := by
  rw [← strategiesAgree s.cfg s.curstrat _ _ hc]
  subst hs
  obtain ⟨rfl, rfl⟩ := Prod.mk.inj he.symm
  exact congrArg Host.Outcome.next (runCommand_ok _ ha)

theorem ringOk_padd {c : Config} (hc : c.Valid) {a b : Poly} (ha : a.length ≤ c.n)
    (hb : b.length ≤ c.n) : RingOk c (padd c.q a b) :=
  ⟨isCanon_padd _ _ _, (length_padd_le _ _ _).trans (max_le ha hb), (inRange_padd hc.q_pos _ _).lt⟩

/-- A sum of values of the ring, the noise term scaled by `t`, is one (R273). -/
theorem ringOk_ciphertext {c : Config} (hc : c.Valid) (h m sm : Poly) {em : Poly}
    (he : RingOk c em) : RingOk c (padd c.q (padd c.q (ringmul c.q c.n h sm) (pscale c.q em c.t))
      (reduce c.q c.n m)) := by
  have hscaled := (length_pscale_le c.q em c.t).trans he.length_le
  have hnoisy := ringOk_padd hc (length_ringmul_le c.q c.n h sm) hscaled
  exact ringOk_padd hc hnoisy.length_le (length_reduce_le _ _ _)

/-- Settles O45: the two samples are the pending draws, or Gaussian elements whatever the draws. -/
theorem yencResult : Obligations.YencResult := by
  refine ⟨?_, ?_⟩
  · intro s rd ra rb ds de rest hs ha hp hds hde hd q n sm em
    obtain ⟨hsm, hem⟩ := two_sampleG_of_pending hp hds hde hd
    exact exec_yenc rd ra rb hs.valid ha hsm hem
  · intro s rd ra rb hc ha
    have hem := gaussOk_sampleG hc (sampleG s.cfg s.oracle).2
    have ⟨hring, _⟩ := hem
    exact ⟨_, _, _, _, gaussOk_sampleG hc _, hem, ringOk_ciphertext hc _ _ _ hring, rfl,
      count_two_sampleG _ _, exec_yenc rd ra rb hc ha rfl rfl⟩

/-! ### Decryption -/

theorem exec_ydec (rd ra rb : PReg) (ha : s.abreq = false) :
    exec (.ydec rd ra rb) s = .next { s.finishedP rd
      (decodeMessage s.cfg (ringmul s.cfg.q s.cfg.n (s.getP rb) (s.getP ra))) .plain with
      noisew := s.noisew || decide (s.getTag ra ≠ .ct1) } := by
  rw [decide_not, ← beq_eq_decide]
  exact congrArg Host.Outcome.next (runCommand_ok _ ha)

theorem exec_ydecm (rd ra rb : PReg) (ha : s.abreq = false) :
    exec (.ydecm rd ra rb) s = .next { s.finishedP rd
      (decodeMessage s.cfg (ringmul s.cfg.q s.cfg.n
        (ringmul s.cfg.q s.cfg.n (s.getP rb) (s.getP rb)) (s.getP ra))) .plain with
      noisew := s.noisew || decide (s.getTag ra ≠ .ct2) } := by
  rw [decide_not, ← beq_eq_decide]
  exact congrArg Host.Outcome.next (runCommand_ok _ ha)

/-- Each coefficient of a decrypted message (R274). -/
theorem coef_decodeMessage {c : Config} (hc : c.Valid) (w : Poly) {i : Nat} (hi : i < c.n) :
    (coef (decodeMessage c w) i : Int) = center c.q (coef w i) % c.t := by
  obtain ⟨ht, -⟩ := hc.t_bounds
  rw [decodeMessage, coef_build, if_pos hi, natCast_residue (by omega)]

/-- Settles O46: both decryptions write a decoded message and differ in the product they decode. -/
theorem decryptResults : Obligations.DecryptResults := by
  intro s rd ra rb hs ha
  exact ⟨⟨_, isCanon_build _ _, length_build_le _ _, fun _ => coef_decodeMessage hs.valid _,
      exec_ydec rd ra rb ha⟩,
    ⟨_, isCanon_build _ _, length_build_le _ _, fun _ => coef_decodeMessage hs.valid _,
      exec_ydecm rd ra rb ha⟩⟩

/-! ### Homomorphic operations -/

theorem exec_yadd (rd ra rb : PReg) (ha : s.abreq = false) :
    exec (.yadd rd ra rb) s = .next { s.finishedP rd
      (reduce s.cfg.q s.cfg.n (padd s.cfg.q (s.getP ra) (s.getP rb)))
      (tagAdd (s.getTag ra) (s.getTag rb)) with
      depthx := s.depthx || decide (tagAdd (s.getTag ra) (s.getTag rb) = .over) } := by
  rw [← beq_eq_decide]
  exact congrArg Host.Outcome.next (runCommand_ok _ ha)

theorem exec_ymul (rd ra rb : PReg) (strat : Strat) (hc : s.cfg.Valid) (ha : s.abreq = false) :
    exec (.ymul rd ra rb strat) s = .next { s.finishedP rd
      (ringmul s.cfg.q s.cfg.n (s.getP ra) (s.getP rb)) (tagMul (s.getTag ra) (s.getTag rb)) with
      depthx := s.depthx || decide (tagMul (s.getTag ra) (s.getTag rb) = .over) } := by
  rw [← beq_eq_decide, ← strategiesAgree s.cfg (selectStrat strat s.curstrat) _ _ hc]
  exact congrArg Host.Outcome.next (runCommand_ok _ ha)

theorem code_tagAdd (a b : Tag) : (tagAdd a b).code =
    ([[0, 1, 2, 3], [1, 1, 3, 3], [2, 3, 2, 3], [3, 3, 3, 3]].getD a.code []).getD b.code 0 := by
  cases a <;> cases b <;> rfl

theorem code_tagMul (a b : Tag) : (tagMul a b).code =
    ([[0, 1, 2, 3], [1, 2, 3, 3], [2, 3, 3, 3], [3, 3, 3, 3]].getD a.code []).getD b.code 0 := by
  cases a <;> cases b <;> rfl

/-- Settles O47: the tags are the tables' entries, and YMUL's value does not depend on `strat`. -/
theorem homomorphicResults : Obligations.HomomorphicResults := by
  intro s rd ra rb strat hs ha
  exact ⟨⟨_, code_tagAdd _ _, exec_yadd rd ra rb ha⟩,
    ⟨_, code_tagMul _ _, exec_ymul rd ra rb strat hs.valid ha⟩⟩

end Sys2Proof.Machine
end

section
/-! Integer polynomials modulo `X^n + 1` (45_yashe.md R278, R279), as coefficient functions: the ring
element each one stands for, and the message it decodes to while it is in range. -/

namespace Sys2Proof.Machine

variable {c : Config} {q n : Nat} {v w : Nat → Int}

/-! ### Congruent coefficients -/

/-- Each coefficient of the integer product takes the operands' coefficients below `n` only, and
only up to congruence. -/
theorem intMul_modEq {m : Int} {v' w' : Nat → Int} (hv : ∀ i < n, v i ≡ v' i [ZMOD m])
    (hw : ∀ i < n, w i ≡ w' i [ZMOD m]) {j : Nat} (hj : j < n) :
    intMul n v w j ≡ intMul n v' w' j [ZMOD m] := by
  rw [intMul_eq_sum_range, intMul_eq_sum_range]
  refine Int.ModEq.sum fun i hi => ?_
  have hin := Finset.mem_range.mp hi
  split
  · exact (hv i hin).mul (hw _ (by omega))
  · exact ((hv i hin).mul (hw _ (by omega))).neg

theorem residue_modEq (hq : 0 < q) (x : Int) : (residue q x : Int) ≡ x [ZMOD q] := by
  rw [natCast_residue hq]
  exact Int.mod_modEq x q

theorem residue_congr {x y : Int} (h : x ≡ y [ZMOD q]) : residue q x = residue q y :=
  congrArg Int.toNat h

theorem residue_natCast {x : Nat} : residue q x = x % q := rfl

theorem center_modEq (q x : Nat) : center q x ≡ x [ZMOD q] := by
  rw [center]
  split
  · rfl
  · exact Int.sub_modulus_modEq_iff.mpr rfl

/-! ### The value an integer polynomial stands for -/

/-- The reduced value whose coefficients are those of `v` modulo `q`. -/
def ofInts (q n : Nat) (v : Nat → Int) : Poly := build n fun i => residue q (v i)

theorem coef_ofInts {i : Nat} (hi : i < n) : coef (ofInts q n v) i = residue q (v i) := by
  rw [ofInts, coef_build, if_pos hi]

theorem ringOk_ofInts (hc : c.Valid) (v : Nat → Int) : RingOk c (ofInts c.q c.n v) := by
  refine ⟨isCanon_build _ _, length_build_le _ _, fun i => ?_⟩
  rw [ofInts, coef_build]
  split
  · exact residue_lt hc.q_pos _
  · exact hc.q_pos

theorem ringOk_ringmul (hc : c.Valid) (a b : Poly) : RingOk c (ringmul c.q c.n a b) :=
  ringOk_reduce hc _

/-- A value of the ring is the one its coefficients below `N` fix. -/
theorem RingOk.eq_ofInts {a : Poly} (ha : RingOk c a)
    (h : ∀ i < c.n, coef a i = residue c.q (v i)) : a = ofInts c.q c.n v := by
  refine poly_ext ha.inRange.canon (isCanon_build _ _) fun i => ?_
  by_cases hi : i < c.n
  · rw [h i hi, coef_ofInts hi]
  · rw [ofInts, coef_build, if_neg hi, coef_eq_zero a i (by have := ha.length_le; omega)]

/-- A value of the ring stands for its coefficients. -/
theorem RingOk.eq_ofInts_coef {a : Poly} (ha : RingOk c a) :
    a = ofInts c.q c.n fun i => (coef a i : Int) :=
  ha.eq_ofInts fun i _ => (Nat.mod_eq_of_lt (ha.inRange.lt i)).symm

/-- A value of the ring stands for its signed coefficients (00_scope.md R9). -/
theorem RingOk.eq_ofInts_lift {a : Poly} (ha : RingOk c a) : a = ofInts c.q c.n (lift c a) :=
  ha.eq_ofInts fun i _ => by
    rw [lift, residue_congr (center_modEq _ _), residue_natCast, Nat.mod_eq_of_lt (ha.inRange.lt i)]

/-- A sample stands for its draws (44_sampling.md R253, R255). -/
theorem canon_map_residue {ds : List Int} (hl : ds.length = n) :
    canon (ds.map (residue q)) = ofInts q n fun i => ds.getD i 0 := by
  rw [ofInts, build]
  refine congrArg canon (List.ext_getElem (by simp [hl]) fun i hi _ => ?_)
  have hds : i < ds.length := by simpa using hi
  rw [List.getElem_map, List.getElem_map, List.getElem_range, List.getD_eq_getElem _ _ hds]

/-! ### Its ring element -/

theorem coeff_toPoly_ofInts (hq : 0 < q) (v : Nat → Int) (i : Nat) :
    (toPoly q (ofInts q n v)).coeff i = if i < n then (v i : ZMod q) else 0 := by
  rw [coeff_toPoly, ofInts, coef_build]
  split
  · exact cast_residue hq _
  · exact Nat.cast_zero

theorem toRing_ofInts_add (hq : 0 < q) (v w : Nat → Int) :
    toRing q n (ofInts q n fun i => v i + w i) =
      toRing q n (ofInts q n v) + toRing q n (ofInts q n w) := by
  rw [toRing, toRing, toRing, ← map_add]
  congr 1
  ext i
  simp only [Polynomial.coeff_add, coeff_toPoly_ofInts hq]
  split <;> simp

theorem toRing_ofInts_natCast_mul (hq : 0 < q) (k : Nat) (v : Nat → Int) :
    toRing q n (ofInts q n fun i => (k : Int) * v i) = k * toRing q n (ofInts q n v) := by
  rw [mul_comm, ← toRing_pscale, toRing, toRing]
  congr 1
  ext i
  rw [toPoly_pscale, Polynomial.coeff_mul_C, coeff_toPoly_ofInts hq, coeff_toPoly_ofInts hq]
  split <;> simp [mul_comm]

theorem toRing_ofInts_one (hq : 0 < q) (hn : 0 < n) :
    toRing q n (ofInts q n fun i => if i = 0 then 1 else 0) = 1 := by
  rw [← toRing_one, toRing, toRing, toPoly_one]
  congr 1
  ext i
  rw [coeff_toPoly_ofInts hq, Polynomial.coeff_one]
  by_cases hi : i = 0
  · simp [hi, hn]
  · simp [hi]

/-- The integer product stands for the ring product. -/
theorem ringmul_ofInts (hc : c.Valid) (v w : Nat → Int) :
    ringmul c.q c.n (ofInts c.q c.n v) (ofInts c.q c.n w) = ofInts c.q c.n (intMul c.n v w) := by
  have hv := ringOk_ofInts hc v
  have hw := ringOk_ofInts hc w
  have hmod : ∀ u : Nat → Int, ∀ i < c.n, (coef (ofInts c.q c.n u) i : Int) ≡ u i [ZMOD c.q] :=
    fun u i hi => by
      rw [coef_ofInts hi]
      exact residue_modEq hc.q_pos _
  refine (ringOk_ringmul hc _ _).eq_ofInts fun j hj => Int.natCast_inj.mp ?_
  rw [ringmul, reduce_eq_self hc.one_lt_q c.n_pos hv.inRange hv.length_le,
    reduce_eq_self hc.one_lt_q c.n_pos hw.inRange hw.length_le,
    coef_reduce_full hc.q_pos hv.length_le hw.length_le hj, natCast_residue hc.q_pos]
  exact intMul_modEq (hmod v) (hmod w) hj

theorem toRing_ofInts_intMul (hc : c.Valid) (v w : Nat → Int) :
    toRing c.q c.n (ofInts c.q c.n (intMul c.n v w)) =
      toRing c.q c.n (ofInts c.q c.n v) * toRing c.q c.n (ofInts c.q c.n w) := by
  rw [← ringmul_ofInts hc, toRing_ringmul hc.q_pos c.n_pos]

/-! ### Decoding -/

/-- A ring product that is an integer polynomial within `(q-1)/2` decodes to that polynomial modulo
`t`: no coefficient wraps (R278, R279). -/
theorem decodeMessage_ringmul (hc : c.Valid) {a b : Poly}
    (hab : toRing c.q c.n a * toRing c.q c.n b = toRing c.q c.n (ofInts c.q c.n v))
    (hv : ∀ j < c.n, |v j| ≤ ((c.q : Int) - 1) / 2) :
    decodeMessage c (ringmul c.q c.n a b) = build c.n fun j => residue c.t (v j) := by
  have hprod : ringmul c.q c.n a b = ofInts c.q c.n v :=
    (ringOk_ringmul hc a b).eq_of_toRing_eq hc (ringOk_ofInts hc v)
      ((toRing_ringmul hc.q_pos c.n_pos a b).trans hab)
  rw [hprod, decodeMessage, build, build]
  refine congrArg canon (List.map_congr_left fun j hj => ?_)
  have hjn := List.mem_range.mp hj
  have hbound := hv j hjn
  rw [coef_ofInts hjn, center_residue (by have := hc.q_pos; omega)]

end Sys2Proof.Machine
end

section
/-! What decryption gives back (45_yashe.md R278, R279): the product each decryption decodes stands
for the rule's integer polynomial. -/

namespace Sys2Proof.Machine

variable {s : State}

/-! ### One command after another -/

/-- What a command that wrote `P[rd] <- v` and no other polynomial register leaves for the next one:
its operands, the configuration and no new abort request. -/
structure WroteP (s u : State) (rd : PReg) (v : Poly) : Prop where
  cfg : u.cfg = s.cfg
  abreq : u.abreq = s.abreq
  p : u.p = s.p.set rd v

theorem WroteP.getP_self {u : State} {rd : PReg} {v : Poly} (h : WroteP s u rd v) :
    u.getP rd = v := by
  rw [State.getP, h.p]
  exact Vector.getElem_set_self _

theorem WroteP.getP_of_ne {u : State} {rd : PReg} {v : Poly} (h : WroteP s u rd v) {r : PReg}
    (hr : r ≠ rd) : u.getP r = s.getP r := by
  rw [State.getP, h.p]
  exact Vector.getElem_set_ne _ _ fun he => hr (Fin.ext he.symm)

theorem yenc_wroteP (rd ra rb : PReg) (hc : s.cfg.Valid) (ha : s.abreq = false) {sm em : Poly}
    {o : Oracle} (hs : (sampleG s.cfg s.oracle).1 = sm)
    (he : sampleG s.cfg (sampleG s.cfg s.oracle).2 = (em, o)) :
    ∃ u, exec (.yenc rd ra rb) s = .next u ∧ WroteP s u rd (padd s.cfg.q
      (padd s.cfg.q (ringmul s.cfg.q s.cfg.n (reduce s.cfg.q s.cfg.n (s.getP rb)) sm)
        (pscale s.cfg.q em s.cfg.t)) (reduce s.cfg.q s.cfg.n (s.getP ra))) :=
  ⟨_, exec_yenc rd ra rb hc ha hs he, rfl, rfl, rfl⟩

theorem ymul_wroteP (rd ra rb : PReg) (strat : Strat) (hc : s.cfg.Valid) (ha : s.abreq = false) :
    ∃ u, exec (.ymul rd ra rb strat) s = .next u ∧
      WroteP s u rd (ringmul s.cfg.q s.cfg.n (s.getP ra) (s.getP rb)) :=
  ⟨_, exec_ymul rd ra rb strat hc ha, rfl, rfl, rfl⟩

theorem ydec_wroteP (rd ra rb : PReg) (ha : s.abreq = false) :
    ∃ u, exec (.ydec rd ra rb) s = .next u ∧ WroteP s u rd
      (decodeMessage s.cfg (ringmul s.cfg.q s.cfg.n (s.getP rb) (s.getP ra))) :=
  ⟨_, exec_ydec rd ra rb ha, rfl, rfl, rfl⟩

theorem ydecm_wroteP (rd ra rb : PReg) (ha : s.abreq = false) :
    ∃ u, exec (.ydecm rd ra rb) s = .next u ∧ WroteP s u rd (decodeMessage s.cfg
      (ringmul s.cfg.q s.cfg.n (ringmul s.cfg.q s.cfg.n (s.getP rb) (s.getP rb)) (s.getP ra))) :=
  ⟨_, exec_ydecm rd ra rb ha, rfl, rfl, rfl⟩

/-! ### Correctness -/

/-- R278: `sk·c = t·E + m` for `c = h·s + t·e + m`, since `sk·h = t·g` and `sk = t·f + 1`. -/
theorem scaledKey_mul_ciphertext {R : Type*} [CommRing R] {t f g sk ski h e m x : R}
    (hsk : sk = f * t + 1) (hski : sk * ski = 1) (hh : h = g * ski * t) :
    sk * (h * x + e * t + m) = t * (g * x + sk * e + f * m) + m := by
  have hkey : sk * h = t * g := by linear_combination sk * hh + g * t * hski
  linear_combination x * hkey + m * hsk

/-- The noise term disappears modulo `t`. -/
theorem residue_mul_add {t : Nat} (x : Int) (y : Nat) : residue t (t * x + y) = y % t := by
  rw [← residue_natCast]
  exact residue_congr (Int.modEq_iff_dvd.mpr ⟨-x, by ring⟩)

/-- The key an `f` gives stands for the integer polynomial `t·f + 1` (R278). -/
theorem toRing_ofInts_scaledKey {c : Config} (hc : c.Valid) {f : Poly} (hf : RingOk c f) :
    toRing c.q c.n (ofInts c.q c.n fun i => (c.t : Int) * lift c f i + if i = 0 then 1 else 0) =
      toRing c.q c.n f * c.t + 1 := by
  rw [toRing_ofInts_add hc.q_pos, toRing_ofInts_natCast_mul hc.q_pos,
    toRing_ofInts_one hc.q_pos c.n_pos, ← hf.eq_ofInts_lift, mul_comm]

/-- Settles O48: in the ring YDEC's product is `t·E + m`, which no coefficient leaves the range of,
and `t·E + m` is `m` modulo `t`. -/
theorem decryptionUndoesEncryption : Obligations.DecryptionUndoesEncryption := by
  intro s rc rm rh rk ro f g ski ds de rest hs ha hne hp hds hde hd hf hg _ hm q n t hsk hski hh
    m sk noise hbound
  have hc := hs.valid
  have hq := hc.q_pos
  have hn := s.cfg.n_pos
  obtain ⟨hsm, hem⟩ := two_sampleG_of_pending hp hds hde hd
  rw [canon_map_residue hds] at hsm
  rw [canon_map_residue hde] at hem
  obtain ⟨u, hu, hc1⟩ := yenc_wroteP rc rm rh hc ha hsm hem
  obtain ⟨v, hv, hm1⟩ := ydec_wroteP ro rc rk (hc1.abreq.trans ha)
  refine ⟨u, v, hu, hv, ?_⟩
  rw [hm1.getP_self, hc1.cfg, hc1.getP_self, hc1.getP_of_ne hne]
  refine (decodeMessage_ringmul hc (v := fun j => t * noise j + m j) ?_ hbound).trans ?_
  · have hskRing : toRing q n (s.getP rk) = toRing q n f * s.cfg.t + 1 := by
      rw [hsk, toRing_padd, toRing_pscale, toRing_one]
    have hskiRing := (ringmul_eq_one_iff hc _ _).mp hski
    have hhRing : toRing q n (s.getP rh) = toRing q n g * toRing q n ski * s.cfg.t := by
      rw [hh, toRing_pscale, toRing_ringmul hq hn]
    rw [toRing_padd, toRing_padd, toRing_ringmul hq hn, toRing_pscale,
      toRing_reduce hq hn, toRing_reduce hq hn, scaledKey_mul_ciphertext hskRing hskiRing hhRing,
      toRing_ofInts_add hq, toRing_ofInts_natCast_mul hq, toRing_ofInts_add hq,
      toRing_ofInts_add hq, toRing_ofInts_intMul hc, toRing_ofInts_intMul hc,
      toRing_ofInts_intMul hc, toRing_ofInts_scaledKey hc hf, ← hskRing, ← hf.eq_ofInts_lift,
      ← hg.eq_ofInts_lift, ← hm.eq_ofInts_coef]
  · exact congrArg (build n) (funext fun j => residue_mul_add _ _)

/-- Settles O49: in the ring YDECM's product is `(sk·c1)·(sk·c2)`, so the integer polynomial
`v1·v2`, which is `m1·m2` modulo `t`. -/
theorem productDecryption : Obligations.ProductDecryption := by
  intro s rd ra rb rk ro strat v1 v2 m1 m2 hs ha hne q n t h1 h2 hm hbound
  have hc := hs.valid
  obtain ⟨u, hu, hc12⟩ := ymul_wroteP rd ra rb strat hc ha
  obtain ⟨v, hv, hm12⟩ := ydecm_wroteP ro rd rk (hc12.abreq.trans ha)
  refine ⟨u, v, hu, hv, ?_⟩
  rw [hm12.getP_self, hc12.cfg, hc12.getP_self, hc12.getP_of_ne hne]
  refine (decodeMessage_ringmul hc (v := intMul n v1 v2) ?_ hbound).trans ?_
  · rw [toRing_ofInts_intMul hc, ← (ringOk_ringmul hc _ _).eq_ofInts h1,
      ← (ringOk_ringmul hc _ _).eq_ofInts h2]
    simp only [toRing_ringmul hc.q_pos s.cfg.n_pos]
    ring
  · refine congrArg canon (List.map_congr_left fun j hj => residue_congr ?_)
    exact intMul_modEq (fun i hi => (hm i hi).1) (fun i hi => (hm i hi).2) (List.mem_range.mp hj)

end Sys2Proof.Machine
end

section
/-! NOP and the field commands that cannot fail (46_control.md R290, 40_field.md R120 to R123, R126,
R127). -/

namespace Sys2Proof.Machine

variable {s : State}

theorem natCast_fieldSub {q : Nat} (hq : 0 < q) (a b : Nat) :
    (fieldSub q a b : Int) = ((a : Int) - b) % q :=
  natCast_residue hq _

theorem natCast_fieldNeg {q : Nat} (hq : 0 < q) (a : Nat) :
    (fieldNeg q a : Int) = (-(a : Int)) % q :=
  natCast_residue hq _

/-- A field command with one scalar result writes it and completes (60_exceptions.md R313). -/
theorem scalarResult_eq (rd : SReg) (v : Nat) (ha : s.abreq = false) :
    s.scalarResult rd v = .next (s.finishedS rd v) := by
  rw [State.scalarResult, runCommand_ok _ ha, setS_complete]

theorem exec_nop (ha : s.abreq = false) : exec .nop s = .next s.finished :=
  congrArg Host.Outcome.next (runCommand_ok s ha)

/-- FSUB's result is the Euclidean remainder of the difference (40_field.md R121). -/
theorem exec_fsub (rd ra rb : SReg) (ha : s.abreq = false) :
    exec (.fsub rd ra rb) s =
      .next (s.finishedS rd (fieldSub s.cfg.q (s.getS ra) (s.getS rb))) :=
  scalarResult_eq rd _ ha

/-- FNEG's result is the Euclidean remainder of the negated operand (40_field.md R123). -/
theorem exec_fneg (rd ra : SReg) (ha : s.abreq = false) :
    exec (.fneg rd ra) s = .next (s.finishedS rd (fieldNeg s.cfg.q (s.getS ra))) :=
  scalarResult_eq rd _ ha

/-- Settles O21: each field command is a scalar write of its result, and the difference and the
negation are residues since `q` is positive. -/
theorem nopAndFieldResults : Obligations.NopAndFieldResults := by
  intro s rd ra rb imm ha hq
  refine ⟨exec_nop ha, ?fadd, ?fsub, ?fmul, ?fneg, ?fldi, ?fmov⟩
  case fadd => exact scalarResult_eq rd (fieldAdd s.cfg.q (s.getS ra) (s.getS rb)) ha
  case fsub =>
    exact ⟨_, fieldSub_lt hq _ _, natCast_fieldSub hq _ _, exec_fsub rd ra rb ha⟩
  case fmul => exact scalarResult_eq rd (fieldMul s.cfg.q (s.getS ra) (s.getS rb)) ha
  case fneg => exact ⟨_, fieldNeg_lt hq _, natCast_fieldNeg hq _, exec_fneg rd ra ha⟩
  case fldi => exact scalarResult_eq rd (imm % s.cfg.q) ha
  case fmov => exact scalarResult_eq rd (s.getS ra) ha

end Sys2Proof.Machine
end

section
/-! How a command ends (60_exceptions.md R300 to R313): what a completion can be, said once for every
command, and the claims about aborts, the completion record and the commands that cannot fail. -/

namespace Sys2Proof.Machine

variable {s t : State} {i : Instr} {es : List Event}

theorem isKeygen_iff (i : Instr) : isKeygen i = true ↔ ∃ rd, i = .ykeygen rd := by
  cases i <;> simp [isKeygen]

/-! ### An abort request -/

/-- The abort check comes after the range checks and before anything is written (R313). -/
theorem exec_abort (hk : isKeygen i = false) (hr : rangeError s i = none) (ha : s.abreq = true) :
    exec i s = .next (s.failed .aborted) := by
  obtain ⟨r, hx, -⟩ := exec_shape i s hk
  rw [hx, hr, runCommand_abort r ha, complete_error _ (by decide)]

/-- An aborted YKEYGEN records how many passes it made (R312). -/
theorem exec_keygen_abort {rd : PReg} (hr : rangeError s (.ykeygen rd) = none)
    (ha : s.abreq = true) :
    exec (.ykeygen rd) s = .next { s.failed .aborted with kgtries := s.kgcount } := by
  rw [exec_keygen, hr]
  exact congrArg Host.Outcome.next (if_pos ha)

/-- Settles O9: both frames look at the abort request right after the range checks, and only
YKEYGEN's writes KGTRIES there. -/
theorem abortRequestEndsCommand : Obligations.AbortRequestEndsCommand := by
  intro s i hr ha
  cases hk : isKeygen i with
  | false => exact exec_abort hk hr ha
  | true =>
    obtain ⟨rd, rfl⟩ := (isKeygen_iff i).mp hk
    exact exec_keygen_abort hr ha

/-! ### Completion in one unit step -/

theorem exec_completes (hk : isKeygen i = false) (h : exec i s = .next t) :
    ∃ u e, t = State.complete u e := by
  obtain ⟨e, rfl⟩ | ⟨u, -, rfl⟩ := exec_cases hk h
  · exact ⟨s, e, rfl⟩
  · exact ⟨u, .noError, rfl⟩

/-- A unit step on a word that decodes runs its command (R313, 20_memory.md R77). -/
theorem step_of_decode (hb : s.busy = true) (hu : s.UnitStepNext es)
    (hd : decode s.curcmd = .ok i) :
    step s = exec i { s with inputs := es } := by
  rw [step_of_unitStepNext hu, unitStep_busy (s := { s with inputs := es }) hb,
    runWord_ok (s := { s with inputs := es }) hd]

/-- Settles O10: a word that is no command completes with its error, and a command other than
YKEYGEN ends in the completion record. -/
theorem oneStepCommandsComplete : Obligations.OneStepCommandsComplete := by
  intro s es hb hu hi
  cases hd : decode s.curcmd with
  | error e => exact ⟨_, step_of_decode_error hb hu hd, rfl, rfl⟩
  | ok i =>
    obtain ⟨t, ht⟩ := exec_next i { s with inputs := es }
    obtain ⟨u, e, rfl⟩ := exec_completes (hi i hd) ht
    exact ⟨_, (step_of_decode hb hu hd).trans ht, rfl, rfl⟩

/-! ### The completion record -/

/-- `Completed i s t`: the command `i` in `s` ended, and left `t`. -/
inductive Completed (i : Instr) (s : State) : State → Prop where
  /-- with an error, which the record alone shows -/
  | failed (e : ErrCode) (he : e ≠ .noError) : Completed i s (s.failed e)
  /-- a YKEYGEN aborted before one of its passes -/
  | keygenAborted (hk : isKeygen i = true) :
      Completed i s { s.failed .aborted with kgtries := s.kgcount }
  /-- without an error, once its results stood in `u` -/
  | finished (u : State) (hie : u.ie = s.ie) (herrcmd : u.errcmd = s.errcmd) :
      Completed i s u.finished

theorem completed_complete (e : ErrCode) : Completed i s (s.complete e) := by
  by_cases he : e = .noError
  · subst he
    exact .finished s rfl rfl
  · rw [complete_error e he]
    exact .failed e he

theorem Wrote.ie {u : State} (h : Wrote i s u) : u.ie = s.ie := by
  cases h with
  | group b vs => exact State.setGroup_ie vs b s
  | _ => rfl

theorem Wrote.errcmd {u : State} (h : Wrote i s u) : u.errcmd = s.errcmd := by
  cases h with
  | group b vs => exact State.setGroup_errcmd vs b s
  | _ => rfl

/-- A pass of a busy unit that leaves it idle has found a key (45_yashe.md R271). -/
theorem completed_keygenPass {rd : PReg} (hb : s.busy = true)
    (ht : (s.keygenPass rd).busy = false) : Completed i s (s.keygenPass rd) := by
  obtain ⟨o, h⟩ | ⟨o, f, fi, sk, ski, pk, h⟩ := keygenPass_cases (s := s) rd
  · rw [h] at ht
    cases hb.symm.trans ht
  · rw [h]
    exact .finished _ (State.setGroup_ie ..) (State.setGroup_errcmd ..)

/-- Everything a command that ends can leave. -/
theorem exec_completed (hb : s.busy = true) (h : exec i s = .next t) (ht : t.busy = false) :
    Completed i s t := by
  cases hk : isKeygen i with
  | false =>
    obtain ⟨e, rfl⟩ | ⟨u, hu, rfl⟩ := exec_cases hk h
    · exact completed_complete e
    · exact .finished u hu.ie hu.errcmd
  | true =>
    obtain ⟨rd, rfl⟩ := (isKeygen_iff i).mp hk
    obtain ⟨e, rfl⟩ | rfl | ⟨-, rfl⟩ := exec_keygen_cases h
    · exact completed_complete e
    · exact .keygenAborted hk
    · exact completed_keygenPass hb ht

/-- Settles O11: each way to complete writes the record, and the two that fail write nothing else
but an aborted YKEYGEN's KGTRIES. -/
theorem completionRecord : Obligations.CompletionRecord := by
  intro s t i hb h ht
  cases exec_completed hb h ht with
  | failed e he =>
    exact ⟨rfl, Bool.and_true _, fun h0 => absurd h0 he, fun _ => ⟨rfl, fun hk => absurd rfl hk⟩⟩
  | keygenAborted hk =>
    have he : ErrCode.aborted ≠ .noError := by decide
    exact ⟨rfl, Bool.and_true _, fun h0 => absurd h0 he, fun _ => ⟨rfl, fun _ => ⟨rfl, hk⟩⟩⟩
  | finished u hie herrcmd =>
    exact ⟨rfl, (Bool.and_true _).trans hie, fun _ => herrcmd, fun h0 => absurd rfl h0⟩

/-! ### Commands that cannot fail -/

/-- A command with neither range checks nor an error of its own completes without error. -/
theorem completes_noError {u : State} (hx : exec i s = .next (s.runCommand none (.ok u)))
    (ha : s.abreq = false) : ∃ t, exec i s = .next t ∧ t.err = .noError ∧ t.busy = false :=
  ⟨u.complete .noError, by rw [hx, runCommand_ok u ha], rfl, rfl⟩

/-- Settles O12: past the ten commands with checks or errors of their own, every command's result
is a written state. -/
theorem infallibleCommands : Obligations.InfallibleCommands := by
  intro s i ha hi
  cases i with
  | finv | fdiv | pmono | pgetc | psetc | psplit | psplitk | pmulf | pinv | ykeygen => exact hi.elim
  | _ => exact completes_noError rfl ha

/-! ### Running and idle -/

/-- Settles O3: a unit step decodes CURCMD, and the schedule keeps only the events after it. -/
theorem stepRunsTheDecodedCommand : Obligations.StepRunsTheDecodedCommand := by
  intro s i hb hd _
  refine ⟨fun h => ?_, fun es h => step_of_decode hb (.inr h) hd⟩
  rw [step_nil h, unitStep_busy hb, runWord_ok hd]

/-- Settles O18: with no access and no reset coming, a step is a unit step, which an idle unit does
not take. -/
theorem idleKeepsState : Obligations.IdleKeepsState := by
  intro s hb
  refine ⟨fun h => (step_nil h).trans (unitStep_idle hb), fun es h => ?_⟩
  rw [step_of_unitStepNext (.inr h), unitStep_idle (s := { s with inputs := es }) hb]

end Sys2Proof.Machine
end

section
/-! The CMD register (10_state.md R33, 60_exceptions.md R307): acceptance while idle, an overrun
while busy. -/

namespace Sys2Proof.Machine

variable {s : State} {w : Word} {es : List Event}

theorem writeCmd_idle (hb : s.busy = false) (w : Word) : s.writeCmd w = s.accept w :=
  if_neg (by rw [hb]; decide)

theorem writeCmd_busy (hb : s.busy = true) (w : Word) : s.writeCmd w = { s with cmdovr := true } :=
  if_pos hb

/-- A CMD write reaches its register, busy or idle, with a normal response (20_memory.md R71). -/
theorem step_write_cmd (h : s.inputs = .write 0x010 (leBytes 4 w.toNat) :: es) :
    step s = .next { State.writeCmd { s with inputs := es } w with
      response := some ⟨false, []⟩ } := by
  rw [step_write_csr .cmd (by decide) (length_leBytes 4 _) (.inr rfl) h, ofNat_leValue_leBytes]
  rfl

/-- Settles O50: the write reaches CMD, which takes the word while idle and sets CMDOVR while
busy. -/
theorem cmdWrite : Obligations.CmdWrite := by
  intro s w es h
  refine ⟨fun hb => ⟨_, step_write_cmd h, ?_⟩, fun hb => ⟨_, step_write_cmd h, ?_⟩⟩
  · rw [writeCmd_idle (s := { s with inputs := es }) hb]
    exact ⟨Bool.and_false _, rfl⟩
  · rw [writeCmd_busy (s := { s with inputs := es }) hb]
    exact ⟨rfl, rfl⟩

end Sys2Proof.Machine
end

section
/-! Reset (70_reset_and_hazards.md R340 to R342): the register files at reset, what the reset input
leaves, and the invariants that hold from there on. -/

namespace Sys2Proof.Machine

@[simp] theorem resetWith_getP (c : Config) (r : PReg) : (State.resetWith c).getP r = [] :=
  Vector.getElem_replicate _

@[simp] theorem resetWith_getTag (c : Config) (r : PReg) :
    (State.resetWith c).getTag r = .plain :=
  Vector.getElem_replicate _

@[simp] theorem resetWith_getS (c : Config) (r : SReg) : (State.resetWith c).getS r = 0 :=
  Vector.getElem_replicate _

/-- At reset STATUS reads 0 (10_state.md R32). -/
@[simp] theorem resetWith_statusWord (c : Config) : (State.resetWith c).statusWord = 0 := by
  simp [State.statusWord, State.resetWith, ErrCode.code]

/-- Settles O1: the reset input answers the reset state of the same configuration, whatever the
fields held. -/
theorem resetInputClearsEveryElement : Obligations.ResetInputClearsEveryElement := by
  intro s es h
  exact ⟨_, step_cons _ _ h, fun r => ⟨resetWith_getP s.cfg r, resetWith_getTag s.cfg r⟩,
    resetWith_getS s.cfg, rfl, rfl, rfl, resetWith_statusWord s.cfg, rfl, rfl, rfl, rfl, rfl, rfl,
    rfl, rfl, rfl, rfl, rfl, rfl, rfl, rfl, rfl, rfl, rfl, rfl, rfl, rfl⟩

theorem inv_resetWith {c : Config} (hc : c.Valid) : Inv (State.resetWith c) := by
  refine ⟨hc, fun r => ?_, fun r => ?_⟩
  · rw [resetWith_getP]
    exact polyOk_nil hc
  · rw [resetWith_getS]
    exact hc.q_pos

/-- Settles O2: empty polynomials and zero scalars are well kept, and no pass of YKEYGEN has been
counted. -/
theorem resetMeetsInvariants : Obligations.ResetMeetsInvariants :=
  fun _ hc => ⟨inv_resetWith hc, keygenOk_of_kgcount_zero rfl⟩

end Sys2Proof.Machine
end
